-- ==== Sys2Proof/Word.lean ====
section
/-!
DEFINITION. The machine's two word types (spec/00_scope.md R6: the addressable unit is one byte of 8 bits, an address
has 16 bits). Slices, concatenation and extension are in Sys2Proof/Machine/Bits.lean.
-/

namespace Sys2Proof

/-- A byte: a register, an operand byte or a memory byte (R6). -/
abbrev Byte := BitVec 8

/-- A 16-bit address, and every other 16-bit quantity: `PC`, a vector, an assembled operand (R6). -/
abbrev Addr := BitVec 16

end Sys2Proof
end

