-- ==== Sys2Proof/Machine/Bits.lean ====
section
/-!
DEFINITION. The slices, concatenation and extensions of spec/00_scope.md R8, and the little-endian assembly of R66, R93.
-/

namespace Sys2Proof.Machine

/-- `lo(v)`: bits 7 to 0 (R8). -/
def lo (v : Addr) : Byte := v.extractLsb' 0 8

/-- `hi(v)`: bits 15 to 8, the page of an address (R8). -/
def hi (v : Addr) : Byte := v.extractLsb' 8 8

/-- `h ++ l`: the 16-bit value with high byte `h` and low byte `l` (R8). -/
def wordOf (h l : Byte) : Addr := (h ++ l : BitVec (8 + 8))

/-- `zext_16(b)` (R8): the byte read as an unsigned number. -/
def zext16 (b : Byte) : Addr := b.setWidth 16

/-- `sext_16(b)` (R8): `b` when bit 7 is 0 and `b + 0xFF00` when it is 1. -/
def sext16 (b : Byte) : Addr := b.signExtend 16

/-- `0x00 ++ b`: the zero-page address a one-byte operand names (R93). -/
def zeroPage (b : Byte) : Addr := wordOf 0 b

end Sys2Proof.Machine
end

