-- ==== Sys2Proof/Config.lean ====
section
/-!
DEFINITION. What one machine of this kind fixes: the named parameters of spec/00_scope.md R7, as plain data that State
carries and no step writes, and the free values (log entries 3, 4 and 12), which have no body.
-/

namespace Sys2Proof.Config

/-- `IRQ_MASKED_POLICY` (R308): what happens to a pending IRQ that a check finds masked by `I`. -/
inductive IrqMaskedPolicy where
  /-- It stays in `pending` until a check finds `I = 0`. -/
  | keep
  /-- It is removed. -/
  | drop
  deriving DecidableEq, Repr

/-- `UNSTABLE_POLICY` (R283): whether the seven unstable opcodes execute (R277 to R282) or are refused. -/
inductive UnstablePolicy where
  | execute
  | refuse
  deriving DecidableEq, Repr

/-- The named parameters of R7, but for `REGIONS` (which is State's region list) and `ROM_WRITE_POLICY` (which has the
one value `discard`, R53). The default beside a field is R7's own. -/
structure Params where
  /-- `STACK_PAGE`: the high byte of every stack address (R24). -/
  stackPage : Byte := 0x01
  /-- `VEC_NMI` (R311). -/
  vecNmi : Addr := 0xFFFA
  /-- `VEC_RESET` (R311). -/
  vecReset : Addr := 0xFFFC
  /-- `VEC_IRQ`, shared by IRQ and BRK (R311). -/
  vecIrq : Addr := 0xFFFE
  /-- `RESET_A` (R41). -/
  resetA : Byte := 0x00
  /-- `RESET_X` (R41). -/
  resetX : Byte := 0x00
  /-- `RESET_Y` (R41). -/
  resetY : Byte := 0x00
  /-- `RESET_SP` (R41). -/
  resetSp : Byte := 0xFD
  /-- The `N` of `RESET_P` (R41). -/
  resetN : Bool := false
  /-- The `V` of `RESET_P` (R41). -/
  resetV : Bool := false
  /-- The `D` of `RESET_P` (R41). -/
  resetD : Bool := false
  /-- The `Z` of `RESET_P` (R41). -/
  resetZ : Bool := false
  /-- The `C` of `RESET_P` (R41). -/
  resetC : Bool := false
  /-- `IRQ_MASKED_POLICY` (R308). -/
  irqMasked : IrqMaskedPolicy := .keep
  /-- `UNSTABLE_POLICY` (R283, R349). -/
  unstable : UnstablePolicy := .refuse
  /-- `ANE_MAGIC` (R277). -/
  aneMagic : Byte := 0xEE
  /-- `LXA_MAGIC` (R278). -/
  lxaMagic : Byte := 0xEE
  deriving DecidableEq, Repr

/-- The parameters at R7's defaults, under which the unstable opcodes are refused (R283, R349). -/
def defaultParams : Params := {}

/-- The parameters of `State.reset`: R7's defaults, but with `UNSTABLE_POLICY = execute`, the other value R7 allows, so that
every opcode with a rule runs (log entry 2, DESIGN CHOICE). -/
def resetParams : Params := { defaultParams with unstable := .execute }

/-- One thing that has happened to an IO region: what its own state is a function of (R54, log entry 4). -/
inductive IoEvent where
  /-- A bus-level read at an offset. -/
  | read (off : Nat)
  /-- A bus-level write of a byte at an offset. -/
  | write (off : Nat) (v : Byte)
  /-- A tick by the host between steps (spec/70_reset_and_hazards.md R350). -/
  | tick
  deriving DecidableEq, Repr

/-- FREE VALUE: what `io_read(off)` of the IO region with this identifier answers after this history, latest event first
(R54; U9; log entry 4). -/
opaque ioRead : Nat → List IoEvent → Nat → Byte

/-- FREE VALUE: what `io_diag(off)` answers (R54, R64; log entry 4). -/
opaque ioDiag : Nat → List IoEvent → Nat → Byte

/-- FREE VALUE: the identifiers of the regions that the write hook of an IO region maps, in order, when `v` is written at
`off` after this history (R37, R58; log entry 4). -/
opaque ioRemap : Nat → List IoEvent → Nat → Byte → List Nat

/-- FREE VALUE: what `A`, `X`, `Y` and `SP` (0 to 3) hold at construction, before the first reset (R343; U7; log entry 12). -/
opaque bootByte : Nat → Byte

/-- FREE VALUE: what `PC` holds at construction (R343; U7; log entry 12). -/
opaque bootPc : Addr

/-- FREE VALUE: what the flags `N V D I Z C` (0 to 5) hold at construction (R343; U7; log entry 12). -/
opaque bootFlag : Nat → Bool

/-- FREE VALUE: what `cycles` holds at construction (R343; U7; log entry 12). -/
opaque bootCycles : BitVec 64

/-- FREE VALUE: `V` after a decimal `ADC` or `SBC` (R163, R164; U2; log entry 3). -/
opaque freeV : Nat → Bool

/-- FREE VALUE: the result byte of a decimal `ADC` or `SBC` one of whose operands has a nibble above 9 (U3; log entry 3). -/
opaque freeDecimalByte : Nat → Byte

/-- FREE VALUE: `C` after a decimal `ADC` or `SBC` one of whose operands has a nibble above 9 (U3; log entry 3). -/
opaque freeDecimalCarry : Nat → Bool

end Sys2Proof.Config
end

