-- ==== Sys2Proof/Machine/State.lean ====
section
/-!
DEFINITION. The state of the machine (spec/10_state.md: the register file, the pending set and the bus state), the
reasons a step can stop, and the state right after reset.
-/

namespace Sys2Proof.Machine

/-- The six stored flags of `P` (R30). Bits 5 and 4 are not stored: Sys2Proof/Machine/Flags.lean makes the bytes. -/
structure Flags where
  n : Bool
  v : Bool
  d : Bool
  i : Bool
  z : Bool
  c : Bool
  deriving DecidableEq, Repr

/-- The pending-interrupt set over the kinds RESET, NMI, IRQ (R36). -/
structure Pending where
  reset : Bool
  nmi : Bool
  irq : Bool
  deriving DecidableEq, Repr

/-- The window `[start, start + size)` (R50). `AddressRange.wf` in Sys2Proof/WellFormed.lean is its invariant. -/
structure AddressRange where
  start : Nat
  size : Nat
  deriving DecidableEq, Repr

/-- Bytes by offset: the canonical list of cells whose laws are in Sys2Proof/Machine/Memory.lean. -/
abbrev Memory := List Host.Cell

/-- A region's kind with the storage of that kind (R51 to R54). An IO region's own state is the history of what has
happened to it, latest first (log entry 4). -/
inductive Backing where
  | ram (m : Memory)
  | rom (m : Memory)
  | io (h : List Config.IoEvent)
  deriving DecidableEq, Repr

/-- The kinds of a region (R51). -/
inductive RegionKind where
  | ram
  | rom
  | io
  deriving DecidableEq, Repr

/-- The kind of a region's storage (R51). -/
def Backing.kind : Backing → RegionKind
  | .ram _ => .ram
  | .rom _ => .rom
  | .io _ => .io

/-- A MemoryRegion (R51): identifier, range, and storage with its kind. -/
structure Region where
  id : Nat
  range : AddressRange
  backing : Backing
  deriving DecidableEq, Repr

/-- Which items of the register file hold a defined value, by a reset or by the host's own write (R343). -/
structure Defined where
  a : Bool
  x : Bool
  y : Bool
  sp : Bool
  pc : Bool
  p : Bool
  cycles : Bool
  deriving DecidableEq, Repr

/-- No register holds a defined value: the machine as constructed (R343). -/
def Defined.none : Defined := { a := false, x := false, y := false, sp := false, pc := false, p := false, cycles := false }

/-- Every register holds a defined value: the machine after a reset (R41, R343). -/
def Defined.all : Defined := { a := true, x := true, y := true, sp := true, pc := true, p := true, cycles := true }

/-- Everything that persists from one step to the next. -/
structure State where
  /-- The accumulator (R21). -/
  a : Byte
  /-- The first index register (R22). -/
  x : Byte
  /-- The second index register (R23). -/
  y : Byte
  /-- The stack pointer, an offset into the stack page (R24). -/
  sp : Byte
  /-- The program counter: between steps, the address of the next opcode byte (R25). -/
  pc : Addr
  /-- The stored flags of `P` (R29, R30). -/
  p : Flags
  /-- The cumulative cycle counter (R35). -/
  cycles : BitVec 64
  /-- Which registers hold a defined value yet: a step before all do is a fault (R343, U7, D8; log entry 12). -/
  defined : Defined
  /-- The pending-interrupt set (R36). -/
  pending : Pending
  /-- The region list, in order of first registration (R37, R56). -/
  regions : List Region
  /-- The dispatch table, as the order of the regions' latest mappings: identifiers, latest first (R55, R56; log entry 5,
  DEDUCED). `State.responsible` in Sys2Proof/Machine/Bus.lean reads the table out of it. -/
  mapOrder : List Nat
  /-- The model's own: the parameters this machine was built with (R7); no step writes them. -/
  params : Config.Params
  /-- The model's own: the value `Step()` returned last, `cycles_consumed` (R98, R305; log entry 9). -/
  consumed : Nat
  /-- The model's own: how many free values have been drawn (log entry 3). -/
  draws : Nat
  deriving DecidableEq, Repr

/-- The reasons a step stops with a fault: the two error conditions reported to the host (R302), and the step taken before
the registers hold defined values (R343). -/
inductive Fault where
  /-- Raised by the twelve `JAM` opcodes, with the opcode and its address (R276, R300). Safe: the spec stops here too. -/
  | invalidOpcode (opcode : Byte) (pc : Addr)
  /-- Raised by every bus operation on an address that no region answers (R59, R301). Safe: the spec stops here too. -/
  | addressDispatchGap (a : Addr)
  /-- Raised by a step taken before the first reset and before the host has written every register (R343, U7, D8). Safe: the
  spec asks a model for this fault. -/
  | registersUndefined
  deriving DecidableEq, Repr

/-- The reasons the model gives no meaning. -/
inductive Refusal where
  /-- For an arm of `exec` that has no meaning yet: no arm raises it. Safe: nothing is claimed of a refused step. -/
  | notModelled (mnemonic : String)
  /-- Raised by the seven unstable opcodes when `UNSTABLE_POLICY = refuse`, with the opcode and its address (R283). Safe:
  the spec marks the run refused too. -/
  | unstableOpcode (opcode : Byte) (pc : Addr)
  /-- Raised by the host operation `bulkCopy` for a copy that would pass `0xFFFF` (R65). Safe: the spec refuses it too. -/
  | bulkCopyPastEnd (a : Addr) (count : Nat)
  /-- Raised by the host operation `bulkCopy` at an address of a region that is not RAM (R65). Safe: the spec refuses it
  too. -/
  | bulkCopyNotRam (a : Addr)
  deriving DecidableEq, Repr

/-- `REGIONS` at its default (R7, D34): one RAM region over all 65536 addresses, no byte of it written. -/
def ramEverywhere : Region :=
  { id := 0, range := { start := 0, size := 65536 }, backing := .ram [] }

/-- The machine right after reset, built with these parameters over RAM everywhere (R41, R340). `PC` is the word that
unwritten memory holds at `VEC_RESET` (log entries 1 and 6); every other register is at R41's value. -/
def State.resetWith (params : Config.Params) : State :=
  { a := params.resetA
    x := params.resetX
    y := params.resetY
    sp := params.resetSp
    pc := 0x0000
    p := { n := params.resetN, v := params.resetV, d := params.resetD, i := true, z := params.resetZ, c := params.resetC }
    cycles := 0
    defined := .all
    pending := { reset := false, nmi := false, irq := false }
    regions := [ramEverywhere]
    mapOrder := [0]
    params := params
    consumed := 0
    draws := 0 }

/-- The machine right after reset, with `UNSTABLE_POLICY = execute` (log entry 2). The machine with every parameter at R7's
default, the unstable opcodes refused (R349), is `State.resetWith Config.defaultParams`. -/
def State.reset : State := State.resetWith Config.resetParams

end Sys2Proof.Machine
end

