-- ==== Sys2Proof/Machine/Memory.lean ====
section
/-!
DEFINITION. Bytes by offset, as a list of cells in one canonical form: offsets strictly rising, and no cell that holds
what an unlisted offset reads as. A region of kind RAM or ROM keeps its storage so (spec/20_memory.md R51).
-/

namespace Sys2Proof.Machine

/-- What an unlisted offset reads as. DESIGN CHOICE, unsafe (log entry 1): the spec gives RAM no contents at construction
(R52), and its test vectors take 0x00. -/
def Memory.unlisted : Byte := 0x00

/-- The byte at an offset. -/
def Memory.read : Memory → Nat → Byte
  | [], _ => Memory.unlisted
  | (k, v) :: m, o => if o = k then v else Memory.read m o

/-- A cell in front, unless it holds what an unlisted offset reads as. -/
def Memory.cons (o : Nat) (v : Byte) (m : Memory) : Memory :=
  if v = Memory.unlisted then m else (o, v) :: m

/-- The bytes after `v` is written at an offset. -/
def Memory.write : Memory → Nat → Byte → Memory
  | [], o, v => Memory.cons o v []
  | (k, w) :: m, o, v =>
    if o < k then Memory.cons o v ((k, w) :: m)
    else if o = k then Memory.cons o v m
    else (k, w) :: Memory.write m o v

/-- The canonical form, for cells at `bound` and above. -/
def Memory.wfFrom : Nat → Memory → Bool
  | _, [] => true
  | bound, (k, v) :: m => decide (bound ≤ k) && decide (v ≠ Memory.unlisted) && Memory.wfFrom (k + 1) m

/-- The canonical form of a region's storage. -/
def Memory.wf (m : Memory) : Bool := Memory.wfFrom 0 m

/-- Every listed offset lies below `size`. -/
def Memory.within (size : Nat) (m : Memory) : Bool := m.all fun cell => decide (cell.1 < size)

end Sys2Proof.Machine
end

