-- ==== Sys2Proof/Syntax.lean ====
section
/-!
DEFINITION. The instructions: one constructor per row of the opcode matrix (spec/30_encoding.md R95), first the rows with
operand bytes and then those without, each in opcode order, named by the row's mnemonic and addressing mode. Where several opcode bytes share mnemonic and mode, each but the documented one
carries its byte in its name. `b` is the operand byte (or the branch offset byte), `w` the operand word assembled
little-endian (R93).
-/

namespace Sys2Proof

/-- An instruction with its operand. -/
inductive Instr where
  /-- `0x01`: `ORA ($nn,X)`. -/
  | oraIzx (b : Byte)
  /-- `0x03`: `SLO ($nn,X)`. -/
  | sloIzx (b : Byte)
  /-- `0x04`: `NOP $nn`. -/
  | nopZp04 (b : Byte)
  /-- `0x05`: `ORA $nn`. -/
  | oraZp (b : Byte)
  /-- `0x06`: `ASL $nn`. -/
  | aslZp (b : Byte)
  /-- `0x07`: `SLO $nn`. -/
  | sloZp (b : Byte)
  /-- `0x09`: `ORA #$nn`. -/
  | oraImm (b : Byte)
  /-- `0x0B`: `ANC #$nn`. -/
  | ancImm0B (b : Byte)
  /-- `0x0C`: `NOP $nnnn`. -/
  | nopAbs (w : Addr)
  /-- `0x0D`: `ORA $nnnn`. -/
  | oraAbs (w : Addr)
  /-- `0x0E`: `ASL $nnnn`. -/
  | aslAbs (w : Addr)
  /-- `0x0F`: `SLO $nnnn`. -/
  | sloAbs (w : Addr)
  /-- `0x10`: `BPL $rr`. -/
  | bpl (b : Byte)
  /-- `0x11`: `ORA ($nn),Y`. -/
  | oraIzy (b : Byte)
  /-- `0x13`: `SLO ($nn),Y`. -/
  | sloIzy (b : Byte)
  /-- `0x14`: `NOP $nn,X`. -/
  | nopZpx14 (b : Byte)
  /-- `0x15`: `ORA $nn,X`. -/
  | oraZpx (b : Byte)
  /-- `0x16`: `ASL $nn,X`. -/
  | aslZpx (b : Byte)
  /-- `0x17`: `SLO $nn,X`. -/
  | sloZpx (b : Byte)
  /-- `0x19`: `ORA $nnnn,Y`. -/
  | oraAby (w : Addr)
  /-- `0x1B`: `SLO $nnnn,Y`. -/
  | sloAby (w : Addr)
  /-- `0x1C`: `NOP $nnnn,X`. -/
  | nopAbx1C (w : Addr)
  /-- `0x1D`: `ORA $nnnn,X`. -/
  | oraAbx (w : Addr)
  /-- `0x1E`: `ASL $nnnn,X`. -/
  | aslAbx (w : Addr)
  /-- `0x1F`: `SLO $nnnn,X`. -/
  | sloAbx (w : Addr)
  /-- `0x20`: `JSR $nnnn`. -/
  | jsrAbs (w : Addr)
  /-- `0x21`: `AND ($nn,X)`. -/
  | andIzx (b : Byte)
  /-- `0x23`: `RLA ($nn,X)`. -/
  | rlaIzx (b : Byte)
  /-- `0x24`: `BIT $nn`. -/
  | bitZp (b : Byte)
  /-- `0x25`: `AND $nn`. -/
  | andZp (b : Byte)
  /-- `0x26`: `ROL $nn`. -/
  | rolZp (b : Byte)
  /-- `0x27`: `RLA $nn`. -/
  | rlaZp (b : Byte)
  /-- `0x29`: `AND #$nn`. -/
  | andImm (b : Byte)
  /-- `0x2B`: `ANC #$nn`. -/
  | ancImm2B (b : Byte)
  /-- `0x2C`: `BIT $nnnn`. -/
  | bitAbs (w : Addr)
  /-- `0x2D`: `AND $nnnn`. -/
  | andAbs (w : Addr)
  /-- `0x2E`: `ROL $nnnn`. -/
  | rolAbs (w : Addr)
  /-- `0x2F`: `RLA $nnnn`. -/
  | rlaAbs (w : Addr)
  /-- `0x30`: `BMI $rr`. -/
  | bmi (b : Byte)
  /-- `0x31`: `AND ($nn),Y`. -/
  | andIzy (b : Byte)
  /-- `0x33`: `RLA ($nn),Y`. -/
  | rlaIzy (b : Byte)
  /-- `0x34`: `NOP $nn,X`. -/
  | nopZpx34 (b : Byte)
  /-- `0x35`: `AND $nn,X`. -/
  | andZpx (b : Byte)
  /-- `0x36`: `ROL $nn,X`. -/
  | rolZpx (b : Byte)
  /-- `0x37`: `RLA $nn,X`. -/
  | rlaZpx (b : Byte)
  /-- `0x39`: `AND $nnnn,Y`. -/
  | andAby (w : Addr)
  /-- `0x3B`: `RLA $nnnn,Y`. -/
  | rlaAby (w : Addr)
  /-- `0x3C`: `NOP $nnnn,X`. -/
  | nopAbx3C (w : Addr)
  /-- `0x3D`: `AND $nnnn,X`. -/
  | andAbx (w : Addr)
  /-- `0x3E`: `ROL $nnnn,X`. -/
  | rolAbx (w : Addr)
  /-- `0x3F`: `RLA $nnnn,X`. -/
  | rlaAbx (w : Addr)
  /-- `0x41`: `EOR ($nn,X)`. -/
  | eorIzx (b : Byte)
  /-- `0x43`: `SRE ($nn,X)`. -/
  | sreIzx (b : Byte)
  /-- `0x44`: `NOP $nn`. -/
  | nopZp44 (b : Byte)
  /-- `0x45`: `EOR $nn`. -/
  | eorZp (b : Byte)
  /-- `0x46`: `LSR $nn`. -/
  | lsrZp (b : Byte)
  /-- `0x47`: `SRE $nn`. -/
  | sreZp (b : Byte)
  /-- `0x49`: `EOR #$nn`. -/
  | eorImm (b : Byte)
  /-- `0x4B`: `ALR #$nn`. -/
  | alrImm (b : Byte)
  /-- `0x4C`: `JMP $nnnn`. -/
  | jmpAbs (w : Addr)
  /-- `0x4D`: `EOR $nnnn`. -/
  | eorAbs (w : Addr)
  /-- `0x4E`: `LSR $nnnn`. -/
  | lsrAbs (w : Addr)
  /-- `0x4F`: `SRE $nnnn`. -/
  | sreAbs (w : Addr)
  /-- `0x50`: `BVC $rr`. -/
  | bvc (b : Byte)
  /-- `0x51`: `EOR ($nn),Y`. -/
  | eorIzy (b : Byte)
  /-- `0x53`: `SRE ($nn),Y`. -/
  | sreIzy (b : Byte)
  /-- `0x54`: `NOP $nn,X`. -/
  | nopZpx54 (b : Byte)
  /-- `0x55`: `EOR $nn,X`. -/
  | eorZpx (b : Byte)
  /-- `0x56`: `LSR $nn,X`. -/
  | lsrZpx (b : Byte)
  /-- `0x57`: `SRE $nn,X`. -/
  | sreZpx (b : Byte)
  /-- `0x59`: `EOR $nnnn,Y`. -/
  | eorAby (w : Addr)
  /-- `0x5B`: `SRE $nnnn,Y`. -/
  | sreAby (w : Addr)
  /-- `0x5C`: `NOP $nnnn,X`. -/
  | nopAbx5C (w : Addr)
  /-- `0x5D`: `EOR $nnnn,X`. -/
  | eorAbx (w : Addr)
  /-- `0x5E`: `LSR $nnnn,X`. -/
  | lsrAbx (w : Addr)
  /-- `0x5F`: `SRE $nnnn,X`. -/
  | sreAbx (w : Addr)
  /-- `0x61`: `ADC ($nn,X)`. -/
  | adcIzx (b : Byte)
  /-- `0x63`: `RRA ($nn,X)`. -/
  | rraIzx (b : Byte)
  /-- `0x64`: `NOP $nn`. -/
  | nopZp64 (b : Byte)
  /-- `0x65`: `ADC $nn`. -/
  | adcZp (b : Byte)
  /-- `0x66`: `ROR $nn`. -/
  | rorZp (b : Byte)
  /-- `0x67`: `RRA $nn`. -/
  | rraZp (b : Byte)
  /-- `0x69`: `ADC #$nn`. -/
  | adcImm (b : Byte)
  /-- `0x6B`: `ARR #$nn`. -/
  | arrImm (b : Byte)
  /-- `0x6C`: `JMP ($nnnn)`. -/
  | jmpInd (w : Addr)
  /-- `0x6D`: `ADC $nnnn`. -/
  | adcAbs (w : Addr)
  /-- `0x6E`: `ROR $nnnn`. -/
  | rorAbs (w : Addr)
  /-- `0x6F`: `RRA $nnnn`. -/
  | rraAbs (w : Addr)
  /-- `0x70`: `BVS $rr`. -/
  | bvs (b : Byte)
  /-- `0x71`: `ADC ($nn),Y`. -/
  | adcIzy (b : Byte)
  /-- `0x73`: `RRA ($nn),Y`. -/
  | rraIzy (b : Byte)
  /-- `0x74`: `NOP $nn,X`. -/
  | nopZpx74 (b : Byte)
  /-- `0x75`: `ADC $nn,X`. -/
  | adcZpx (b : Byte)
  /-- `0x76`: `ROR $nn,X`. -/
  | rorZpx (b : Byte)
  /-- `0x77`: `RRA $nn,X`. -/
  | rraZpx (b : Byte)
  /-- `0x79`: `ADC $nnnn,Y`. -/
  | adcAby (w : Addr)
  /-- `0x7B`: `RRA $nnnn,Y`. -/
  | rraAby (w : Addr)
  /-- `0x7C`: `NOP $nnnn,X`. -/
  | nopAbx7C (w : Addr)
  /-- `0x7D`: `ADC $nnnn,X`. -/
  | adcAbx (w : Addr)
  /-- `0x7E`: `ROR $nnnn,X`. -/
  | rorAbx (w : Addr)
  /-- `0x7F`: `RRA $nnnn,X`. -/
  | rraAbx (w : Addr)
  /-- `0x80`: `NOP #$nn`. -/
  | nopImm80 (b : Byte)
  /-- `0x81`: `STA ($nn,X)`. -/
  | staIzx (b : Byte)
  /-- `0x82`: `NOP #$nn`. -/
  | nopImm82 (b : Byte)
  /-- `0x83`: `SAX ($nn,X)`. -/
  | saxIzx (b : Byte)
  /-- `0x84`: `STY $nn`. -/
  | styZp (b : Byte)
  /-- `0x85`: `STA $nn`. -/
  | staZp (b : Byte)
  /-- `0x86`: `STX $nn`. -/
  | stxZp (b : Byte)
  /-- `0x87`: `SAX $nn`. -/
  | saxZp (b : Byte)
  /-- `0x89`: `NOP #$nn`. -/
  | nopImm89 (b : Byte)
  /-- `0x8B`: `ANE #$nn`. -/
  | aneImm (b : Byte)
  /-- `0x8C`: `STY $nnnn`. -/
  | styAbs (w : Addr)
  /-- `0x8D`: `STA $nnnn`. -/
  | staAbs (w : Addr)
  /-- `0x8E`: `STX $nnnn`. -/
  | stxAbs (w : Addr)
  /-- `0x8F`: `SAX $nnnn`. -/
  | saxAbs (w : Addr)
  /-- `0x90`: `BCC $rr`. -/
  | bcc (b : Byte)
  /-- `0x91`: `STA ($nn),Y`. -/
  | staIzy (b : Byte)
  /-- `0x93`: `SHA ($nn),Y`. -/
  | shaIzy (b : Byte)
  /-- `0x94`: `STY $nn,X`. -/
  | styZpx (b : Byte)
  /-- `0x95`: `STA $nn,X`. -/
  | staZpx (b : Byte)
  /-- `0x96`: `STX $nn,Y`. -/
  | stxZpy (b : Byte)
  /-- `0x97`: `SAX $nn,Y`. -/
  | saxZpy (b : Byte)
  /-- `0x99`: `STA $nnnn,Y`. -/
  | staAby (w : Addr)
  /-- `0x9B`: `TAS $nnnn,Y`. -/
  | tasAby (w : Addr)
  /-- `0x9C`: `SHY $nnnn,X`. -/
  | shyAbx (w : Addr)
  /-- `0x9D`: `STA $nnnn,X`. -/
  | staAbx (w : Addr)
  /-- `0x9E`: `SHX $nnnn,Y`. -/
  | shxAby (w : Addr)
  /-- `0x9F`: `SHA $nnnn,Y`. -/
  | shaAby (w : Addr)
  /-- `0xA0`: `LDY #$nn`. -/
  | ldyImm (b : Byte)
  /-- `0xA1`: `LDA ($nn,X)`. -/
  | ldaIzx (b : Byte)
  /-- `0xA2`: `LDX #$nn`. -/
  | ldxImm (b : Byte)
  /-- `0xA3`: `LAX ($nn,X)`. -/
  | laxIzx (b : Byte)
  /-- `0xA4`: `LDY $nn`. -/
  | ldyZp (b : Byte)
  /-- `0xA5`: `LDA $nn`. -/
  | ldaZp (b : Byte)
  /-- `0xA6`: `LDX $nn`. -/
  | ldxZp (b : Byte)
  /-- `0xA7`: `LAX $nn`. -/
  | laxZp (b : Byte)
  /-- `0xA9`: `LDA #$nn`. -/
  | ldaImm (b : Byte)
  /-- `0xAB`: `LXA #$nn`. -/
  | lxaImm (b : Byte)
  /-- `0xAC`: `LDY $nnnn`. -/
  | ldyAbs (w : Addr)
  /-- `0xAD`: `LDA $nnnn`. -/
  | ldaAbs (w : Addr)
  /-- `0xAE`: `LDX $nnnn`. -/
  | ldxAbs (w : Addr)
  /-- `0xAF`: `LAX $nnnn`. -/
  | laxAbs (w : Addr)
  /-- `0xB0`: `BCS $rr`. -/
  | bcs (b : Byte)
  /-- `0xB1`: `LDA ($nn),Y`. -/
  | ldaIzy (b : Byte)
  /-- `0xB3`: `LAX ($nn),Y`. -/
  | laxIzy (b : Byte)
  /-- `0xB4`: `LDY $nn,X`. -/
  | ldyZpx (b : Byte)
  /-- `0xB5`: `LDA $nn,X`. -/
  | ldaZpx (b : Byte)
  /-- `0xB6`: `LDX $nn,Y`. -/
  | ldxZpy (b : Byte)
  /-- `0xB7`: `LAX $nn,Y`. -/
  | laxZpy (b : Byte)
  /-- `0xB9`: `LDA $nnnn,Y`. -/
  | ldaAby (w : Addr)
  /-- `0xBB`: `LAS $nnnn,Y`. -/
  | lasAby (w : Addr)
  /-- `0xBC`: `LDY $nnnn,X`. -/
  | ldyAbx (w : Addr)
  /-- `0xBD`: `LDA $nnnn,X`. -/
  | ldaAbx (w : Addr)
  /-- `0xBE`: `LDX $nnnn,Y`. -/
  | ldxAby (w : Addr)
  /-- `0xBF`: `LAX $nnnn,Y`. -/
  | laxAby (w : Addr)
  /-- `0xC0`: `CPY #$nn`. -/
  | cpyImm (b : Byte)
  /-- `0xC1`: `CMP ($nn,X)`. -/
  | cmpIzx (b : Byte)
  /-- `0xC2`: `NOP #$nn`. -/
  | nopImmC2 (b : Byte)
  /-- `0xC3`: `DCP ($nn,X)`. -/
  | dcpIzx (b : Byte)
  /-- `0xC4`: `CPY $nn`. -/
  | cpyZp (b : Byte)
  /-- `0xC5`: `CMP $nn`. -/
  | cmpZp (b : Byte)
  /-- `0xC6`: `DEC $nn`. -/
  | decZp (b : Byte)
  /-- `0xC7`: `DCP $nn`. -/
  | dcpZp (b : Byte)
  /-- `0xC9`: `CMP #$nn`. -/
  | cmpImm (b : Byte)
  /-- `0xCB`: `SBX #$nn`. -/
  | sbxImm (b : Byte)
  /-- `0xCC`: `CPY $nnnn`. -/
  | cpyAbs (w : Addr)
  /-- `0xCD`: `CMP $nnnn`. -/
  | cmpAbs (w : Addr)
  /-- `0xCE`: `DEC $nnnn`. -/
  | decAbs (w : Addr)
  /-- `0xCF`: `DCP $nnnn`. -/
  | dcpAbs (w : Addr)
  /-- `0xD0`: `BNE $rr`. -/
  | bne (b : Byte)
  /-- `0xD1`: `CMP ($nn),Y`. -/
  | cmpIzy (b : Byte)
  /-- `0xD3`: `DCP ($nn),Y`. -/
  | dcpIzy (b : Byte)
  /-- `0xD4`: `NOP $nn,X`. -/
  | nopZpxD4 (b : Byte)
  /-- `0xD5`: `CMP $nn,X`. -/
  | cmpZpx (b : Byte)
  /-- `0xD6`: `DEC $nn,X`. -/
  | decZpx (b : Byte)
  /-- `0xD7`: `DCP $nn,X`. -/
  | dcpZpx (b : Byte)
  /-- `0xD9`: `CMP $nnnn,Y`. -/
  | cmpAby (w : Addr)
  /-- `0xDB`: `DCP $nnnn,Y`. -/
  | dcpAby (w : Addr)
  /-- `0xDC`: `NOP $nnnn,X`. -/
  | nopAbxDC (w : Addr)
  /-- `0xDD`: `CMP $nnnn,X`. -/
  | cmpAbx (w : Addr)
  /-- `0xDE`: `DEC $nnnn,X`. -/
  | decAbx (w : Addr)
  /-- `0xDF`: `DCP $nnnn,X`. -/
  | dcpAbx (w : Addr)
  /-- `0xE0`: `CPX #$nn`. -/
  | cpxImm (b : Byte)
  /-- `0xE1`: `SBC ($nn,X)`. -/
  | sbcIzx (b : Byte)
  /-- `0xE2`: `NOP #$nn`. -/
  | nopImmE2 (b : Byte)
  /-- `0xE3`: `ISB ($nn,X)`. -/
  | isbIzx (b : Byte)
  /-- `0xE4`: `CPX $nn`. -/
  | cpxZp (b : Byte)
  /-- `0xE5`: `SBC $nn`. -/
  | sbcZp (b : Byte)
  /-- `0xE6`: `INC $nn`. -/
  | incZp (b : Byte)
  /-- `0xE7`: `ISB $nn`. -/
  | isbZp (b : Byte)
  /-- `0xE9`: `SBC #$nn`. -/
  | sbcImm (b : Byte)
  /-- `0xEB`: `SBC #$nn`. -/
  | sbcImmEB (b : Byte)
  /-- `0xEC`: `CPX $nnnn`. -/
  | cpxAbs (w : Addr)
  /-- `0xED`: `SBC $nnnn`. -/
  | sbcAbs (w : Addr)
  /-- `0xEE`: `INC $nnnn`. -/
  | incAbs (w : Addr)
  /-- `0xEF`: `ISB $nnnn`. -/
  | isbAbs (w : Addr)
  /-- `0xF0`: `BEQ $rr`. -/
  | beq (b : Byte)
  /-- `0xF1`: `SBC ($nn),Y`. -/
  | sbcIzy (b : Byte)
  /-- `0xF3`: `ISB ($nn),Y`. -/
  | isbIzy (b : Byte)
  /-- `0xF4`: `NOP $nn,X`. -/
  | nopZpxF4 (b : Byte)
  /-- `0xF5`: `SBC $nn,X`. -/
  | sbcZpx (b : Byte)
  /-- `0xF6`: `INC $nn,X`. -/
  | incZpx (b : Byte)
  /-- `0xF7`: `ISB $nn,X`. -/
  | isbZpx (b : Byte)
  /-- `0xF9`: `SBC $nnnn,Y`. -/
  | sbcAby (w : Addr)
  /-- `0xFB`: `ISB $nnnn,Y`. -/
  | isbAby (w : Addr)
  /-- `0xFC`: `NOP $nnnn,X`. -/
  | nopAbxFC (w : Addr)
  /-- `0xFD`: `SBC $nnnn,X`. -/
  | sbcAbx (w : Addr)
  /-- `0xFE`: `INC $nnnn,X`. -/
  | incAbx (w : Addr)
  /-- `0xFF`: `ISB $nnnn,X`. -/
  | isbAbx (w : Addr)
  /-- `0x00`: `BRK`. -/
  | brk
  /-- `0x02`: `JAM`. -/
  | jam02
  /-- `0x08`: `PHP`. -/
  | php
  /-- `0x0A`: `ASL A`. -/
  | aslAcc
  /-- `0x12`: `JAM`. -/
  | jam12
  /-- `0x18`: `CLC`. -/
  | clc
  /-- `0x1A`: `NOP`. -/
  | nop1A
  /-- `0x22`: `JAM`. -/
  | jam22
  /-- `0x28`: `PLP`. -/
  | plp
  /-- `0x2A`: `ROL A`. -/
  | rolAcc
  /-- `0x32`: `JAM`. -/
  | jam32
  /-- `0x38`: `SEC`. -/
  | sec
  /-- `0x3A`: `NOP`. -/
  | nop3A
  /-- `0x40`: `RTI`. -/
  | rti
  /-- `0x42`: `JAM`. -/
  | jam42
  /-- `0x48`: `PHA`. -/
  | pha
  /-- `0x4A`: `LSR A`. -/
  | lsrAcc
  /-- `0x52`: `JAM`. -/
  | jam52
  /-- `0x58`: `CLI`. -/
  | cli
  /-- `0x5A`: `NOP`. -/
  | nop5A
  /-- `0x60`: `RTS`. -/
  | rts
  /-- `0x62`: `JAM`. -/
  | jam62
  /-- `0x68`: `PLA`. -/
  | pla
  /-- `0x6A`: `ROR A`. -/
  | rorAcc
  /-- `0x72`: `JAM`. -/
  | jam72
  /-- `0x78`: `SEI`. -/
  | sei
  /-- `0x7A`: `NOP`. -/
  | nop7A
  /-- `0x88`: `DEY`. -/
  | dey
  /-- `0x8A`: `TXA`. -/
  | txa
  /-- `0x92`: `JAM`. -/
  | jam92
  /-- `0x98`: `TYA`. -/
  | tya
  /-- `0x9A`: `TXS`. -/
  | txs
  /-- `0xA8`: `TAY`. -/
  | tay
  /-- `0xAA`: `TAX`. -/
  | tax
  /-- `0xB2`: `JAM`. -/
  | jamB2
  /-- `0xB8`: `CLV`. -/
  | clv
  /-- `0xBA`: `TSX`. -/
  | tsx
  /-- `0xC8`: `INY`. -/
  | iny
  /-- `0xCA`: `DEX`. -/
  | dex
  /-- `0xD2`: `JAM`. -/
  | jamD2
  /-- `0xD8`: `CLD`. -/
  | cld
  /-- `0xDA`: `NOP`. -/
  | nopDA
  /-- `0xE8`: `INX`. -/
  | inx
  /-- `0xEA`: `NOP`. -/
  | nop
  /-- `0xF2`: `JAM`. -/
  | jamF2
  /-- `0xF8`: `SED`. -/
  | sed
  /-- `0xFA`: `NOP`. -/
  | nopFA
  deriving DecidableEq, Repr

end Sys2Proof
end

