-- ==== Sys2Proof/WellFormed.lean ====
section
/-!
DEFINITION. When a term of the syntax, and an address range, is well formed.
-/

namespace Sys2Proof

/-- Every instruction is well formed: there is no reserved opcode byte (spec/30_encoding.md R96) and no operand value that
any rule excludes, and the type of each operand has exactly the width its format gives it (R91). -/
def Instr.wf (_ : Instr) : Bool := true

/-- The invariant of an AddressRange (spec/20_memory.md R50): `0 ≤ start ≤ 65535`, `0 ≤ size ≤ 65536`,
`start + size ≤ 65536`. -/
def Machine.AddressRange.wf (r : Machine.AddressRange) : Bool :=
  decide (r.start ≤ 65535) && decide (r.size ≤ 65536) && decide (r.start + r.size ≤ 65536)

end Sys2Proof
end

