-- ==== Sys2Proof/Machine/Bus.lean ====
section
/-!
DEFINITION. The bus dispatcher (spec/20_memory.md): which region answers an address, the bus-level read and write, the
diagnostic read, mapping, and the word forms.
-/

namespace Sys2Proof.Machine

/-- An address lies in a range (R50). -/
def AddressRange.holds (r : AddressRange) (a : Addr) : Bool :=
  decide (r.start ≤ a.toNat) && decide (a.toNat < r.start + r.size)

/-- `r.contains(q)` (R50). -/
def AddressRange.contains (r q : AddressRange) : Bool :=
  decide (r.start ≤ q.start) && decide (q.start + q.size ≤ r.start + r.size)

/-- The kind of a region (R51). -/
def Region.kind (r : Region) : RegionKind := r.backing.kind

/-- The offset of an address in a region: accesses are relative to `range.start` (R51). -/
def Region.offset (r : Region) (a : Addr) : Nat := a.toNat - r.range.start

/-- Storage of `size` bytes is in canonical form. -/
def Backing.wf (size : Nat) : Backing → Bool
  | .ram m => m.wf && m.within size
  | .rom m => m.wf && m.within size
  | .io _ => true

/-- A region's range is valid (R50) and its storage canonical and inside it. -/
def Region.wf (r : Region) : Bool := r.range.wf && r.backing.wf r.range.size

/-- The region with an identifier, of a region list. -/
def lookupRegion (regions : List Region) (i : Nat) : Option Region :=
  regions.find? fun r => decide (r.id = i)

/-- The first region, in an order of identifiers, whose range holds the address. -/
def dispatchIn (regions : List Region) : List Nat → Addr → Option Region
  | [], _ => none
  | i :: order, a =>
    match lookupRegion regions i with
    | some r => if r.range.holds a then some r else dispatchIn regions order a
    | none => dispatchIn regions order a

/-- `dispatch[a]` (R55): the region mapped last over the address, or nothing (R56; log entry 5). -/
def State.responsible (s : State) (a : Addr) : Option Region := dispatchIn s.regions s.mapOrder a

/-- A region with its storage replaced, if it has this identifier. -/
def Region.replaced (i : Nat) (b : Backing) (r : Region) : Region := if r.id = i then { r with backing := b } else r

/-- The region list with one region's storage replaced. -/
def replaceBacking (regions : List Region) (i : Nat) (b : Backing) : List Region := regions.map (Region.replaced i b)

/-- The state with the storage of one region replaced. -/
def State.setBacking (s : State) (i : Nat) (b : Backing) : State :=
  { s with regions := replaceBacking s.regions i b }

/-- The mapping order after the region with this identifier is mapped (R56): it now answers for all of its range. -/
def bringToFront (i : Nat) (order : List Nat) : List Nat := i :: order.filter fun j => decide (j ≠ i)

/-- Remapping a region that is in the list already (R56); an identifier no region has maps nothing. -/
def State.remap (s : State) (i : Nat) : State :=
  match lookupRegion s.regions i with
  | some _ => { s with mapOrder := bringToFront i s.mapOrder }
  | none => s

/-- `map(region)` (R56): the region answers for its whole range; it joins the list if it is not there, and a region that is
there keeps its storage. Nothing else changes. A range that is not valid cannot be constructed (R50), so it maps nothing. -/
def State.mapRegion (s : State) (r : Region) : State :=
  match lookupRegion s.regions r.id with
  | some _ => s.remap r.id
  | none =>
    if r.wf then { s with regions := s.regions ++ [r], mapOrder := bringToFront r.id s.mapOrder } else s

/-- What a bus-level read answers, with the state after it: an IO region may change when it is read. -/
structure BusRead where
  val : Byte
  state : State

/-- `MemRead(a, 1)` (R60). -/
def memRead (s : State) (a : Addr) : Except Fault BusRead :=
  match s.responsible a with
  | none => .error (.addressDispatchGap a)
  | some r =>
    match r.backing with
    | .ram m => .ok { val := m.read (r.offset a), state := s }
    | .rom m => .ok { val := m.read (r.offset a), state := s }
    | .io h =>
      .ok
        { val := Config.ioRead r.id h (r.offset a)
          state := s.setBacking r.id (.io (.read (r.offset a) :: h)) }

/-- `MemWrite(a, 1, v)` (R61): RAM stores, ROM discards (R53), an IO region's write hook runs and may remap (R58). -/
def memWrite (s : State) (a : Addr) (v : Byte) : Except Fault State :=
  match s.responsible a with
  | none => .error (.addressDispatchGap a)
  | some r =>
    match r.backing with
    | .ram m => .ok (s.setBacking r.id (.ram (m.write (r.offset a) v)))
    | .rom _ => .ok s
    | .io h =>
      .ok
        ((Config.ioRemap r.id h (r.offset a) v).foldl State.remap
          (s.setBacking r.id (.io (.write (r.offset a) v :: h))))

/-- What a word read answers, with the state after it. -/
structure WordRead where
  val : Addr
  state : State

/-- `MemRead(a, 2)` (R62): the low byte first, the second address wrapping at the top of the address space. -/
def memReadWord (s : State) (a : Addr) : Except Fault WordRead := do
  let l ← memRead s a
  let h ← memRead l.state (a + 1)
  return { val := wordOf h.val l.val, state := h.state }

/-- `MemWrite(a, 2, v)` (R63): the low byte first. No instruction uses it. -/
def memWriteWord (s : State) (a v : Addr) : Except Fault State := do
  let s ← memWrite s a (lo v)
  memWrite s (a + 1) (hi v)

/-- `DiagRead(a)` (R64): the read with no side effects. No instruction uses it. -/
def diagRead (s : State) (a : Addr) : Except Fault Byte :=
  match s.responsible a with
  | none => .error (.addressDispatchGap a)
  | some r =>
    match r.backing with
    | .ram m => .ok (m.read (r.offset a))
    | .rom m => .ok (m.read (r.offset a))
    | .io h => .ok (Config.ioDiag r.id h (r.offset a))

/-- The host's placing of a byte of a RAM or ROM image (R53: "The host fills a ROM region's storage at construction; that
is not a bus-level write"); an address with neither takes nothing. -/
def State.place (s : State) (a : Addr) (v : Byte) : State :=
  match s.responsible a with
  | none => s
  | some r =>
    match r.backing with
    | .ram m => s.setBacking r.id (.ram (m.write (r.offset a) v))
    | .rom m => s.setBacking r.id (.rom (m.write (r.offset a) v))
    | .io _ => s

/-- The bus state is well formed: identifiers are not repeated, every region is well formed, and the mapping order names
regions of the list, none twice. -/
def State.busWf (s : State) : Bool :=
  decide (s.regions.map Region.id).Nodup && s.regions.all Region.wf && decide s.mapOrder.Nodup &&
    s.mapOrder.all fun i => (lookupRegion s.regions i).isSome

end Sys2Proof.Machine
end

