-- ==== Sys2Proof/Machine/Flags.lean ====
section
/-!
DEFINITION. The flags byte and every flag computation: spec/10_state.md R29 to R33, spec/43_arithmetic.md R160 to R162,
spec/46_compare.md R200, and the flags of the shifts and of the undocumented opcodes.
-/

namespace Sys2Proof.Machine

/-- A bit as a number. -/
def bit (b : Bool) : Nat := if b then 1 else 0

/-- `P_flags` (R31): `N<<7 | V<<6 | D<<3 | I<<2 | Z<<1 | C`. -/
def Flags.pack (p : Flags) : Byte :=
  BitVec.ofNat 8 (bit p.n * 128 + bit p.v * 64 + bit p.d * 8 + bit p.i * 4 + bit p.z * 2 + bit p.c)

/-- The byte `PHP` and `BRK` push: `P_flags | 0x30` (R31). -/
def Flags.softwareByte (p : Flags) : Byte := p.pack ||| 0x30

/-- The byte trap entry pushes for IRQ and NMI: `P_flags | 0x20` (R31). -/
def Flags.hardwareByte (p : Flags) : Byte := p.pack ||| 0x20

/-- `LoadP(b)` (R32): the six stored flags from a byte; its bits 5 and 4 are ignored. -/
def Flags.ofByte (b : Byte) : Flags :=
  { n := b.getLsbD 7, v := b.getLsbD 6, d := b.getLsbD 3, i := b.getLsbD 2, z := b.getLsbD 1, c := b.getLsbD 0 }

/-- `SetNZ(v)` (R33). -/
def Flags.setNZ (p : Flags) (v : Byte) : Flags := { p with z := v == 0, n := v.msb }

/-- A sum or difference: the byte, the carry and the overflow. -/
structure AddResult where
  r : Byte
  c : Bool
  v : Bool
  deriving DecidableEq, Repr

/-- `AddBinary(a, m, c)` (R160). -/
def addBinary (a m : Byte) (c : Bool) : AddResult :=
  let sum := a.toNat + m.toNat + bit c
  let c6 := ((a &&& 0x7F).toNat + (m &&& 0x7F).toNat + bit c).testBit 7
  { r := BitVec.ofNat 8 sum
    c := sum.testBit 8
    v := (!a.msb && !m.msb && c6) || (a.msb && m.msb && !c6) }

/-- A byte is packed BCD: each nibble is 0 to 9 (R161). -/
def validBcd (b : Byte) : Bool := decide (b.toNat % 16 ≤ 9) && decide (b.toNat / 16 ≤ 9)

/-- The number a packed-BCD byte stands for, `dec(b)` (R161). -/
def bcdValue (b : Byte) : Nat := b.toNat / 16 * 10 + b.toNat % 16

/-- A packed-BCD sum or difference: the byte and the carry. -/
structure DecimalResult where
  r : Byte
  c : Bool
  deriving DecidableEq, Repr

/-- A nibble sum after the correction of R161. -/
def correctUp (n : Nat) : Nat := if n > 9 then n + 6 else n

/-- `AddDecimal(a, m, c)` (R161), the spec's pseudocode. -/
def addDecimal (a m : Byte) (c : Bool) : DecimalResult :=
  let low := correctUp (a.toNat % 16 + m.toNat % 16 + bit c)
  let high := correctUp (a.toNat / 16 + m.toNat / 16 + bit (decide (low > 15)))
  { r := BitVec.ofNat 8 (high % 16 * 16 + low % 16), c := decide (high > 15) }

/-- A nibble difference after the correction of R162. -/
def correctDown (n : Int) : Int := if n < 0 then n - 6 else n

/-- `SubDecimal(a, m, c)` (R162), the spec's pseudocode; the remainder of a negative number by 16 is its value modulo 16. -/
def subDecimal (a m : Byte) (c : Bool) : DecimalResult :=
  let low : Int := (a.toNat % 16 : Nat) - (m.toNat % 16 : Nat) - (1 - bit c : Nat)
  let high : Int := (a.toNat / 16 : Nat) - (m.toNat / 16 : Nat) - bit (decide (low < 0))
  { r := BitVec.ofNat 8 ((correctDown high % 16).toNat * 16 + (correctDown low % 16).toNat), c := decide (0 ≤ high) }

/-- `Compare(r, m)` (R200): carry when `r ≥ m` as unsigned numbers, `Z` and `N` from the difference. -/
def Flags.compare (p : Flags) (r m : Byte) : Flags := { p with c := decide (m.toNat ≤ r.toNat) }.setNZ (r - m)

end Sys2Proof.Machine
end

