-- ==== Sys2Proof/Machine/Ops.lean ====
section
/-!
DEFINITION. The named operations over the register file and the stack, taking an exception and returning from it, reset,
and the interrupt check (spec/10_state.md, spec/60_exceptions.md, spec/70_reset_and_hazards.md).
-/

namespace Sys2Proof.Machine

/-- `PC` past the `n` bytes of an instruction; it wraps (R26). -/
def State.advance (s : State) (n : Nat) : State := { s with pc := s.pc + BitVec.ofNat 16 n }

/-- The flags replaced. -/
def State.withFlags (s : State) (p : Flags) : State := { s with p := p }

/-- `SetNZ(v)` on the machine (R33). -/
def State.setNZ (s : State) (v : Byte) : State := { s with p := s.p.setNZ v }

/-- The cost of an instruction added to `cycles`, and kept as the value the step returns (R97, R98). -/
def State.account (s : State) (cost : Nat) : State :=
  { s with cycles := s.cycles + BitVec.ofNat 64 cost, consumed := cost }

/-- `STACK_PAGE ++ SP` (R24). -/
def State.stackAddr (s : State) : Addr := wordOf s.params.stackPage s.sp

/-- `Push(v)` (R27): the write, then the decrement. -/
def push (s : State) (v : Byte) : Except Fault State := do
  let t ← memWrite s s.stackAddr v
  return { t with sp := t.sp - 1 }

/-- A word pushed high byte first (R234, R310). -/
def pushWord (s : State) (v : Addr) : Except Fault State := do
  let s ← push s (hi v)
  push s (lo v)

/-- `Pull()` (R28): the increment, then the read. -/
def pull (s : State) : Except Fault BusRead :=
  let t := { s with sp := s.sp + 1 }
  memRead t t.stackAddr

/-- A word pulled low byte first (R235, R236). -/
def pullWord (s : State) : Except Fault WordRead := do
  let l ← pull s
  let h ← pull l.state
  return { val := wordOf h.val l.val, state := h.state }

/-- The kinds of trap entry (R310). -/
inductive TrapKind where
  | nmi
  | irq
  | brk
  deriving DecidableEq, Repr

/-- `vector(kind)` (R310, R311): `BRK` and IRQ share one. -/
def vector (params : Config.Params) : TrapKind → Addr
  | .nmi => params.vecNmi
  | .irq => params.vecIrq
  | .brk => params.vecIrq

/-- The flags byte a trap entry pushes (R31): bit 4 is 1 for `BRK` only. -/
def trapByte (p : Flags) : TrapKind → Byte
  | .nmi => p.hardwareByte
  | .irq => p.hardwareByte
  | .brk => p.softwareByte

/-- The return address a trap entry pushes (R310): for `BRK`, entered with `PC` one past its opcode, the opcode's address
plus 2. -/
def trapReturn (pc : Addr) : TrapKind → Addr
  | .nmi => pc
  | .irq => pc
  | .brk => pc + 1

/-- The latency a trap entry adds to `cycles` (R310, R324): `BRK`'s 7 are its base cost. -/
def trapLatency : TrapKind → Nat
  | .nmi => 7
  | .irq => 7
  | .brk => 0

/-- `Trap(kind)` (R310): TAKING AN EXCEPTION. `PC` and the flags go to the stack, `I` is set, `PC` comes from the vector. -/
def trap (kind : TrapKind) (s : State) : Except Fault State := do
  let t ← pushWord s (trapReturn s.pc kind)
  let t ← push t (trapByte t.p kind)
  let t := t.withFlags { t.p with i := true }
  let v ← memReadWord t (vector t.params kind)
  return { v.state with pc := v.val, cycles := v.state.cycles + BitVec.ofNat 64 (trapLatency kind) }

/-- RETURN FROM AN EXCEPTION (R236, R313): the flags, then `PC`, low byte first, with no 1 added. -/
def returnFromTrap (s : State) : Except Fault State := do
  let f ← pull s
  let r ← pullWord (f.state.withFlags (Flags.ofByte f.val))
  return { r.state with pc := r.val }

/-- The flags of `Reset()` (R340): `I` is 1, the other five are `RESET_P`'s. -/
def resetFlags (params : Config.Params) : Flags :=
  { n := params.resetN, v := params.resetV, d := params.resetD, i := true, z := params.resetZ, c := params.resetC }

/-- The registers of `Reset()` (R340), all but `PC`. -/
def State.resetRegisters (s : State) : State :=
  { s with
    a := s.params.resetA
    x := s.params.resetX
    y := s.params.resetY
    sp := s.params.resetSp
    p := resetFlags s.params
    cycles := 0
    defined := .all
    pending := { reset := false, nmi := false, irq := false } }

/-- `Reset()` (R340): the registers, then `PC` from the reset vector. -/
def resetMachine (s : State) : Except Fault State := do
  let v ← memReadWord s.resetRegisters s.params.vecReset
  return { v.state with pc := v.val }

/-- The state with another pending set. -/
def State.withPending (s : State) (q : Pending) : State := { s with pending := q }

/-- A pending IRQ as the check finds it (R306, R308): taken when `I` is clear, else kept or dropped. -/
def checkIrq (s : State) : Except Fault State :=
  if s.p.i then
    match s.params.irqMasked with
    | .keep => .ok s
    | .drop => .ok (s.withPending { s.pending with irq := false })
  else trap .irq (s.withPending { s.pending with irq := false })

/-- `InterruptCheck()` (R306, R307): at most one request is serviced, RESET over NMI over IRQ. -/
def interruptCheck (s : State) : Except Fault State :=
  if s.pending.reset then resetMachine (s.withPending { s.pending with reset := false })
  else if s.pending.nmi then trap .nmi (s.withPending { s.pending with nmi := false })
  else if s.pending.irq then checkIrq s
  else .ok s

end Sys2Proof.Machine
end

