-- ==== Sys2Proof/Machine/Operands.lean ====
section
/-!
DEFINITION. The addressing-mode resolver (spec/40_addressing_modes.md) and the shapes an instruction takes: each shape is
`ExecuteInstruction()` of spec/30_encoding.md R97 for one kind of handler. A shape is entered with `PC` at the opcode and
with the operand bytes in hand (log entry 10).
-/

namespace Sys2Proof.Machine

/-- An operand that is a byte of memory: the addressing mode with its operand byte or its assembled operand word (R92, R93,
R113 to R115, R117 to R119, R121, R122). -/
inductive MemOperand where
  | zp (b : Byte)
  | zpx (b : Byte)
  | zpy (b : Byte)
  | abs (w : Addr)
  | abx (w : Addr)
  | aby (w : Addr)
  | izx (b : Byte)
  | izy (b : Byte)
  deriving DecidableEq, Repr

/-- The length of an instruction with such an operand: the opcode and the mode's operand bytes (R90, R92). -/
def MemOperand.len : MemOperand → Nat
  | .zp _ => 2
  | .zpx _ => 2
  | .zpy _ => 2
  | .abs _ => 3
  | .abx _ => 3
  | .aby _ => 3
  | .izx _ => 2
  | .izy _ => 2

/-- What the resolver answers (R110): the effective address, whether indexing crossed a page, and the state after the
pointer bytes are read. -/
structure Resolved where
  ea : Addr
  crossed : Bool
  state : State

/-- `base + index` (R118, R119, R122): the index is unsigned, the sum wraps at 16 bits, and a change of the high byte is a
page crossing. -/
def indexed (base : Addr) (index : Byte) (s : State) : Resolved :=
  { ea := base + zext16 index, crossed := hi (base + zext16 index) != hi base, state := s }

/-- A pointer from page 0, whose second byte is also in page 0 (R121, R122). -/
def zeroPagePointer (s : State) (b : Byte) : Except Fault WordRead := do
  let l ← memRead s (zeroPage b)
  let h ← memRead l.state (zeroPage (b + 1))
  return { val := wordOf h.val l.val, state := h.state }

/-- `Resolve(mode)` for a memory operand (R113 to R115, R117 to R119, R121, R122). -/
def effAddr (o : MemOperand) (s : State) : Except Fault Resolved :=
  match o with
  | .zp b => .ok { ea := zeroPage b, crossed := false, state := s }
  | .zpx b => .ok { ea := zeroPage (b + s.x), crossed := false, state := s }
  | .zpy b => .ok { ea := zeroPage (b + s.y), crossed := false, state := s }
  | .abs w => .ok { ea := w, crossed := false, state := s }
  | .abx w => .ok (indexed w s.x s)
  | .aby w => .ok (indexed w s.y s)
  | .izx b => do
    let p ← zeroPagePointer s (b + s.x)
    return { ea := p.val, crossed := false, state := p.state }
  | .izy b => do
    let p ← zeroPagePointer s b
    return indexed p.val s.y p.state

/-- The target of `JMP ($nnnn)` (R120): the high byte comes from the start of the same page when the pointer's low byte is
0xFF. -/
def indirectTarget (s : State) (w : Addr) : Except Fault WordRead := do
  let l ← memRead s w
  let h ← memRead l.state (wordOf (hi w) (lo w + 1))
  return { val := wordOf h.val l.val, state := h.state }

/-- An operand that is read: the literal byte (R112), or a byte of memory. -/
inductive Src where
  | imm (b : Byte)
  | mem (o : MemOperand)
  deriving DecidableEq, Repr

/-- The length of an instruction with such an operand (R92). -/
def Src.len : Src → Nat
  | .imm _ => 2
  | .mem o => o.len

/-- An operand byte as `Load(loc)` gives it (R11, R124), with the resolver's report. -/
structure OperandRead where
  val : Byte
  crossed : Bool
  state : State

/-- The resolver and then `Load(loc)` (R11, R110, R124): the operand is read once. -/
def readSrc (src : Src) (s : State) : Except Fault OperandRead :=
  match src with
  | .imm b => .ok { val := b, crossed := false, state := s }
  | .mem o => do
    let r ← effAddr o s
    let b ← memRead r.state r.ea
    return { val := b.val, crossed := r.crossed, state := b.state }

/-- The cost of an instruction that is no branch (R98). -/
def cost (cyc : Nat) (pp crossed : Bool) : Nat := cyc + bit (pp && crossed)

/-- The outcome of an instruction: the next state, or the fault that stopped it. -/
def finish (r : Except Fault State) : Host.Outcome State Fault Refusal :=
  match r with
  | .ok s => .next s
  | .error f => .fault f

/-- A one-byte instruction whose handler makes no bus access (R111). -/
def runImplied (cyc : Nat) (f : State → State) (s : State) : Host.Outcome State Fault Refusal :=
  finish (.ok ((f (s.advance 1)).account cyc))

/-- A one-byte instruction whose handler uses the bus: the stack and the vectors (R111). -/
def runStack (cyc : Nat) (f : State → Except Fault State) (s : State) : Host.Outcome State Fault Refusal :=
  finish do
    let t ← f (s.advance 1)
    return t.account cyc

/-- A handler that reads its operand once; `op` is what it does with the byte. -/
def runRead (src : Src) (cyc : Nat) (pp : Bool) (op : Byte → State → State) (s : State) :
    Host.Outcome State Fault Refusal :=
  finish do
    let r ← readSrc src (s.advance src.len)
    return (op r.val r.state).account (cost cyc pp r.crossed)

/-- Two handlers in sequence against one resolved address, each reading the operand (R260, R267). -/
def runReadTwice (o : MemOperand) (cyc : Nat) (pp : Bool) (first second : Byte → State → State)
    (s : State) : Host.Outcome State Fault Refusal :=
  finish do
    let r ← effAddr o (s.advance o.len)
    let b ← memRead r.state r.ea
    let c ← memRead (first b.val b.state) r.ea
    return (second c.val c.state).account (cost cyc pp r.crossed)

/-- A handler that writes its operand once and does not read it (R124); `val` is the byte it stores. -/
def runStore (o : MemOperand) (cyc : Nat) (val : State → Byte) (s : State) :
    Host.Outcome State Fault Refusal :=
  finish do
    let r ← effAddr o (s.advance o.len)
    let t ← memWrite r.state r.ea (val r.state)
    return t.account (cost cyc false r.crossed)

/-- What a read-modify-write instruction makes of its operand: the new byte and the flags, from the old byte and the flags
before. -/
abbrev Modify := Byte → Flags → Byte × Flags

/-- `RMW(Mem(ea), f)` with the flags that follow it (R180): read, write back the old byte, write the new one. -/
def modifyMem (f : Modify) (ea : Addr) (s : State) : Except Fault State := do
  let old ← memRead s ea
  let t ← memWrite old.state ea old.val
  let u ← memWrite t ea (f old.val s.p).1
  return u.withFlags (f old.val s.p).2

/-- `RMW(Acc, f)` with the flags that follow it (R180): no bus access. -/
def modifyAcc (f : Modify) (s : State) : State := { s with a := (f s.a s.p).1, p := (f s.a s.p).2 }

/-- A read-modify-write instruction on memory (R180). -/
def runModify (o : MemOperand) (cyc : Nat) (f : Modify) (s : State) : Host.Outcome State Fault Refusal :=
  finish do
    let r ← effAddr o (s.advance o.len)
    let t ← modifyMem f r.ea r.state
    return t.account (cost cyc false r.crossed)

/-- A read-modify-write handler and then a reading one, against one resolved address: the second reads the operand again
(R260). -/
def runModifyRead (o : MemOperand) (cyc : Nat) (f : Modify) (op : Byte → State → State) (s : State) :
    Host.Outcome State Fault Refusal :=
  finish do
    let r ← effAddr o (s.advance o.len)
    let t ← modifyMem f r.ea r.state
    let b ← memRead t r.ea
    return (op b.val b.state).account (cost cyc false r.crossed)

/-- Where a taken branch goes (R210): the address of the next instruction plus the signed offset; it wraps. -/
def branchTarget (e : Addr) (off : Byte) : Addr := e + sext16 off

/-- The cost of a branch (R98, R210): 2, 1 more if taken, 1 more if the target lies on another page than the next
instruction. -/
def branchCost (taken : Bool) (e : Addr) (off : Byte) : Nat :=
  2 + bit taken + bit (taken && hi (branchTarget e off) != hi e)

/-- `Branch(cond, Rel(off))` (R116, R210). -/
def runBranch (cond : Flags → Bool) (off : Byte) (s : State) : Host.Outcome State Fault Refusal :=
  let t := s.advance 2
  finish (.ok
    ({ t with pc := if cond t.p then branchTarget t.pc off else t.pc }.account (branchCost (cond t.p) t.pc off)))

/-- A jump to an absolute address (R237). -/
def runJump (w : Addr) (cyc : Nat) (s : State) : Host.Outcome State Fault Refusal :=
  finish (.ok ({ s.advance 3 with pc := w }.account cyc))

/-- A jump through a pointer (R120, R237). -/
def runJumpIndirect (w : Addr) (cyc : Nat) (s : State) : Host.Outcome State Fault Refusal :=
  finish do
    let t ← indirectTarget (s.advance 3) w
    return { t.state with pc := t.val }.account cyc

/-- A call (R234): the return address minus 1 is pushed high byte first; both operand bytes were read before. -/
def runCall (w : Addr) (cyc : Nat) (s : State) : Host.Outcome State Fault Refusal :=
  finish do
    let t := s.advance 3
    let u ← pushWord t (t.pc - 1)
    return { u with pc := w }.account cyc

/-- The byte an unstable store writes, and the address it writes it to (R279): `v` is the register value ANDed with the high
byte of the base plus 1; on a page crossing the byte replaces the address's high byte. -/
def unstableStore (v : Byte) (ea : Addr) (crossed : Bool) : Byte × Addr :=
  let hb := hi ea - BitVec.ofNat 8 (bit crossed)
  let b := v &&& (hb + 1)
  (b, if crossed then wordOf b (lo ea) else ea)

/-- The unstable stores (R279 to R282): `before` is what the instruction does first, `val` the register value. -/
def runUnstableStore (o : MemOperand) (cyc : Nat) (before : State → State) (val : State → Byte) (s : State) :
    Host.Outcome State Fault Refusal :=
  finish do
    let r ← effAddr o (s.advance o.len)
    let t := before r.state
    let u ← memWrite t (unstableStore (val t) r.ea r.crossed).2 (unstableStore (val t) r.ea r.crossed).1
    return u.account (cost cyc false r.crossed)

/-- `UNSTABLE_POLICY` (R97, R283): under `refuse` the opcode has no meaning and `PC` stays at it; under `execute` it runs. -/
def underPolicy (opcode : Byte) (run : State → Host.Outcome State Fault Refusal) (s : State) :
    Host.Outcome State Fault Refusal :=
  match s.params.unstable with
  | .refuse => .refused (.unstableOpcode opcode s.pc)
  | .execute => run s

/-- A halt opcode (R276, R300): the engine stops and reports the opcode and its address. -/
def runHalt (opcode : Byte) (s : State) : Host.Outcome State Fault Refusal := .fault (.invalidOpcode opcode s.pc)

end Sys2Proof.Machine
end

