-- ==== Sys2Proof/Machine/Branch.lean ====
section
/-!
DEFINITION. Conditional branches (spec/47_branch.md R211 to R218); `b` is the offset byte.
-/

namespace Sys2Proof.Machine

/-- `BPL $rr` (R211): opcode `0x10`. -/
def execBpl (b : Byte) (s : State) : Host.Outcome State Fault Refusal :=
  runBranch (fun p => !p.n) b s

/-- `BMI $rr` (R212): opcode `0x30`. -/
def execBmi (b : Byte) (s : State) : Host.Outcome State Fault Refusal :=
  runBranch (fun p => p.n) b s

/-- `BVC $rr` (R213): opcode `0x50`. -/
def execBvc (b : Byte) (s : State) : Host.Outcome State Fault Refusal :=
  runBranch (fun p => !p.v) b s

/-- `BVS $rr` (R214): opcode `0x70`. -/
def execBvs (b : Byte) (s : State) : Host.Outcome State Fault Refusal :=
  runBranch (fun p => p.v) b s

/-- `BCC $rr` (R215): opcode `0x90`. -/
def execBcc (b : Byte) (s : State) : Host.Outcome State Fault Refusal :=
  runBranch (fun p => !p.c) b s

/-- `BCS $rr` (R216): opcode `0xB0`. -/
def execBcs (b : Byte) (s : State) : Host.Outcome State Fault Refusal :=
  runBranch (fun p => p.c) b s

/-- `BNE $rr` (R217): opcode `0xD0`. -/
def execBne (b : Byte) (s : State) : Host.Outcome State Fault Refusal :=
  runBranch (fun p => !p.z) b s

/-- `BEQ $rr` (R218): opcode `0xF0`. -/
def execBeq (b : Byte) (s : State) : Host.Outcome State Fault Refusal :=
  runBranch (fun p => p.z) b s

end Sys2Proof.Machine
end

