-- ==== Sys2Proof/Machine/StackFlagsJumps.lean ====
section
/-!
DEFINITION. Stack, subroutine, jump, system and flag instructions (spec/48_stack_flags_jumps.md R230 to R246).
-/

namespace Sys2Proof.Machine

/-- `PHA` (R230). -/
def stPha (s : State) : Except Fault State := push s s.a

/-- `PLA` (R231): a pull sets `Z` and `N` like a load. -/
def stPla (s : State) : Except Fault State := do
  let v ← pull s
  return { v.state with a := v.val }.setNZ v.val

/-- `PHP` (R232): bits 5 and 4 of the pushed byte are 1. -/
def stPhp (s : State) : Except Fault State := push s s.p.softwareByte

/-- `PLP` (R233). -/
def stPlp (s : State) : Except Fault State := do
  let v ← pull s
  return v.state.withFlags (Flags.ofByte v.val)

/-- `RTS` (R235): the address pulled, plus 1. -/
def stRts (s : State) : Except Fault State := do
  let r ← pullWord s
  return { r.state with pc := r.val + 1 }

/-- `CLC` (R239). -/
def opClc (s : State) : State := s.withFlags { s.p with c := false }

/-- `SEC` (R240). -/
def opSec (s : State) : State := s.withFlags { s.p with c := true }

/-- `CLI` (R241). -/
def opCli (s : State) : State := s.withFlags { s.p with i := false }

/-- `SEI` (R242). -/
def opSei (s : State) : State := s.withFlags { s.p with i := true }

/-- `CLV` (R243). -/
def opClv (s : State) : State := s.withFlags { s.p with v := false }

/-- `CLD` (R244). -/
def opCld (s : State) : State := s.withFlags { s.p with d := false }

/-- `SED` (R245). -/
def opSed (s : State) : State := s.withFlags { s.p with d := true }

/-- `BRK` (R238): opcode `0x00`. -/
def execBrk (s : State) : Host.Outcome State Fault Refusal :=
  runStack 7 (trap .brk) s

/-- `PHP` (R232): opcode `0x08`. -/
def execPhp (s : State) : Host.Outcome State Fault Refusal :=
  runStack 3 stPhp s

/-- `CLC` (R239): opcode `0x18`. -/
def execClc (s : State) : Host.Outcome State Fault Refusal :=
  runImplied 2 opClc s

/-- `JSR $nnnn` (R234): opcode `0x20`. -/
def execJsrAbs (w : Addr) (s : State) : Host.Outcome State Fault Refusal :=
  runCall w 6 s

/-- `PLP` (R233): opcode `0x28`. -/
def execPlp (s : State) : Host.Outcome State Fault Refusal :=
  runStack 4 stPlp s

/-- `SEC` (R240): opcode `0x38`. -/
def execSec (s : State) : Host.Outcome State Fault Refusal :=
  runImplied 2 opSec s

/-- `RTI` (R236): opcode `0x40`. -/
def execRti (s : State) : Host.Outcome State Fault Refusal :=
  runStack 6 returnFromTrap s

/-- `PHA` (R230): opcode `0x48`. -/
def execPha (s : State) : Host.Outcome State Fault Refusal :=
  runStack 3 stPha s

/-- `JMP $nnnn` (R237): opcode `0x4C`. -/
def execJmpAbs (w : Addr) (s : State) : Host.Outcome State Fault Refusal :=
  runJump w 3 s

/-- `CLI` (R241): opcode `0x58`. -/
def execCli (s : State) : Host.Outcome State Fault Refusal :=
  runImplied 2 opCli s

/-- `RTS` (R235): opcode `0x60`. -/
def execRts (s : State) : Host.Outcome State Fault Refusal :=
  runStack 6 stRts s

/-- `PLA` (R231): opcode `0x68`. -/
def execPla (s : State) : Host.Outcome State Fault Refusal :=
  runStack 4 stPla s

/-- `JMP ($nnnn)` (R237): opcode `0x6C`. -/
def execJmpInd (w : Addr) (s : State) : Host.Outcome State Fault Refusal :=
  runJumpIndirect w 5 s

/-- `SEI` (R242): opcode `0x78`. -/
def execSei (s : State) : Host.Outcome State Fault Refusal :=
  runImplied 2 opSei s

/-- `CLV` (R243): opcode `0xB8`. -/
def execClv (s : State) : Host.Outcome State Fault Refusal :=
  runImplied 2 opClv s

/-- `CLD` (R244): opcode `0xD8`. -/
def execCld (s : State) : Host.Outcome State Fault Refusal :=
  runImplied 2 opCld s

/-- `SED` (R245): opcode `0xF8`. -/
def execSed (s : State) : Host.Outcome State Fault Refusal :=
  runImplied 2 opSed s

end Sys2Proof.Machine
end

