-- ==== Sys2Proof/Machine/Arithmetic.lean ====
section
/-!
DEFINITION. `ADC` and `SBC`, binary and packed BCD (spec/43_arithmetic.md R163, R164; the undocumented twin of R273).
-/

namespace Sys2Proof.Machine

/-- The end of a binary sum or difference (R163, R164): `A`, `C`, `V`, and `Z` and `N` from the result. -/
def putBinary (r : AddResult) (s : State) : State :=
  { s with a := r.r, p := { s.p with c := r.c, v := r.v }.setNZ r.r }

/-- The end of a decimal sum or difference (R163, R164): `V` is a free value (U2). When an operand has a nibble above 9 the
result byte and `C` are free values too (U3), and `Z` and `N` follow the result byte. One draw of log entry 3. -/
def putDecimal (m : Byte) (r : DecimalResult) (s : State) : State :=
  let out : DecimalResult :=
    if validBcd s.a && validBcd m then r
    else { r := Config.freeDecimalByte s.draws, c := Config.freeDecimalCarry s.draws }
  { s with
    a := out.r
    p := { s.p with c := out.c, v := Config.freeV s.draws }.setNZ out.r
    draws := s.draws + 1 }

/-- What `ADC` does with its operand (R163). -/
def opAdc (m : Byte) (s : State) : State :=
  if s.p.d then putDecimal m (addDecimal s.a m s.p.c) s else putBinary (addBinary s.a m s.p.c) s

/-- What `SBC` does with its operand (R164): the binary path adds the complement. -/
def opSbc (m : Byte) (s : State) : State :=
  if s.p.d then putDecimal m (subDecimal s.a m s.p.c) s else putBinary (addBinary s.a (m ^^^ 0xFF) s.p.c) s

/-- `ADC ($nn,X)` (R163): opcode `0x61`. -/
def execAdcIzx (b : Byte) (s : State) : Host.Outcome State Fault Refusal :=
  runRead (.mem (.izx b)) 6 false opAdc s

/-- `ADC $nn` (R163): opcode `0x65`. -/
def execAdcZp (b : Byte) (s : State) : Host.Outcome State Fault Refusal :=
  runRead (.mem (.zp b)) 3 false opAdc s

/-- `ADC #$nn` (R163): opcode `0x69`. -/
def execAdcImm (b : Byte) (s : State) : Host.Outcome State Fault Refusal :=
  runRead (.imm b) 2 false opAdc s

/-- `ADC $nnnn` (R163): opcode `0x6D`. -/
def execAdcAbs (w : Addr) (s : State) : Host.Outcome State Fault Refusal :=
  runRead (.mem (.abs w)) 4 false opAdc s

/-- `ADC ($nn),Y` (R163): opcode `0x71`. -/
def execAdcIzy (b : Byte) (s : State) : Host.Outcome State Fault Refusal :=
  runRead (.mem (.izy b)) 5 true opAdc s

/-- `ADC $nn,X` (R163): opcode `0x75`. -/
def execAdcZpx (b : Byte) (s : State) : Host.Outcome State Fault Refusal :=
  runRead (.mem (.zpx b)) 4 false opAdc s

/-- `ADC $nnnn,Y` (R163): opcode `0x79`. -/
def execAdcAby (w : Addr) (s : State) : Host.Outcome State Fault Refusal :=
  runRead (.mem (.aby w)) 4 true opAdc s

/-- `ADC $nnnn,X` (R163): opcode `0x7D`. -/
def execAdcAbx (w : Addr) (s : State) : Host.Outcome State Fault Refusal :=
  runRead (.mem (.abx w)) 4 true opAdc s

/-- `SBC ($nn,X)` (R164): opcode `0xE1`. -/
def execSbcIzx (b : Byte) (s : State) : Host.Outcome State Fault Refusal :=
  runRead (.mem (.izx b)) 6 false opSbc s

/-- `SBC $nn` (R164): opcode `0xE5`. -/
def execSbcZp (b : Byte) (s : State) : Host.Outcome State Fault Refusal :=
  runRead (.mem (.zp b)) 3 false opSbc s

/-- `SBC #$nn` (R164): opcode `0xE9`. -/
def execSbcImm (b : Byte) (s : State) : Host.Outcome State Fault Refusal :=
  runRead (.imm b) 2 false opSbc s

/-- `SBC #$nn` (R273): opcode `0xEB`. -/
def execSbcImmEB (b : Byte) (s : State) : Host.Outcome State Fault Refusal :=
  runRead (.imm b) 2 false opSbc s

/-- `SBC $nnnn` (R164): opcode `0xED`. -/
def execSbcAbs (w : Addr) (s : State) : Host.Outcome State Fault Refusal :=
  runRead (.mem (.abs w)) 4 false opSbc s

/-- `SBC ($nn),Y` (R164): opcode `0xF1`. -/
def execSbcIzy (b : Byte) (s : State) : Host.Outcome State Fault Refusal :=
  runRead (.mem (.izy b)) 5 true opSbc s

/-- `SBC $nn,X` (R164): opcode `0xF5`. -/
def execSbcZpx (b : Byte) (s : State) : Host.Outcome State Fault Refusal :=
  runRead (.mem (.zpx b)) 4 false opSbc s

/-- `SBC $nnnn,Y` (R164): opcode `0xF9`. -/
def execSbcAby (w : Addr) (s : State) : Host.Outcome State Fault Refusal :=
  runRead (.mem (.aby w)) 4 true opSbc s

/-- `SBC $nnnn,X` (R164): opcode `0xFD`. -/
def execSbcAbx (w : Addr) (s : State) : Host.Outcome State Fault Refusal :=
  runRead (.mem (.abx w)) 4 true opSbc s

end Sys2Proof.Machine
end

