-- ==== Sys2Proof/Machine/Compare.lean ====
section
/-!
DEFINITION. Compares (spec/46_compare.md R201 to R203).
-/

namespace Sys2Proof.Machine

/-- What `CMP` does with its operand (R201). -/
def opCmp (m : Byte) (s : State) : State := s.withFlags (s.p.compare s.a m)

/-- What `CPX` does with its operand (R202). -/
def opCpx (m : Byte) (s : State) : State := s.withFlags (s.p.compare s.x m)

/-- What `CPY` does with its operand (R203). -/
def opCpy (m : Byte) (s : State) : State := s.withFlags (s.p.compare s.y m)

/-- `CPY #$nn` (R203): opcode `0xC0`. -/
def execCpyImm (b : Byte) (s : State) : Host.Outcome State Fault Refusal :=
  runRead (.imm b) 2 false opCpy s

/-- `CMP ($nn,X)` (R201): opcode `0xC1`. -/
def execCmpIzx (b : Byte) (s : State) : Host.Outcome State Fault Refusal :=
  runRead (.mem (.izx b)) 6 false opCmp s

/-- `CPY $nn` (R203): opcode `0xC4`. -/
def execCpyZp (b : Byte) (s : State) : Host.Outcome State Fault Refusal :=
  runRead (.mem (.zp b)) 3 false opCpy s

/-- `CMP $nn` (R201): opcode `0xC5`. -/
def execCmpZp (b : Byte) (s : State) : Host.Outcome State Fault Refusal :=
  runRead (.mem (.zp b)) 3 false opCmp s

/-- `CMP #$nn` (R201): opcode `0xC9`. -/
def execCmpImm (b : Byte) (s : State) : Host.Outcome State Fault Refusal :=
  runRead (.imm b) 2 false opCmp s

/-- `CPY $nnnn` (R203): opcode `0xCC`. -/
def execCpyAbs (w : Addr) (s : State) : Host.Outcome State Fault Refusal :=
  runRead (.mem (.abs w)) 4 false opCpy s

/-- `CMP $nnnn` (R201): opcode `0xCD`. -/
def execCmpAbs (w : Addr) (s : State) : Host.Outcome State Fault Refusal :=
  runRead (.mem (.abs w)) 4 false opCmp s

/-- `CMP ($nn),Y` (R201): opcode `0xD1`. -/
def execCmpIzy (b : Byte) (s : State) : Host.Outcome State Fault Refusal :=
  runRead (.mem (.izy b)) 5 true opCmp s

/-- `CMP $nn,X` (R201): opcode `0xD5`. -/
def execCmpZpx (b : Byte) (s : State) : Host.Outcome State Fault Refusal :=
  runRead (.mem (.zpx b)) 4 false opCmp s

/-- `CMP $nnnn,Y` (R201): opcode `0xD9`. -/
def execCmpAby (w : Addr) (s : State) : Host.Outcome State Fault Refusal :=
  runRead (.mem (.aby w)) 4 true opCmp s

/-- `CMP $nnnn,X` (R201): opcode `0xDD`. -/
def execCmpAbx (w : Addr) (s : State) : Host.Outcome State Fault Refusal :=
  runRead (.mem (.abx w)) 4 true opCmp s

/-- `CPX #$nn` (R202): opcode `0xE0`. -/
def execCpxImm (b : Byte) (s : State) : Host.Outcome State Fault Refusal :=
  runRead (.imm b) 2 false opCpx s

/-- `CPX $nn` (R202): opcode `0xE4`. -/
def execCpxZp (b : Byte) (s : State) : Host.Outcome State Fault Refusal :=
  runRead (.mem (.zp b)) 3 false opCpx s

/-- `CPX $nnnn` (R202): opcode `0xEC`. -/
def execCpxAbs (w : Addr) (s : State) : Host.Outcome State Fault Refusal :=
  runRead (.mem (.abs w)) 4 false opCpx s

end Sys2Proof.Machine
end

