-- ==== Sys2Proof/Machine/LoadTransfer.lean ====
section
/-!
DEFINITION. Loads and register transfers (spec/41_load_transfer.md R130 to R138).
-/

namespace Sys2Proof.Machine

/-- What `LDA` does with its operand (R130). -/
def opLda (v : Byte) (s : State) : State := { s with a := v }.setNZ v

/-- What `LDX` does with its operand (R131). -/
def opLdx (v : Byte) (s : State) : State := { s with x := v }.setNZ v

/-- What `LDY` does with its operand (R132). -/
def opLdy (v : Byte) (s : State) : State := { s with y := v }.setNZ v

/-- `TAX` (R133). -/
def opTax (s : State) : State := { s with x := s.a }.setNZ s.a

/-- `TAY` (R134). -/
def opTay (s : State) : State := { s with y := s.a }.setNZ s.a

/-- `TXA` (R135). -/
def opTxa (s : State) : State := { s with a := s.x }.setNZ s.x

/-- `TYA` (R136). -/
def opTya (s : State) : State := { s with a := s.y }.setNZ s.y

/-- `TSX` (R137). -/
def opTsx (s : State) : State := { s with x := s.sp }.setNZ s.sp

/-- `TXS` (R138): no flag. -/
def opTxs (s : State) : State := { s with sp := s.x }

/-- `TXA` (R135): opcode `0x8A`. -/
def execTxa (s : State) : Host.Outcome State Fault Refusal :=
  runImplied 2 opTxa s

/-- `TYA` (R136): opcode `0x98`. -/
def execTya (s : State) : Host.Outcome State Fault Refusal :=
  runImplied 2 opTya s

/-- `TXS` (R138): opcode `0x9A`. -/
def execTxs (s : State) : Host.Outcome State Fault Refusal :=
  runImplied 2 opTxs s

/-- `LDY #$nn` (R132): opcode `0xA0`. -/
def execLdyImm (b : Byte) (s : State) : Host.Outcome State Fault Refusal :=
  runRead (.imm b) 2 false opLdy s

/-- `LDA ($nn,X)` (R130): opcode `0xA1`. -/
def execLdaIzx (b : Byte) (s : State) : Host.Outcome State Fault Refusal :=
  runRead (.mem (.izx b)) 6 false opLda s

/-- `LDX #$nn` (R131): opcode `0xA2`. -/
def execLdxImm (b : Byte) (s : State) : Host.Outcome State Fault Refusal :=
  runRead (.imm b) 2 false opLdx s

/-- `LDY $nn` (R132): opcode `0xA4`. -/
def execLdyZp (b : Byte) (s : State) : Host.Outcome State Fault Refusal :=
  runRead (.mem (.zp b)) 3 false opLdy s

/-- `LDA $nn` (R130): opcode `0xA5`. -/
def execLdaZp (b : Byte) (s : State) : Host.Outcome State Fault Refusal :=
  runRead (.mem (.zp b)) 3 false opLda s

/-- `LDX $nn` (R131): opcode `0xA6`. -/
def execLdxZp (b : Byte) (s : State) : Host.Outcome State Fault Refusal :=
  runRead (.mem (.zp b)) 3 false opLdx s

/-- `TAY` (R134): opcode `0xA8`. -/
def execTay (s : State) : Host.Outcome State Fault Refusal :=
  runImplied 2 opTay s

/-- `LDA #$nn` (R130): opcode `0xA9`. -/
def execLdaImm (b : Byte) (s : State) : Host.Outcome State Fault Refusal :=
  runRead (.imm b) 2 false opLda s

/-- `TAX` (R133): opcode `0xAA`. -/
def execTax (s : State) : Host.Outcome State Fault Refusal :=
  runImplied 2 opTax s

/-- `LDY $nnnn` (R132): opcode `0xAC`. -/
def execLdyAbs (w : Addr) (s : State) : Host.Outcome State Fault Refusal :=
  runRead (.mem (.abs w)) 4 false opLdy s

/-- `LDA $nnnn` (R130): opcode `0xAD`. -/
def execLdaAbs (w : Addr) (s : State) : Host.Outcome State Fault Refusal :=
  runRead (.mem (.abs w)) 4 false opLda s

/-- `LDX $nnnn` (R131): opcode `0xAE`. -/
def execLdxAbs (w : Addr) (s : State) : Host.Outcome State Fault Refusal :=
  runRead (.mem (.abs w)) 4 false opLdx s

/-- `LDA ($nn),Y` (R130): opcode `0xB1`. -/
def execLdaIzy (b : Byte) (s : State) : Host.Outcome State Fault Refusal :=
  runRead (.mem (.izy b)) 5 true opLda s

/-- `LDY $nn,X` (R132): opcode `0xB4`. -/
def execLdyZpx (b : Byte) (s : State) : Host.Outcome State Fault Refusal :=
  runRead (.mem (.zpx b)) 4 false opLdy s

/-- `LDA $nn,X` (R130): opcode `0xB5`. -/
def execLdaZpx (b : Byte) (s : State) : Host.Outcome State Fault Refusal :=
  runRead (.mem (.zpx b)) 4 false opLda s

/-- `LDX $nn,Y` (R131): opcode `0xB6`. -/
def execLdxZpy (b : Byte) (s : State) : Host.Outcome State Fault Refusal :=
  runRead (.mem (.zpy b)) 4 false opLdx s

/-- `LDA $nnnn,Y` (R130): opcode `0xB9`. -/
def execLdaAby (w : Addr) (s : State) : Host.Outcome State Fault Refusal :=
  runRead (.mem (.aby w)) 4 true opLda s

/-- `TSX` (R137): opcode `0xBA`. -/
def execTsx (s : State) : Host.Outcome State Fault Refusal :=
  runImplied 2 opTsx s

/-- `LDY $nnnn,X` (R132): opcode `0xBC`. -/
def execLdyAbx (w : Addr) (s : State) : Host.Outcome State Fault Refusal :=
  runRead (.mem (.abx w)) 4 true opLdy s

/-- `LDA $nnnn,X` (R130): opcode `0xBD`. -/
def execLdaAbx (w : Addr) (s : State) : Host.Outcome State Fault Refusal :=
  runRead (.mem (.abx w)) 4 true opLda s

/-- `LDX $nnnn,Y` (R131): opcode `0xBE`. -/
def execLdxAby (w : Addr) (s : State) : Host.Outcome State Fault Refusal :=
  runRead (.mem (.aby w)) 4 true opLdx s

end Sys2Proof.Machine
end

