-- ==== Sys2Proof/Machine/Logic.lean ====
section
/-!
DEFINITION. The logical instructions and the bit test (spec/44_logic.md R170 to R173).
-/

namespace Sys2Proof.Machine

/-- What `AND` does with its operand (R170). -/
def opAnd (m : Byte) (s : State) : State := { s with a := s.a &&& m }.setNZ (s.a &&& m)

/-- What `ORA` does with its operand (R171). -/
def opOra (m : Byte) (s : State) : State := { s with a := s.a ||| m }.setNZ (s.a ||| m)

/-- What `EOR` does with its operand (R172). -/
def opEor (m : Byte) (s : State) : State := { s with a := s.a ^^^ m }.setNZ (s.a ^^^ m)

/-- What `BIT` does with its operand (R173): `N` and `V` are the operand's bits 7 and 6. -/
def opBit (m : Byte) (s : State) : State :=
  { s with p := { s.p with z := (s.a &&& m) == 0, n := m.getLsbD 7, v := m.getLsbD 6 } }

/-- `ORA ($nn,X)` (R171): opcode `0x01`. -/
def execOraIzx (b : Byte) (s : State) : Host.Outcome State Fault Refusal :=
  runRead (.mem (.izx b)) 6 false opOra s

/-- `ORA $nn` (R171): opcode `0x05`. -/
def execOraZp (b : Byte) (s : State) : Host.Outcome State Fault Refusal :=
  runRead (.mem (.zp b)) 3 false opOra s

/-- `ORA #$nn` (R171): opcode `0x09`. -/
def execOraImm (b : Byte) (s : State) : Host.Outcome State Fault Refusal :=
  runRead (.imm b) 2 false opOra s

/-- `ORA $nnnn` (R171): opcode `0x0D`. -/
def execOraAbs (w : Addr) (s : State) : Host.Outcome State Fault Refusal :=
  runRead (.mem (.abs w)) 4 false opOra s

/-- `ORA ($nn),Y` (R171): opcode `0x11`. -/
def execOraIzy (b : Byte) (s : State) : Host.Outcome State Fault Refusal :=
  runRead (.mem (.izy b)) 5 true opOra s

/-- `ORA $nn,X` (R171): opcode `0x15`. -/
def execOraZpx (b : Byte) (s : State) : Host.Outcome State Fault Refusal :=
  runRead (.mem (.zpx b)) 4 false opOra s

/-- `ORA $nnnn,Y` (R171): opcode `0x19`. -/
def execOraAby (w : Addr) (s : State) : Host.Outcome State Fault Refusal :=
  runRead (.mem (.aby w)) 4 true opOra s

/-- `ORA $nnnn,X` (R171): opcode `0x1D`. -/
def execOraAbx (w : Addr) (s : State) : Host.Outcome State Fault Refusal :=
  runRead (.mem (.abx w)) 4 true opOra s

/-- `AND ($nn,X)` (R170): opcode `0x21`. -/
def execAndIzx (b : Byte) (s : State) : Host.Outcome State Fault Refusal :=
  runRead (.mem (.izx b)) 6 false opAnd s

/-- `BIT $nn` (R173): opcode `0x24`. -/
def execBitZp (b : Byte) (s : State) : Host.Outcome State Fault Refusal :=
  runRead (.mem (.zp b)) 3 false opBit s

/-- `AND $nn` (R170): opcode `0x25`. -/
def execAndZp (b : Byte) (s : State) : Host.Outcome State Fault Refusal :=
  runRead (.mem (.zp b)) 3 false opAnd s

/-- `AND #$nn` (R170): opcode `0x29`. -/
def execAndImm (b : Byte) (s : State) : Host.Outcome State Fault Refusal :=
  runRead (.imm b) 2 false opAnd s

/-- `BIT $nnnn` (R173): opcode `0x2C`. -/
def execBitAbs (w : Addr) (s : State) : Host.Outcome State Fault Refusal :=
  runRead (.mem (.abs w)) 4 false opBit s

/-- `AND $nnnn` (R170): opcode `0x2D`. -/
def execAndAbs (w : Addr) (s : State) : Host.Outcome State Fault Refusal :=
  runRead (.mem (.abs w)) 4 false opAnd s

/-- `AND ($nn),Y` (R170): opcode `0x31`. -/
def execAndIzy (b : Byte) (s : State) : Host.Outcome State Fault Refusal :=
  runRead (.mem (.izy b)) 5 true opAnd s

/-- `AND $nn,X` (R170): opcode `0x35`. -/
def execAndZpx (b : Byte) (s : State) : Host.Outcome State Fault Refusal :=
  runRead (.mem (.zpx b)) 4 false opAnd s

/-- `AND $nnnn,Y` (R170): opcode `0x39`. -/
def execAndAby (w : Addr) (s : State) : Host.Outcome State Fault Refusal :=
  runRead (.mem (.aby w)) 4 true opAnd s

/-- `AND $nnnn,X` (R170): opcode `0x3D`. -/
def execAndAbx (w : Addr) (s : State) : Host.Outcome State Fault Refusal :=
  runRead (.mem (.abx w)) 4 true opAnd s

/-- `EOR ($nn,X)` (R172): opcode `0x41`. -/
def execEorIzx (b : Byte) (s : State) : Host.Outcome State Fault Refusal :=
  runRead (.mem (.izx b)) 6 false opEor s

/-- `EOR $nn` (R172): opcode `0x45`. -/
def execEorZp (b : Byte) (s : State) : Host.Outcome State Fault Refusal :=
  runRead (.mem (.zp b)) 3 false opEor s

/-- `EOR #$nn` (R172): opcode `0x49`. -/
def execEorImm (b : Byte) (s : State) : Host.Outcome State Fault Refusal :=
  runRead (.imm b) 2 false opEor s

/-- `EOR $nnnn` (R172): opcode `0x4D`. -/
def execEorAbs (w : Addr) (s : State) : Host.Outcome State Fault Refusal :=
  runRead (.mem (.abs w)) 4 false opEor s

/-- `EOR ($nn),Y` (R172): opcode `0x51`. -/
def execEorIzy (b : Byte) (s : State) : Host.Outcome State Fault Refusal :=
  runRead (.mem (.izy b)) 5 true opEor s

/-- `EOR $nn,X` (R172): opcode `0x55`. -/
def execEorZpx (b : Byte) (s : State) : Host.Outcome State Fault Refusal :=
  runRead (.mem (.zpx b)) 4 false opEor s

/-- `EOR $nnnn,Y` (R172): opcode `0x59`. -/
def execEorAby (w : Addr) (s : State) : Host.Outcome State Fault Refusal :=
  runRead (.mem (.aby w)) 4 true opEor s

/-- `EOR $nnnn,X` (R172): opcode `0x5D`. -/
def execEorAbx (w : Addr) (s : State) : Host.Outcome State Fault Refusal :=
  runRead (.mem (.abx w)) 4 true opEor s

end Sys2Proof.Machine
end

