-- ==== Sys2Proof/Machine/ShiftIncDec.lean ====
section
/-!
DEFINITION. Shifts, rotates, increments and decrements (spec/45_shift_incdec.md R181 to R190).
-/

namespace Sys2Proof.Machine

/-- A shifted or rotated byte, with the bit shifted out in `C` and `Z` and `N` from the new byte (R181 to R184). -/
def shifted (new : Byte) (out : Bool) (p : Flags) : Byte × Flags := (new, { p with c := out }.setNZ new)

/-- `ASL` (R181). -/
def modAsl : Modify := fun old p => shifted (old <<< 1) (old.getLsbD 7) p

/-- `LSR` (R182). -/
def modLsr : Modify := fun old p => shifted (old >>> 1) (old.getLsbD 0) p

/-- `ROL` (R183). -/
def modRol : Modify := fun old p => shifted ((old <<< 1) ||| BitVec.ofNat 8 (bit p.c)) (old.getLsbD 7) p

/-- `ROR` (R184). -/
def modRor : Modify := fun old p => shifted ((old >>> 1) ||| BitVec.ofNat 8 (bit p.c * 128)) (old.getLsbD 0) p

/-- `INC` (R185): `C` and `V` are not touched. -/
def modInc : Modify := fun old p => (old + 1, p.setNZ (old + 1))

/-- `DEC` (R186): `C` and `V` are not touched. -/
def modDec : Modify := fun old p => (old - 1, p.setNZ (old - 1))

/-- `INX` (R187). -/
def opInx (s : State) : State := { s with x := s.x + 1 }.setNZ (s.x + 1)

/-- `INY` (R188). -/
def opIny (s : State) : State := { s with y := s.y + 1 }.setNZ (s.y + 1)

/-- `DEX` (R189). -/
def opDex (s : State) : State := { s with x := s.x - 1 }.setNZ (s.x - 1)

/-- `DEY` (R190). -/
def opDey (s : State) : State := { s with y := s.y - 1 }.setNZ (s.y - 1)

/-- `ASL $nn` (R181): opcode `0x06`. -/
def execAslZp (b : Byte) (s : State) : Host.Outcome State Fault Refusal :=
  runModify (.zp b) 5 modAsl s

/-- `ASL A` (R181): opcode `0x0A`. -/
def execAslAcc (s : State) : Host.Outcome State Fault Refusal :=
  runImplied 2 (modifyAcc modAsl) s

/-- `ASL $nnnn` (R181): opcode `0x0E`. -/
def execAslAbs (w : Addr) (s : State) : Host.Outcome State Fault Refusal :=
  runModify (.abs w) 6 modAsl s

/-- `ASL $nn,X` (R181): opcode `0x16`. -/
def execAslZpx (b : Byte) (s : State) : Host.Outcome State Fault Refusal :=
  runModify (.zpx b) 6 modAsl s

/-- `ASL $nnnn,X` (R181): opcode `0x1E`. -/
def execAslAbx (w : Addr) (s : State) : Host.Outcome State Fault Refusal :=
  runModify (.abx w) 7 modAsl s

/-- `ROL $nn` (R183): opcode `0x26`. -/
def execRolZp (b : Byte) (s : State) : Host.Outcome State Fault Refusal :=
  runModify (.zp b) 5 modRol s

/-- `ROL A` (R183): opcode `0x2A`. -/
def execRolAcc (s : State) : Host.Outcome State Fault Refusal :=
  runImplied 2 (modifyAcc modRol) s

/-- `ROL $nnnn` (R183): opcode `0x2E`. -/
def execRolAbs (w : Addr) (s : State) : Host.Outcome State Fault Refusal :=
  runModify (.abs w) 6 modRol s

/-- `ROL $nn,X` (R183): opcode `0x36`. -/
def execRolZpx (b : Byte) (s : State) : Host.Outcome State Fault Refusal :=
  runModify (.zpx b) 6 modRol s

/-- `ROL $nnnn,X` (R183): opcode `0x3E`. -/
def execRolAbx (w : Addr) (s : State) : Host.Outcome State Fault Refusal :=
  runModify (.abx w) 7 modRol s

/-- `LSR $nn` (R182): opcode `0x46`. -/
def execLsrZp (b : Byte) (s : State) : Host.Outcome State Fault Refusal :=
  runModify (.zp b) 5 modLsr s

/-- `LSR A` (R182): opcode `0x4A`. -/
def execLsrAcc (s : State) : Host.Outcome State Fault Refusal :=
  runImplied 2 (modifyAcc modLsr) s

/-- `LSR $nnnn` (R182): opcode `0x4E`. -/
def execLsrAbs (w : Addr) (s : State) : Host.Outcome State Fault Refusal :=
  runModify (.abs w) 6 modLsr s

/-- `LSR $nn,X` (R182): opcode `0x56`. -/
def execLsrZpx (b : Byte) (s : State) : Host.Outcome State Fault Refusal :=
  runModify (.zpx b) 6 modLsr s

/-- `LSR $nnnn,X` (R182): opcode `0x5E`. -/
def execLsrAbx (w : Addr) (s : State) : Host.Outcome State Fault Refusal :=
  runModify (.abx w) 7 modLsr s

/-- `ROR $nn` (R184): opcode `0x66`. -/
def execRorZp (b : Byte) (s : State) : Host.Outcome State Fault Refusal :=
  runModify (.zp b) 5 modRor s

/-- `ROR A` (R184): opcode `0x6A`. -/
def execRorAcc (s : State) : Host.Outcome State Fault Refusal :=
  runImplied 2 (modifyAcc modRor) s

/-- `ROR $nnnn` (R184): opcode `0x6E`. -/
def execRorAbs (w : Addr) (s : State) : Host.Outcome State Fault Refusal :=
  runModify (.abs w) 6 modRor s

/-- `ROR $nn,X` (R184): opcode `0x76`. -/
def execRorZpx (b : Byte) (s : State) : Host.Outcome State Fault Refusal :=
  runModify (.zpx b) 6 modRor s

/-- `ROR $nnnn,X` (R184): opcode `0x7E`. -/
def execRorAbx (w : Addr) (s : State) : Host.Outcome State Fault Refusal :=
  runModify (.abx w) 7 modRor s

/-- `DEY` (R190): opcode `0x88`. -/
def execDey (s : State) : Host.Outcome State Fault Refusal :=
  runImplied 2 opDey s

/-- `DEC $nn` (R186): opcode `0xC6`. -/
def execDecZp (b : Byte) (s : State) : Host.Outcome State Fault Refusal :=
  runModify (.zp b) 5 modDec s

/-- `INY` (R188): opcode `0xC8`. -/
def execIny (s : State) : Host.Outcome State Fault Refusal :=
  runImplied 2 opIny s

/-- `DEX` (R189): opcode `0xCA`. -/
def execDex (s : State) : Host.Outcome State Fault Refusal :=
  runImplied 2 opDex s

/-- `DEC $nnnn` (R186): opcode `0xCE`. -/
def execDecAbs (w : Addr) (s : State) : Host.Outcome State Fault Refusal :=
  runModify (.abs w) 6 modDec s

/-- `DEC $nn,X` (R186): opcode `0xD6`. -/
def execDecZpx (b : Byte) (s : State) : Host.Outcome State Fault Refusal :=
  runModify (.zpx b) 6 modDec s

/-- `DEC $nnnn,X` (R186): opcode `0xDE`. -/
def execDecAbx (w : Addr) (s : State) : Host.Outcome State Fault Refusal :=
  runModify (.abx w) 7 modDec s

/-- `INC $nn` (R185): opcode `0xE6`. -/
def execIncZp (b : Byte) (s : State) : Host.Outcome State Fault Refusal :=
  runModify (.zp b) 5 modInc s

/-- `INX` (R187): opcode `0xE8`. -/
def execInx (s : State) : Host.Outcome State Fault Refusal :=
  runImplied 2 opInx s

/-- `INC $nnnn` (R185): opcode `0xEE`. -/
def execIncAbs (w : Addr) (s : State) : Host.Outcome State Fault Refusal :=
  runModify (.abs w) 6 modInc s

/-- `INC $nn,X` (R185): opcode `0xF6`. -/
def execIncZpx (b : Byte) (s : State) : Host.Outcome State Fault Refusal :=
  runModify (.zpx b) 6 modInc s

/-- `INC $nnnn,X` (R185): opcode `0xFE`. -/
def execIncAbx (w : Addr) (s : State) : Host.Outcome State Fault Refusal :=
  runModify (.abx w) 7 modInc s

end Sys2Proof.Machine
end

