-- ==== Sys2Proof/Machine/Store.lean ====
section
/-!
DEFINITION. Stores (spec/42_store.md R150 to R152).
-/

namespace Sys2Proof.Machine

/-- The byte `STA` stores (R150). -/
def valSta (s : State) : Byte := s.a

/-- The byte `STX` stores (R151). -/
def valStx (s : State) : Byte := s.x

/-- The byte `STY` stores (R152). -/
def valSty (s : State) : Byte := s.y

/-- `STA ($nn,X)` (R150): opcode `0x81`. -/
def execStaIzx (b : Byte) (s : State) : Host.Outcome State Fault Refusal :=
  runStore (.izx b) 6 valSta s

/-- `STY $nn` (R152): opcode `0x84`. -/
def execStyZp (b : Byte) (s : State) : Host.Outcome State Fault Refusal :=
  runStore (.zp b) 3 valSty s

/-- `STA $nn` (R150): opcode `0x85`. -/
def execStaZp (b : Byte) (s : State) : Host.Outcome State Fault Refusal :=
  runStore (.zp b) 3 valSta s

/-- `STX $nn` (R151): opcode `0x86`. -/
def execStxZp (b : Byte) (s : State) : Host.Outcome State Fault Refusal :=
  runStore (.zp b) 3 valStx s

/-- `STY $nnnn` (R152): opcode `0x8C`. -/
def execStyAbs (w : Addr) (s : State) : Host.Outcome State Fault Refusal :=
  runStore (.abs w) 4 valSty s

/-- `STA $nnnn` (R150): opcode `0x8D`. -/
def execStaAbs (w : Addr) (s : State) : Host.Outcome State Fault Refusal :=
  runStore (.abs w) 4 valSta s

/-- `STX $nnnn` (R151): opcode `0x8E`. -/
def execStxAbs (w : Addr) (s : State) : Host.Outcome State Fault Refusal :=
  runStore (.abs w) 4 valStx s

/-- `STA ($nn),Y` (R150): opcode `0x91`. -/
def execStaIzy (b : Byte) (s : State) : Host.Outcome State Fault Refusal :=
  runStore (.izy b) 6 valSta s

/-- `STY $nn,X` (R152): opcode `0x94`. -/
def execStyZpx (b : Byte) (s : State) : Host.Outcome State Fault Refusal :=
  runStore (.zpx b) 4 valSty s

/-- `STA $nn,X` (R150): opcode `0x95`. -/
def execStaZpx (b : Byte) (s : State) : Host.Outcome State Fault Refusal :=
  runStore (.zpx b) 4 valSta s

/-- `STX $nn,Y` (R151): opcode `0x96`. -/
def execStxZpy (b : Byte) (s : State) : Host.Outcome State Fault Refusal :=
  runStore (.zpy b) 4 valStx s

/-- `STA $nnnn,Y` (R150): opcode `0x99`. -/
def execStaAby (w : Addr) (s : State) : Host.Outcome State Fault Refusal :=
  runStore (.aby w) 5 valSta s

/-- `STA $nnnn,X` (R150): opcode `0x9D`. -/
def execStaAbx (w : Addr) (s : State) : Host.Outcome State Fault Refusal :=
  runStore (.abx w) 5 valSta s

end Sys2Proof.Machine
end

