-- ==== Sys2Proof/Machine/Undocumented.lean ====
section
/-!
DEFINITION. The undocumented opcodes with one effect and the halt opcodes (spec/49_undocumented.md R260 to R276), and `NOP`, whose
documented opcode is R246 of spec/48_stack_flags_jumps.md.
-/

namespace Sys2Proof.Machine

/-- `NOP` without an operand (R246, R274). -/
def opNop (s : State) : State := s

/-- A `NOP` with an operand: it is read and thrown away (R274). -/
def opSkip (_ : Byte) (s : State) : State := s

/-- The byte `SAX` stores (R268). -/
def valSax (s : State) : Byte := s.a &&& s.x

/-- What `ANC` does with its operand (R269): `AND`, then `C` is bit 7 of `A`. -/
def opAnc (m : Byte) (s : State) : State :=
  { s with a := s.a &&& m, p := { s.p with c := (s.a &&& m).getLsbD 7 }.setNZ (s.a &&& m) }

/-- What `ALR` does with its operand (R270): `AND`, then a shift right. -/
def opAlr (m : Byte) (s : State) : State :=
  let t := s.a &&& m
  { s with a := t >>> 1, p := { s.p with c := t.getLsbD 0 }.setNZ (t >>> 1) }

/-- The low-nibble correction of a decimal `ARR` (R271). -/
def arrLow (t r : Byte) : Byte :=
  if (t &&& 0x0F).toNat + (t &&& 0x01).toNat > 5 then (r &&& 0xF0) ||| ((r + 6) &&& 0x0F) else r

/-- Whether a decimal `ARR` corrects the high nibble, which is also its `C` (R271). -/
def arrHigh (t : Byte) : Bool := decide ((t &&& 0xF0).toNat + (t &&& 0x10).toNat > 0x50)

/-- What `ARR` does with its operand (R271; in decimal mode log entry 15): `Z` and `N` are set before the correction. -/
def opArr (m : Byte) (s : State) : State :=
  let t := s.a &&& m
  let r := (t >>> 1) ||| BitVec.ofNat 8 (bit s.p.c * 128)
  if s.p.d then
    let q := arrLow t r
    { s with
      a := if arrHigh t then q + 0x60 else q
      p := { s.p with n := s.p.c, z := r == 0, v := t.getLsbD 6 ^^ r.getLsbD 6, c := arrHigh t } }
  else { s with a := r, p := { s.p with c := r.getLsbD 6, v := r.getLsbD 6 ^^ r.getLsbD 5 }.setNZ r }

/-- What `SBX` does with its operand (R272): flags as a compare of `A & X` with it. -/
def opSbx (m : Byte) (s : State) : State :=
  { s with x := (s.a &&& s.x) - m, p := s.p.compare (s.a &&& s.x) m }

/-- What `LAS` does with its operand (R275). -/
def opLas (m : Byte) (s : State) : State :=
  { s with a := m &&& s.sp, x := m &&& s.sp, sp := m &&& s.sp }.setNZ (m &&& s.sp)

/-- `JAM` (R276): opcode `0x02`. -/
def execJam02 (s : State) : Host.Outcome State Fault Refusal :=
  runHalt 0x02 s

/-- `SLO ($nn,X)` (R261): opcode `0x03`. -/
def execSloIzx (b : Byte) (s : State) : Host.Outcome State Fault Refusal :=
  runModifyRead (.izx b) 8 modAsl opOra s

/-- `NOP $nn` (R274): opcode `0x04`. -/
def execNopZp04 (b : Byte) (s : State) : Host.Outcome State Fault Refusal :=
  runRead (.mem (.zp b)) 3 false opSkip s

/-- `SLO $nn` (R261): opcode `0x07`. -/
def execSloZp (b : Byte) (s : State) : Host.Outcome State Fault Refusal :=
  runModifyRead (.zp b) 5 modAsl opOra s

/-- `ANC #$nn` (R269): opcode `0x0B`. -/
def execAncImm0B (b : Byte) (s : State) : Host.Outcome State Fault Refusal :=
  runRead (.imm b) 2 false opAnc s

/-- `NOP $nnnn` (R274): opcode `0x0C`. -/
def execNopAbs (w : Addr) (s : State) : Host.Outcome State Fault Refusal :=
  runRead (.mem (.abs w)) 4 false opSkip s

/-- `SLO $nnnn` (R261): opcode `0x0F`. -/
def execSloAbs (w : Addr) (s : State) : Host.Outcome State Fault Refusal :=
  runModifyRead (.abs w) 6 modAsl opOra s

/-- `JAM` (R276): opcode `0x12`. -/
def execJam12 (s : State) : Host.Outcome State Fault Refusal :=
  runHalt 0x12 s

/-- `SLO ($nn),Y` (R261): opcode `0x13`. -/
def execSloIzy (b : Byte) (s : State) : Host.Outcome State Fault Refusal :=
  runModifyRead (.izy b) 8 modAsl opOra s

/-- `NOP $nn,X` (R274): opcode `0x14`. -/
def execNopZpx14 (b : Byte) (s : State) : Host.Outcome State Fault Refusal :=
  runRead (.mem (.zpx b)) 4 false opSkip s

/-- `SLO $nn,X` (R261): opcode `0x17`. -/
def execSloZpx (b : Byte) (s : State) : Host.Outcome State Fault Refusal :=
  runModifyRead (.zpx b) 6 modAsl opOra s

/-- `NOP` (R274): opcode `0x1A`. -/
def execNop1A (s : State) : Host.Outcome State Fault Refusal :=
  runImplied 2 opNop s

/-- `SLO $nnnn,Y` (R261): opcode `0x1B`. -/
def execSloAby (w : Addr) (s : State) : Host.Outcome State Fault Refusal :=
  runModifyRead (.aby w) 7 modAsl opOra s

/-- `NOP $nnnn,X` (R274): opcode `0x1C`. -/
def execNopAbx1C (w : Addr) (s : State) : Host.Outcome State Fault Refusal :=
  runRead (.mem (.abx w)) 4 true opSkip s

/-- `SLO $nnnn,X` (R261): opcode `0x1F`. -/
def execSloAbx (w : Addr) (s : State) : Host.Outcome State Fault Refusal :=
  runModifyRead (.abx w) 7 modAsl opOra s

/-- `JAM` (R276): opcode `0x22`. -/
def execJam22 (s : State) : Host.Outcome State Fault Refusal :=
  runHalt 0x22 s

/-- `RLA ($nn,X)` (R262): opcode `0x23`. -/
def execRlaIzx (b : Byte) (s : State) : Host.Outcome State Fault Refusal :=
  runModifyRead (.izx b) 8 modRol opAnd s

/-- `RLA $nn` (R262): opcode `0x27`. -/
def execRlaZp (b : Byte) (s : State) : Host.Outcome State Fault Refusal :=
  runModifyRead (.zp b) 5 modRol opAnd s

/-- `ANC #$nn` (R269): opcode `0x2B`. -/
def execAncImm2B (b : Byte) (s : State) : Host.Outcome State Fault Refusal :=
  runRead (.imm b) 2 false opAnc s

/-- `RLA $nnnn` (R262): opcode `0x2F`. -/
def execRlaAbs (w : Addr) (s : State) : Host.Outcome State Fault Refusal :=
  runModifyRead (.abs w) 6 modRol opAnd s

/-- `JAM` (R276): opcode `0x32`. -/
def execJam32 (s : State) : Host.Outcome State Fault Refusal :=
  runHalt 0x32 s

/-- `RLA ($nn),Y` (R262): opcode `0x33`. -/
def execRlaIzy (b : Byte) (s : State) : Host.Outcome State Fault Refusal :=
  runModifyRead (.izy b) 8 modRol opAnd s

/-- `NOP $nn,X` (R274): opcode `0x34`. -/
def execNopZpx34 (b : Byte) (s : State) : Host.Outcome State Fault Refusal :=
  runRead (.mem (.zpx b)) 4 false opSkip s

/-- `RLA $nn,X` (R262): opcode `0x37`. -/
def execRlaZpx (b : Byte) (s : State) : Host.Outcome State Fault Refusal :=
  runModifyRead (.zpx b) 6 modRol opAnd s

/-- `NOP` (R274): opcode `0x3A`. -/
def execNop3A (s : State) : Host.Outcome State Fault Refusal :=
  runImplied 2 opNop s

/-- `RLA $nnnn,Y` (R262): opcode `0x3B`. -/
def execRlaAby (w : Addr) (s : State) : Host.Outcome State Fault Refusal :=
  runModifyRead (.aby w) 7 modRol opAnd s

/-- `NOP $nnnn,X` (R274): opcode `0x3C`. -/
def execNopAbx3C (w : Addr) (s : State) : Host.Outcome State Fault Refusal :=
  runRead (.mem (.abx w)) 4 true opSkip s

/-- `RLA $nnnn,X` (R262): opcode `0x3F`. -/
def execRlaAbx (w : Addr) (s : State) : Host.Outcome State Fault Refusal :=
  runModifyRead (.abx w) 7 modRol opAnd s

/-- `JAM` (R276): opcode `0x42`. -/
def execJam42 (s : State) : Host.Outcome State Fault Refusal :=
  runHalt 0x42 s

/-- `SRE ($nn,X)` (R263): opcode `0x43`. -/
def execSreIzx (b : Byte) (s : State) : Host.Outcome State Fault Refusal :=
  runModifyRead (.izx b) 8 modLsr opEor s

/-- `NOP $nn` (R274): opcode `0x44`. -/
def execNopZp44 (b : Byte) (s : State) : Host.Outcome State Fault Refusal :=
  runRead (.mem (.zp b)) 3 false opSkip s

/-- `SRE $nn` (R263): opcode `0x47`. -/
def execSreZp (b : Byte) (s : State) : Host.Outcome State Fault Refusal :=
  runModifyRead (.zp b) 5 modLsr opEor s

/-- `ALR #$nn` (R270): opcode `0x4B`. -/
def execAlrImm (b : Byte) (s : State) : Host.Outcome State Fault Refusal :=
  runRead (.imm b) 2 false opAlr s

/-- `SRE $nnnn` (R263): opcode `0x4F`. -/
def execSreAbs (w : Addr) (s : State) : Host.Outcome State Fault Refusal :=
  runModifyRead (.abs w) 6 modLsr opEor s

/-- `JAM` (R276): opcode `0x52`. -/
def execJam52 (s : State) : Host.Outcome State Fault Refusal :=
  runHalt 0x52 s

/-- `SRE ($nn),Y` (R263): opcode `0x53`. -/
def execSreIzy (b : Byte) (s : State) : Host.Outcome State Fault Refusal :=
  runModifyRead (.izy b) 8 modLsr opEor s

/-- `NOP $nn,X` (R274): opcode `0x54`. -/
def execNopZpx54 (b : Byte) (s : State) : Host.Outcome State Fault Refusal :=
  runRead (.mem (.zpx b)) 4 false opSkip s

/-- `SRE $nn,X` (R263): opcode `0x57`. -/
def execSreZpx (b : Byte) (s : State) : Host.Outcome State Fault Refusal :=
  runModifyRead (.zpx b) 6 modLsr opEor s

/-- `NOP` (R274): opcode `0x5A`. -/
def execNop5A (s : State) : Host.Outcome State Fault Refusal :=
  runImplied 2 opNop s

/-- `SRE $nnnn,Y` (R263): opcode `0x5B`. -/
def execSreAby (w : Addr) (s : State) : Host.Outcome State Fault Refusal :=
  runModifyRead (.aby w) 7 modLsr opEor s

/-- `NOP $nnnn,X` (R274): opcode `0x5C`. -/
def execNopAbx5C (w : Addr) (s : State) : Host.Outcome State Fault Refusal :=
  runRead (.mem (.abx w)) 4 true opSkip s

/-- `SRE $nnnn,X` (R263): opcode `0x5F`. -/
def execSreAbx (w : Addr) (s : State) : Host.Outcome State Fault Refusal :=
  runModifyRead (.abx w) 7 modLsr opEor s

/-- `JAM` (R276): opcode `0x62`. -/
def execJam62 (s : State) : Host.Outcome State Fault Refusal :=
  runHalt 0x62 s

/-- `RRA ($nn,X)` (R264): opcode `0x63`. -/
def execRraIzx (b : Byte) (s : State) : Host.Outcome State Fault Refusal :=
  runModifyRead (.izx b) 8 modRor opAdc s

/-- `NOP $nn` (R274): opcode `0x64`. -/
def execNopZp64 (b : Byte) (s : State) : Host.Outcome State Fault Refusal :=
  runRead (.mem (.zp b)) 3 false opSkip s

/-- `RRA $nn` (R264): opcode `0x67`. -/
def execRraZp (b : Byte) (s : State) : Host.Outcome State Fault Refusal :=
  runModifyRead (.zp b) 5 modRor opAdc s

/-- `ARR #$nn` (R271): opcode `0x6B`. -/
def execArrImm (b : Byte) (s : State) : Host.Outcome State Fault Refusal :=
  runRead (.imm b) 2 false opArr s

/-- `RRA $nnnn` (R264): opcode `0x6F`. -/
def execRraAbs (w : Addr) (s : State) : Host.Outcome State Fault Refusal :=
  runModifyRead (.abs w) 6 modRor opAdc s

/-- `JAM` (R276): opcode `0x72`. -/
def execJam72 (s : State) : Host.Outcome State Fault Refusal :=
  runHalt 0x72 s

/-- `RRA ($nn),Y` (R264): opcode `0x73`. -/
def execRraIzy (b : Byte) (s : State) : Host.Outcome State Fault Refusal :=
  runModifyRead (.izy b) 8 modRor opAdc s

/-- `NOP $nn,X` (R274): opcode `0x74`. -/
def execNopZpx74 (b : Byte) (s : State) : Host.Outcome State Fault Refusal :=
  runRead (.mem (.zpx b)) 4 false opSkip s

/-- `RRA $nn,X` (R264): opcode `0x77`. -/
def execRraZpx (b : Byte) (s : State) : Host.Outcome State Fault Refusal :=
  runModifyRead (.zpx b) 6 modRor opAdc s

/-- `NOP` (R274): opcode `0x7A`. -/
def execNop7A (s : State) : Host.Outcome State Fault Refusal :=
  runImplied 2 opNop s

/-- `RRA $nnnn,Y` (R264): opcode `0x7B`. -/
def execRraAby (w : Addr) (s : State) : Host.Outcome State Fault Refusal :=
  runModifyRead (.aby w) 7 modRor opAdc s

/-- `NOP $nnnn,X` (R274): opcode `0x7C`. -/
def execNopAbx7C (w : Addr) (s : State) : Host.Outcome State Fault Refusal :=
  runRead (.mem (.abx w)) 4 true opSkip s

/-- `RRA $nnnn,X` (R264): opcode `0x7F`. -/
def execRraAbx (w : Addr) (s : State) : Host.Outcome State Fault Refusal :=
  runModifyRead (.abx w) 7 modRor opAdc s

/-- `NOP #$nn` (R274): opcode `0x80`. -/
def execNopImm80 (b : Byte) (s : State) : Host.Outcome State Fault Refusal :=
  runRead (.imm b) 2 false opSkip s

/-- `NOP #$nn` (R274): opcode `0x82`. -/
def execNopImm82 (b : Byte) (s : State) : Host.Outcome State Fault Refusal :=
  runRead (.imm b) 2 false opSkip s

/-- `SAX ($nn,X)` (R268): opcode `0x83`. -/
def execSaxIzx (b : Byte) (s : State) : Host.Outcome State Fault Refusal :=
  runStore (.izx b) 6 valSax s

/-- `SAX $nn` (R268): opcode `0x87`. -/
def execSaxZp (b : Byte) (s : State) : Host.Outcome State Fault Refusal :=
  runStore (.zp b) 3 valSax s

/-- `NOP #$nn` (R274): opcode `0x89`. -/
def execNopImm89 (b : Byte) (s : State) : Host.Outcome State Fault Refusal :=
  runRead (.imm b) 2 false opSkip s

/-- `SAX $nnnn` (R268): opcode `0x8F`. -/
def execSaxAbs (w : Addr) (s : State) : Host.Outcome State Fault Refusal :=
  runStore (.abs w) 4 valSax s

/-- `JAM` (R276): opcode `0x92`. -/
def execJam92 (s : State) : Host.Outcome State Fault Refusal :=
  runHalt 0x92 s

/-- `SAX $nn,Y` (R268): opcode `0x97`. -/
def execSaxZpy (b : Byte) (s : State) : Host.Outcome State Fault Refusal :=
  runStore (.zpy b) 4 valSax s

/-- `LAX ($nn,X)` (R267): opcode `0xA3`. -/
def execLaxIzx (b : Byte) (s : State) : Host.Outcome State Fault Refusal :=
  runReadTwice (.izx b) 6 false opLda opLdx s

/-- `LAX $nn` (R267): opcode `0xA7`. -/
def execLaxZp (b : Byte) (s : State) : Host.Outcome State Fault Refusal :=
  runReadTwice (.zp b) 3 false opLda opLdx s

/-- `LAX $nnnn` (R267): opcode `0xAF`. -/
def execLaxAbs (w : Addr) (s : State) : Host.Outcome State Fault Refusal :=
  runReadTwice (.abs w) 4 false opLda opLdx s

/-- `JAM` (R276): opcode `0xB2`. -/
def execJamB2 (s : State) : Host.Outcome State Fault Refusal :=
  runHalt 0xB2 s

/-- `LAX ($nn),Y` (R267): opcode `0xB3`. -/
def execLaxIzy (b : Byte) (s : State) : Host.Outcome State Fault Refusal :=
  runReadTwice (.izy b) 5 true opLda opLdx s

/-- `LAX $nn,Y` (R267): opcode `0xB7`. -/
def execLaxZpy (b : Byte) (s : State) : Host.Outcome State Fault Refusal :=
  runReadTwice (.zpy b) 4 false opLda opLdx s

/-- `LAS $nnnn,Y` (R275): opcode `0xBB`. -/
def execLasAby (w : Addr) (s : State) : Host.Outcome State Fault Refusal :=
  runRead (.mem (.aby w)) 4 true opLas s

/-- `LAX $nnnn,Y` (R267): opcode `0xBF`. -/
def execLaxAby (w : Addr) (s : State) : Host.Outcome State Fault Refusal :=
  runReadTwice (.aby w) 4 true opLda opLdx s

/-- `NOP #$nn` (R274): opcode `0xC2`. -/
def execNopImmC2 (b : Byte) (s : State) : Host.Outcome State Fault Refusal :=
  runRead (.imm b) 2 false opSkip s

/-- `DCP ($nn,X)` (R265): opcode `0xC3`. -/
def execDcpIzx (b : Byte) (s : State) : Host.Outcome State Fault Refusal :=
  runModifyRead (.izx b) 8 modDec opCmp s

/-- `DCP $nn` (R265): opcode `0xC7`. -/
def execDcpZp (b : Byte) (s : State) : Host.Outcome State Fault Refusal :=
  runModifyRead (.zp b) 5 modDec opCmp s

/-- `SBX #$nn` (R272): opcode `0xCB`. -/
def execSbxImm (b : Byte) (s : State) : Host.Outcome State Fault Refusal :=
  runRead (.imm b) 2 false opSbx s

/-- `DCP $nnnn` (R265): opcode `0xCF`. -/
def execDcpAbs (w : Addr) (s : State) : Host.Outcome State Fault Refusal :=
  runModifyRead (.abs w) 6 modDec opCmp s

/-- `JAM` (R276): opcode `0xD2`. -/
def execJamD2 (s : State) : Host.Outcome State Fault Refusal :=
  runHalt 0xD2 s

/-- `DCP ($nn),Y` (R265): opcode `0xD3`. -/
def execDcpIzy (b : Byte) (s : State) : Host.Outcome State Fault Refusal :=
  runModifyRead (.izy b) 8 modDec opCmp s

/-- `NOP $nn,X` (R274): opcode `0xD4`. -/
def execNopZpxD4 (b : Byte) (s : State) : Host.Outcome State Fault Refusal :=
  runRead (.mem (.zpx b)) 4 false opSkip s

/-- `DCP $nn,X` (R265): opcode `0xD7`. -/
def execDcpZpx (b : Byte) (s : State) : Host.Outcome State Fault Refusal :=
  runModifyRead (.zpx b) 6 modDec opCmp s

/-- `NOP` (R274): opcode `0xDA`. -/
def execNopDA (s : State) : Host.Outcome State Fault Refusal :=
  runImplied 2 opNop s

/-- `DCP $nnnn,Y` (R265): opcode `0xDB`. -/
def execDcpAby (w : Addr) (s : State) : Host.Outcome State Fault Refusal :=
  runModifyRead (.aby w) 7 modDec opCmp s

/-- `NOP $nnnn,X` (R274): opcode `0xDC`. -/
def execNopAbxDC (w : Addr) (s : State) : Host.Outcome State Fault Refusal :=
  runRead (.mem (.abx w)) 4 true opSkip s

/-- `DCP $nnnn,X` (R265): opcode `0xDF`. -/
def execDcpAbx (w : Addr) (s : State) : Host.Outcome State Fault Refusal :=
  runModifyRead (.abx w) 7 modDec opCmp s

/-- `NOP #$nn` (R274): opcode `0xE2`. -/
def execNopImmE2 (b : Byte) (s : State) : Host.Outcome State Fault Refusal :=
  runRead (.imm b) 2 false opSkip s

/-- `ISB ($nn,X)` (R266): opcode `0xE3`. -/
def execIsbIzx (b : Byte) (s : State) : Host.Outcome State Fault Refusal :=
  runModifyRead (.izx b) 8 modInc opSbc s

/-- `ISB $nn` (R266): opcode `0xE7`. -/
def execIsbZp (b : Byte) (s : State) : Host.Outcome State Fault Refusal :=
  runModifyRead (.zp b) 5 modInc opSbc s

/-- `NOP` (R246): opcode `0xEA`. -/
def execNop (s : State) : Host.Outcome State Fault Refusal :=
  runImplied 2 opNop s

/-- `ISB $nnnn` (R266): opcode `0xEF`. -/
def execIsbAbs (w : Addr) (s : State) : Host.Outcome State Fault Refusal :=
  runModifyRead (.abs w) 6 modInc opSbc s

/-- `JAM` (R276): opcode `0xF2`. -/
def execJamF2 (s : State) : Host.Outcome State Fault Refusal :=
  runHalt 0xF2 s

/-- `ISB ($nn),Y` (R266): opcode `0xF3`. -/
def execIsbIzy (b : Byte) (s : State) : Host.Outcome State Fault Refusal :=
  runModifyRead (.izy b) 8 modInc opSbc s

/-- `NOP $nn,X` (R274): opcode `0xF4`. -/
def execNopZpxF4 (b : Byte) (s : State) : Host.Outcome State Fault Refusal :=
  runRead (.mem (.zpx b)) 4 false opSkip s

/-- `ISB $nn,X` (R266): opcode `0xF7`. -/
def execIsbZpx (b : Byte) (s : State) : Host.Outcome State Fault Refusal :=
  runModifyRead (.zpx b) 6 modInc opSbc s

/-- `NOP` (R274): opcode `0xFA`. -/
def execNopFA (s : State) : Host.Outcome State Fault Refusal :=
  runImplied 2 opNop s

/-- `ISB $nnnn,Y` (R266): opcode `0xFB`. -/
def execIsbAby (w : Addr) (s : State) : Host.Outcome State Fault Refusal :=
  runModifyRead (.aby w) 7 modInc opSbc s

/-- `NOP $nnnn,X` (R274): opcode `0xFC`. -/
def execNopAbxFC (w : Addr) (s : State) : Host.Outcome State Fault Refusal :=
  runRead (.mem (.abx w)) 4 true opSkip s

/-- `ISB $nnnn,X` (R266): opcode `0xFF`. -/
def execIsbAbx (w : Addr) (s : State) : Host.Outcome State Fault Refusal :=
  runModifyRead (.abx w) 7 modInc opSbc s

end Sys2Proof.Machine
end

