-- ==== Sys2Proof/Machine/Unstable.lean ====
section
/-!
DEFINITION. The unstable opcodes (spec/49_undocumented.md R277 to R283): refused or executed as `UNSTABLE_POLICY` says.
-/

namespace Sys2Proof.Machine

/-- What `ANE` does with its operand (R277). -/
def opAne (m : Byte) (s : State) : State :=
  { s with a := (s.a ||| s.params.aneMagic) &&& s.x &&& m }.setNZ ((s.a ||| s.params.aneMagic) &&& s.x &&& m)

/-- What `LXA` does with its operand (R278). -/
def opLxa (m : Byte) (s : State) : State :=
  { s with a := (s.a ||| s.params.lxaMagic) &&& m, x := (s.a ||| s.params.lxaMagic) &&& m }.setNZ
    ((s.a ||| s.params.lxaMagic) &&& m)

/-- What `TAS` does before it stores (R282): `SP` is `A & X`. -/
def opTas (s : State) : State := { s with sp := s.a &&& s.x }

/-- `ANE #$nn` (R277): opcode `0x8B`. -/
def execAneImm (b : Byte) (s : State) : Host.Outcome State Fault Refusal :=
  underPolicy 0x8B (runRead (.imm b) 2 false opAne) s

/-- `SHA ($nn),Y` (R279): opcode `0x93`. -/
def execShaIzy (b : Byte) (s : State) : Host.Outcome State Fault Refusal :=
  underPolicy 0x93 (runUnstableStore (.izy b) 6 id valSax) s

/-- `TAS $nnnn,Y` (R282): opcode `0x9B`. -/
def execTasAby (w : Addr) (s : State) : Host.Outcome State Fault Refusal :=
  underPolicy 0x9B (runUnstableStore (.aby w) 5 opTas State.sp) s

/-- `SHY $nnnn,X` (R281): opcode `0x9C`. -/
def execShyAbx (w : Addr) (s : State) : Host.Outcome State Fault Refusal :=
  underPolicy 0x9C (runUnstableStore (.abx w) 5 id valSty) s

/-- `SHX $nnnn,Y` (R280): opcode `0x9E`. -/
def execShxAby (w : Addr) (s : State) : Host.Outcome State Fault Refusal :=
  underPolicy 0x9E (runUnstableStore (.aby w) 5 id valStx) s

/-- `SHA $nnnn,Y` (R279): opcode `0x9F`. -/
def execShaAby (w : Addr) (s : State) : Host.Outcome State Fault Refusal :=
  underPolicy 0x9F (runUnstableStore (.aby w) 5 id valSax) s

/-- `LXA #$nn` (R278): opcode `0xAB`. -/
def execLxaImm (b : Byte) (s : State) : Host.Outcome State Fault Refusal :=
  underPolicy 0xAB (runRead (.imm b) 2 false opLxa) s

end Sys2Proof.Machine
end

