-- ==== Sys2Proof/Decode.lean ====
section
/-!
DEFINITION. The opcode matrix (spec/30_encoding.md R95), the decoder and the encoder. Decoding is a lookup of the whole
opcode byte (R94); the operand bytes follow it in ascending address order, the low byte first (R91, R93).
-/

namespace Sys2Proof

/-- The mnemonics of the matrix (R95). -/
inductive Mnemonic where
  | BRK | ORA | JAM | SLO | NOP | ASL | PHP | ANC
  | BPL | CLC | JSR | AND | RLA | BIT | ROL | PLP
  | BMI | SEC | RTI | EOR | SRE | LSR | PHA | ALR
  | JMP | BVC | CLI | RTS | ADC | RRA | ROR | PLA
  | ARR | BVS | SEI | STA | SAX | STY | STX | DEY
  | TXA | ANE | BCC | SHA | TYA | TXS | TAS | SHY
  | SHX | LDY | LDA | LDX | LAX | TAY | TAX | LXA
  | BCS | CLV | TSX | LAS | CPY | CMP | DCP | DEC
  | INY | DEX | SBX | BNE | CLD | CPX | SBC | ISB
  | INC | INX | BEQ | SED
  deriving DecidableEq, Repr

/-- The 13 addressing modes (R92). -/
inductive Mode where
  | imp | acc | imm | zp | zpx | zpy | rel | abs | abx | aby | ind | izx | izy
  deriving DecidableEq, Repr

/-- The operand bytes of a mode (R92). -/
def Mode.operandBytes : Mode → Nat
  | .imp => 0
  | .acc => 0
  | .imm => 1
  | .zp => 1
  | .zpx => 1
  | .zpy => 1
  | .rel => 1
  | .abs => 2
  | .abx => 2
  | .aby => 2
  | .ind => 2
  | .izx => 1
  | .izy => 1

/-- The class of an opcode (R95): documented, undocumented and stable, unstable, or halt. -/
inductive OpClass where
  | doc | undoc | unst | halt
  deriving DecidableEq, Repr

/-- A row of the matrix (R95). `cyc` is the base cost, 0 for the halt bytes, which have none; `pp` says whether the opcode
pays the page-crossing penalty (R98). -/
structure Row where
  mnemonic : Mnemonic
  mode : Mode
  cyc : Nat
  pp : Bool
  cls : OpClass
  deriving DecidableEq, Repr

/-- The length of an instruction (R90, R100). -/
def Row.len (r : Row) : Nat := 1 + r.mode.operandBytes

/-- Rows `0x00` to `0x0F` of the matrix (R95). -/
def matrixRows0 : List Row :=
  [ ⟨.BRK, .imp, 7, false, .doc⟩, ⟨.ORA, .izx, 6, false, .doc⟩, ⟨.JAM, .imp, 0, false, .halt⟩,
    ⟨.SLO, .izx, 8, false, .undoc⟩, ⟨.NOP, .zp, 3, false, .undoc⟩, ⟨.ORA, .zp, 3, false, .doc⟩,
    ⟨.ASL, .zp, 5, false, .doc⟩, ⟨.SLO, .zp, 5, false, .undoc⟩, ⟨.PHP, .imp, 3, false, .doc⟩,
    ⟨.ORA, .imm, 2, false, .doc⟩, ⟨.ASL, .acc, 2, false, .doc⟩, ⟨.ANC, .imm, 2, false, .undoc⟩,
    ⟨.NOP, .abs, 4, false, .undoc⟩, ⟨.ORA, .abs, 4, false, .doc⟩, ⟨.ASL, .abs, 6, false, .doc⟩,
    ⟨.SLO, .abs, 6, false, .undoc⟩ ]

/-- Rows `0x10` to `0x1F` of the matrix (R95). -/
def matrixRows1 : List Row :=
  [ ⟨.BPL, .rel, 2, false, .doc⟩, ⟨.ORA, .izy, 5, true, .doc⟩, ⟨.JAM, .imp, 0, false, .halt⟩,
    ⟨.SLO, .izy, 8, false, .undoc⟩, ⟨.NOP, .zpx, 4, false, .undoc⟩, ⟨.ORA, .zpx, 4, false, .doc⟩,
    ⟨.ASL, .zpx, 6, false, .doc⟩, ⟨.SLO, .zpx, 6, false, .undoc⟩, ⟨.CLC, .imp, 2, false, .doc⟩,
    ⟨.ORA, .aby, 4, true, .doc⟩, ⟨.NOP, .imp, 2, false, .undoc⟩, ⟨.SLO, .aby, 7, false, .undoc⟩,
    ⟨.NOP, .abx, 4, true, .undoc⟩, ⟨.ORA, .abx, 4, true, .doc⟩, ⟨.ASL, .abx, 7, false, .doc⟩,
    ⟨.SLO, .abx, 7, false, .undoc⟩ ]

/-- Rows `0x20` to `0x2F` of the matrix (R95). -/
def matrixRows2 : List Row :=
  [ ⟨.JSR, .abs, 6, false, .doc⟩, ⟨.AND, .izx, 6, false, .doc⟩, ⟨.JAM, .imp, 0, false, .halt⟩,
    ⟨.RLA, .izx, 8, false, .undoc⟩, ⟨.BIT, .zp, 3, false, .doc⟩, ⟨.AND, .zp, 3, false, .doc⟩,
    ⟨.ROL, .zp, 5, false, .doc⟩, ⟨.RLA, .zp, 5, false, .undoc⟩, ⟨.PLP, .imp, 4, false, .doc⟩,
    ⟨.AND, .imm, 2, false, .doc⟩, ⟨.ROL, .acc, 2, false, .doc⟩, ⟨.ANC, .imm, 2, false, .undoc⟩,
    ⟨.BIT, .abs, 4, false, .doc⟩, ⟨.AND, .abs, 4, false, .doc⟩, ⟨.ROL, .abs, 6, false, .doc⟩,
    ⟨.RLA, .abs, 6, false, .undoc⟩ ]

/-- Rows `0x30` to `0x3F` of the matrix (R95). -/
def matrixRows3 : List Row :=
  [ ⟨.BMI, .rel, 2, false, .doc⟩, ⟨.AND, .izy, 5, true, .doc⟩, ⟨.JAM, .imp, 0, false, .halt⟩,
    ⟨.RLA, .izy, 8, false, .undoc⟩, ⟨.NOP, .zpx, 4, false, .undoc⟩, ⟨.AND, .zpx, 4, false, .doc⟩,
    ⟨.ROL, .zpx, 6, false, .doc⟩, ⟨.RLA, .zpx, 6, false, .undoc⟩, ⟨.SEC, .imp, 2, false, .doc⟩,
    ⟨.AND, .aby, 4, true, .doc⟩, ⟨.NOP, .imp, 2, false, .undoc⟩, ⟨.RLA, .aby, 7, false, .undoc⟩,
    ⟨.NOP, .abx, 4, true, .undoc⟩, ⟨.AND, .abx, 4, true, .doc⟩, ⟨.ROL, .abx, 7, false, .doc⟩,
    ⟨.RLA, .abx, 7, false, .undoc⟩ ]

/-- Rows `0x40` to `0x4F` of the matrix (R95). -/
def matrixRows4 : List Row :=
  [ ⟨.RTI, .imp, 6, false, .doc⟩, ⟨.EOR, .izx, 6, false, .doc⟩, ⟨.JAM, .imp, 0, false, .halt⟩,
    ⟨.SRE, .izx, 8, false, .undoc⟩, ⟨.NOP, .zp, 3, false, .undoc⟩, ⟨.EOR, .zp, 3, false, .doc⟩,
    ⟨.LSR, .zp, 5, false, .doc⟩, ⟨.SRE, .zp, 5, false, .undoc⟩, ⟨.PHA, .imp, 3, false, .doc⟩,
    ⟨.EOR, .imm, 2, false, .doc⟩, ⟨.LSR, .acc, 2, false, .doc⟩, ⟨.ALR, .imm, 2, false, .undoc⟩,
    ⟨.JMP, .abs, 3, false, .doc⟩, ⟨.EOR, .abs, 4, false, .doc⟩, ⟨.LSR, .abs, 6, false, .doc⟩,
    ⟨.SRE, .abs, 6, false, .undoc⟩ ]

/-- Rows `0x50` to `0x5F` of the matrix (R95). -/
def matrixRows5 : List Row :=
  [ ⟨.BVC, .rel, 2, false, .doc⟩, ⟨.EOR, .izy, 5, true, .doc⟩, ⟨.JAM, .imp, 0, false, .halt⟩,
    ⟨.SRE, .izy, 8, false, .undoc⟩, ⟨.NOP, .zpx, 4, false, .undoc⟩, ⟨.EOR, .zpx, 4, false, .doc⟩,
    ⟨.LSR, .zpx, 6, false, .doc⟩, ⟨.SRE, .zpx, 6, false, .undoc⟩, ⟨.CLI, .imp, 2, false, .doc⟩,
    ⟨.EOR, .aby, 4, true, .doc⟩, ⟨.NOP, .imp, 2, false, .undoc⟩, ⟨.SRE, .aby, 7, false, .undoc⟩,
    ⟨.NOP, .abx, 4, true, .undoc⟩, ⟨.EOR, .abx, 4, true, .doc⟩, ⟨.LSR, .abx, 7, false, .doc⟩,
    ⟨.SRE, .abx, 7, false, .undoc⟩ ]

/-- Rows `0x60` to `0x6F` of the matrix (R95). -/
def matrixRows6 : List Row :=
  [ ⟨.RTS, .imp, 6, false, .doc⟩, ⟨.ADC, .izx, 6, false, .doc⟩, ⟨.JAM, .imp, 0, false, .halt⟩,
    ⟨.RRA, .izx, 8, false, .undoc⟩, ⟨.NOP, .zp, 3, false, .undoc⟩, ⟨.ADC, .zp, 3, false, .doc⟩,
    ⟨.ROR, .zp, 5, false, .doc⟩, ⟨.RRA, .zp, 5, false, .undoc⟩, ⟨.PLA, .imp, 4, false, .doc⟩,
    ⟨.ADC, .imm, 2, false, .doc⟩, ⟨.ROR, .acc, 2, false, .doc⟩, ⟨.ARR, .imm, 2, false, .undoc⟩,
    ⟨.JMP, .ind, 5, false, .doc⟩, ⟨.ADC, .abs, 4, false, .doc⟩, ⟨.ROR, .abs, 6, false, .doc⟩,
    ⟨.RRA, .abs, 6, false, .undoc⟩ ]

/-- Rows `0x70` to `0x7F` of the matrix (R95). -/
def matrixRows7 : List Row :=
  [ ⟨.BVS, .rel, 2, false, .doc⟩, ⟨.ADC, .izy, 5, true, .doc⟩, ⟨.JAM, .imp, 0, false, .halt⟩,
    ⟨.RRA, .izy, 8, false, .undoc⟩, ⟨.NOP, .zpx, 4, false, .undoc⟩, ⟨.ADC, .zpx, 4, false, .doc⟩,
    ⟨.ROR, .zpx, 6, false, .doc⟩, ⟨.RRA, .zpx, 6, false, .undoc⟩, ⟨.SEI, .imp, 2, false, .doc⟩,
    ⟨.ADC, .aby, 4, true, .doc⟩, ⟨.NOP, .imp, 2, false, .undoc⟩, ⟨.RRA, .aby, 7, false, .undoc⟩,
    ⟨.NOP, .abx, 4, true, .undoc⟩, ⟨.ADC, .abx, 4, true, .doc⟩, ⟨.ROR, .abx, 7, false, .doc⟩,
    ⟨.RRA, .abx, 7, false, .undoc⟩ ]

/-- Rows `0x80` to `0x8F` of the matrix (R95). -/
def matrixRows8 : List Row :=
  [ ⟨.NOP, .imm, 2, false, .undoc⟩, ⟨.STA, .izx, 6, false, .doc⟩, ⟨.NOP, .imm, 2, false, .undoc⟩,
    ⟨.SAX, .izx, 6, false, .undoc⟩, ⟨.STY, .zp, 3, false, .doc⟩, ⟨.STA, .zp, 3, false, .doc⟩,
    ⟨.STX, .zp, 3, false, .doc⟩, ⟨.SAX, .zp, 3, false, .undoc⟩, ⟨.DEY, .imp, 2, false, .doc⟩,
    ⟨.NOP, .imm, 2, false, .undoc⟩, ⟨.TXA, .imp, 2, false, .doc⟩, ⟨.ANE, .imm, 2, false, .unst⟩,
    ⟨.STY, .abs, 4, false, .doc⟩, ⟨.STA, .abs, 4, false, .doc⟩, ⟨.STX, .abs, 4, false, .doc⟩,
    ⟨.SAX, .abs, 4, false, .undoc⟩ ]

/-- Rows `0x90` to `0x9F` of the matrix (R95). -/
def matrixRows9 : List Row :=
  [ ⟨.BCC, .rel, 2, false, .doc⟩, ⟨.STA, .izy, 6, false, .doc⟩, ⟨.JAM, .imp, 0, false, .halt⟩,
    ⟨.SHA, .izy, 6, false, .unst⟩, ⟨.STY, .zpx, 4, false, .doc⟩, ⟨.STA, .zpx, 4, false, .doc⟩,
    ⟨.STX, .zpy, 4, false, .doc⟩, ⟨.SAX, .zpy, 4, false, .undoc⟩, ⟨.TYA, .imp, 2, false, .doc⟩,
    ⟨.STA, .aby, 5, false, .doc⟩, ⟨.TXS, .imp, 2, false, .doc⟩, ⟨.TAS, .aby, 5, false, .unst⟩,
    ⟨.SHY, .abx, 5, false, .unst⟩, ⟨.STA, .abx, 5, false, .doc⟩, ⟨.SHX, .aby, 5, false, .unst⟩,
    ⟨.SHA, .aby, 5, false, .unst⟩ ]

/-- Rows `0xA0` to `0xAF` of the matrix (R95). -/
def matrixRowsA : List Row :=
  [ ⟨.LDY, .imm, 2, false, .doc⟩, ⟨.LDA, .izx, 6, false, .doc⟩, ⟨.LDX, .imm, 2, false, .doc⟩,
    ⟨.LAX, .izx, 6, false, .undoc⟩, ⟨.LDY, .zp, 3, false, .doc⟩, ⟨.LDA, .zp, 3, false, .doc⟩,
    ⟨.LDX, .zp, 3, false, .doc⟩, ⟨.LAX, .zp, 3, false, .undoc⟩, ⟨.TAY, .imp, 2, false, .doc⟩,
    ⟨.LDA, .imm, 2, false, .doc⟩, ⟨.TAX, .imp, 2, false, .doc⟩, ⟨.LXA, .imm, 2, false, .unst⟩,
    ⟨.LDY, .abs, 4, false, .doc⟩, ⟨.LDA, .abs, 4, false, .doc⟩, ⟨.LDX, .abs, 4, false, .doc⟩,
    ⟨.LAX, .abs, 4, false, .undoc⟩ ]

/-- Rows `0xB0` to `0xBF` of the matrix (R95). -/
def matrixRowsB : List Row :=
  [ ⟨.BCS, .rel, 2, false, .doc⟩, ⟨.LDA, .izy, 5, true, .doc⟩, ⟨.JAM, .imp, 0, false, .halt⟩,
    ⟨.LAX, .izy, 5, true, .undoc⟩, ⟨.LDY, .zpx, 4, false, .doc⟩, ⟨.LDA, .zpx, 4, false, .doc⟩,
    ⟨.LDX, .zpy, 4, false, .doc⟩, ⟨.LAX, .zpy, 4, false, .undoc⟩, ⟨.CLV, .imp, 2, false, .doc⟩,
    ⟨.LDA, .aby, 4, true, .doc⟩, ⟨.TSX, .imp, 2, false, .doc⟩, ⟨.LAS, .aby, 4, true, .undoc⟩,
    ⟨.LDY, .abx, 4, true, .doc⟩, ⟨.LDA, .abx, 4, true, .doc⟩, ⟨.LDX, .aby, 4, true, .doc⟩,
    ⟨.LAX, .aby, 4, true, .undoc⟩ ]

/-- Rows `0xC0` to `0xCF` of the matrix (R95). -/
def matrixRowsC : List Row :=
  [ ⟨.CPY, .imm, 2, false, .doc⟩, ⟨.CMP, .izx, 6, false, .doc⟩, ⟨.NOP, .imm, 2, false, .undoc⟩,
    ⟨.DCP, .izx, 8, false, .undoc⟩, ⟨.CPY, .zp, 3, false, .doc⟩, ⟨.CMP, .zp, 3, false, .doc⟩,
    ⟨.DEC, .zp, 5, false, .doc⟩, ⟨.DCP, .zp, 5, false, .undoc⟩, ⟨.INY, .imp, 2, false, .doc⟩,
    ⟨.CMP, .imm, 2, false, .doc⟩, ⟨.DEX, .imp, 2, false, .doc⟩, ⟨.SBX, .imm, 2, false, .undoc⟩,
    ⟨.CPY, .abs, 4, false, .doc⟩, ⟨.CMP, .abs, 4, false, .doc⟩, ⟨.DEC, .abs, 6, false, .doc⟩,
    ⟨.DCP, .abs, 6, false, .undoc⟩ ]

/-- Rows `0xD0` to `0xDF` of the matrix (R95). -/
def matrixRowsD : List Row :=
  [ ⟨.BNE, .rel, 2, false, .doc⟩, ⟨.CMP, .izy, 5, true, .doc⟩, ⟨.JAM, .imp, 0, false, .halt⟩,
    ⟨.DCP, .izy, 8, false, .undoc⟩, ⟨.NOP, .zpx, 4, false, .undoc⟩, ⟨.CMP, .zpx, 4, false, .doc⟩,
    ⟨.DEC, .zpx, 6, false, .doc⟩, ⟨.DCP, .zpx, 6, false, .undoc⟩, ⟨.CLD, .imp, 2, false, .doc⟩,
    ⟨.CMP, .aby, 4, true, .doc⟩, ⟨.NOP, .imp, 2, false, .undoc⟩, ⟨.DCP, .aby, 7, false, .undoc⟩,
    ⟨.NOP, .abx, 4, true, .undoc⟩, ⟨.CMP, .abx, 4, true, .doc⟩, ⟨.DEC, .abx, 7, false, .doc⟩,
    ⟨.DCP, .abx, 7, false, .undoc⟩ ]

/-- Rows `0xE0` to `0xEF` of the matrix (R95). -/
def matrixRowsE : List Row :=
  [ ⟨.CPX, .imm, 2, false, .doc⟩, ⟨.SBC, .izx, 6, false, .doc⟩, ⟨.NOP, .imm, 2, false, .undoc⟩,
    ⟨.ISB, .izx, 8, false, .undoc⟩, ⟨.CPX, .zp, 3, false, .doc⟩, ⟨.SBC, .zp, 3, false, .doc⟩,
    ⟨.INC, .zp, 5, false, .doc⟩, ⟨.ISB, .zp, 5, false, .undoc⟩, ⟨.INX, .imp, 2, false, .doc⟩,
    ⟨.SBC, .imm, 2, false, .doc⟩, ⟨.NOP, .imp, 2, false, .doc⟩, ⟨.SBC, .imm, 2, false, .undoc⟩,
    ⟨.CPX, .abs, 4, false, .doc⟩, ⟨.SBC, .abs, 4, false, .doc⟩, ⟨.INC, .abs, 6, false, .doc⟩,
    ⟨.ISB, .abs, 6, false, .undoc⟩ ]

/-- Rows `0xF0` to `0xFF` of the matrix (R95). -/
def matrixRowsF : List Row :=
  [ ⟨.BEQ, .rel, 2, false, .doc⟩, ⟨.SBC, .izy, 5, true, .doc⟩, ⟨.JAM, .imp, 0, false, .halt⟩,
    ⟨.ISB, .izy, 8, false, .undoc⟩, ⟨.NOP, .zpx, 4, false, .undoc⟩, ⟨.SBC, .zpx, 4, false, .doc⟩,
    ⟨.INC, .zpx, 6, false, .doc⟩, ⟨.ISB, .zpx, 6, false, .undoc⟩, ⟨.SED, .imp, 2, false, .doc⟩,
    ⟨.SBC, .aby, 4, true, .doc⟩, ⟨.NOP, .imp, 2, false, .undoc⟩, ⟨.ISB, .aby, 7, false, .undoc⟩,
    ⟨.NOP, .abx, 4, true, .undoc⟩, ⟨.SBC, .abx, 4, true, .doc⟩, ⟨.INC, .abx, 7, false, .doc⟩,
    ⟨.ISB, .abx, 7, false, .undoc⟩ ]

/-- The opcode matrix (R95): the row of opcode byte `k` is entry `k`. -/
def matrix : List Row :=
  matrixRows0 ++ matrixRows1 ++ matrixRows2 ++ matrixRows3 ++ matrixRows4 ++ matrixRows5 ++ matrixRows6 ++ matrixRows7 ++
    matrixRows8 ++ matrixRows9 ++ matrixRowsA ++ matrixRowsB ++ matrixRowsC ++ matrixRowsD ++ matrixRowsE ++ matrixRowsF

/-- `MATRIX[opcode]` (R97). The list has an entry for every byte (R96), so the default is never taken. -/
def rowOf (opcode : Byte) : Row := matrix.getD opcode.toNat ⟨.JAM, .imp, 0, false, .halt⟩

/-- The instructions of opcode bytes `0x00` to `0x0F`, from the two bytes after the opcode (R95). -/
def buildRows0 : List (Byte → Byte → Instr) :=
  [ fun _ _ => .brk, fun b _ => .oraIzx b, fun _ _ => .jam02,
    fun b _ => .sloIzx b, fun b _ => .nopZp04 b, fun b _ => .oraZp b,
    fun b _ => .aslZp b, fun b _ => .sloZp b, fun _ _ => .php,
    fun b _ => .oraImm b, fun _ _ => .aslAcc, fun b _ => .ancImm0B b,
    fun l h => .nopAbs (Machine.wordOf h l), fun l h => .oraAbs (Machine.wordOf h l), fun l h => .aslAbs (Machine.wordOf h l),
    fun l h => .sloAbs (Machine.wordOf h l) ]

/-- The instructions of opcode bytes `0x10` to `0x1F`, from the two bytes after the opcode (R95). -/
def buildRows1 : List (Byte → Byte → Instr) :=
  [ fun b _ => .bpl b, fun b _ => .oraIzy b, fun _ _ => .jam12,
    fun b _ => .sloIzy b, fun b _ => .nopZpx14 b, fun b _ => .oraZpx b,
    fun b _ => .aslZpx b, fun b _ => .sloZpx b, fun _ _ => .clc,
    fun l h => .oraAby (Machine.wordOf h l), fun _ _ => .nop1A, fun l h => .sloAby (Machine.wordOf h l),
    fun l h => .nopAbx1C (Machine.wordOf h l), fun l h => .oraAbx (Machine.wordOf h l), fun l h => .aslAbx (Machine.wordOf h l),
    fun l h => .sloAbx (Machine.wordOf h l) ]

/-- The instructions of opcode bytes `0x20` to `0x2F`, from the two bytes after the opcode (R95). -/
def buildRows2 : List (Byte → Byte → Instr) :=
  [ fun l h => .jsrAbs (Machine.wordOf h l), fun b _ => .andIzx b, fun _ _ => .jam22,
    fun b _ => .rlaIzx b, fun b _ => .bitZp b, fun b _ => .andZp b,
    fun b _ => .rolZp b, fun b _ => .rlaZp b, fun _ _ => .plp,
    fun b _ => .andImm b, fun _ _ => .rolAcc, fun b _ => .ancImm2B b,
    fun l h => .bitAbs (Machine.wordOf h l), fun l h => .andAbs (Machine.wordOf h l), fun l h => .rolAbs (Machine.wordOf h l),
    fun l h => .rlaAbs (Machine.wordOf h l) ]

/-- The instructions of opcode bytes `0x30` to `0x3F`, from the two bytes after the opcode (R95). -/
def buildRows3 : List (Byte → Byte → Instr) :=
  [ fun b _ => .bmi b, fun b _ => .andIzy b, fun _ _ => .jam32,
    fun b _ => .rlaIzy b, fun b _ => .nopZpx34 b, fun b _ => .andZpx b,
    fun b _ => .rolZpx b, fun b _ => .rlaZpx b, fun _ _ => .sec,
    fun l h => .andAby (Machine.wordOf h l), fun _ _ => .nop3A, fun l h => .rlaAby (Machine.wordOf h l),
    fun l h => .nopAbx3C (Machine.wordOf h l), fun l h => .andAbx (Machine.wordOf h l), fun l h => .rolAbx (Machine.wordOf h l),
    fun l h => .rlaAbx (Machine.wordOf h l) ]

/-- The instructions of opcode bytes `0x40` to `0x4F`, from the two bytes after the opcode (R95). -/
def buildRows4 : List (Byte → Byte → Instr) :=
  [ fun _ _ => .rti, fun b _ => .eorIzx b, fun _ _ => .jam42,
    fun b _ => .sreIzx b, fun b _ => .nopZp44 b, fun b _ => .eorZp b,
    fun b _ => .lsrZp b, fun b _ => .sreZp b, fun _ _ => .pha,
    fun b _ => .eorImm b, fun _ _ => .lsrAcc, fun b _ => .alrImm b,
    fun l h => .jmpAbs (Machine.wordOf h l), fun l h => .eorAbs (Machine.wordOf h l), fun l h => .lsrAbs (Machine.wordOf h l),
    fun l h => .sreAbs (Machine.wordOf h l) ]

/-- The instructions of opcode bytes `0x50` to `0x5F`, from the two bytes after the opcode (R95). -/
def buildRows5 : List (Byte → Byte → Instr) :=
  [ fun b _ => .bvc b, fun b _ => .eorIzy b, fun _ _ => .jam52,
    fun b _ => .sreIzy b, fun b _ => .nopZpx54 b, fun b _ => .eorZpx b,
    fun b _ => .lsrZpx b, fun b _ => .sreZpx b, fun _ _ => .cli,
    fun l h => .eorAby (Machine.wordOf h l), fun _ _ => .nop5A, fun l h => .sreAby (Machine.wordOf h l),
    fun l h => .nopAbx5C (Machine.wordOf h l), fun l h => .eorAbx (Machine.wordOf h l), fun l h => .lsrAbx (Machine.wordOf h l),
    fun l h => .sreAbx (Machine.wordOf h l) ]

/-- The instructions of opcode bytes `0x60` to `0x6F`, from the two bytes after the opcode (R95). -/
def buildRows6 : List (Byte → Byte → Instr) :=
  [ fun _ _ => .rts, fun b _ => .adcIzx b, fun _ _ => .jam62,
    fun b _ => .rraIzx b, fun b _ => .nopZp64 b, fun b _ => .adcZp b,
    fun b _ => .rorZp b, fun b _ => .rraZp b, fun _ _ => .pla,
    fun b _ => .adcImm b, fun _ _ => .rorAcc, fun b _ => .arrImm b,
    fun l h => .jmpInd (Machine.wordOf h l), fun l h => .adcAbs (Machine.wordOf h l), fun l h => .rorAbs (Machine.wordOf h l),
    fun l h => .rraAbs (Machine.wordOf h l) ]

/-- The instructions of opcode bytes `0x70` to `0x7F`, from the two bytes after the opcode (R95). -/
def buildRows7 : List (Byte → Byte → Instr) :=
  [ fun b _ => .bvs b, fun b _ => .adcIzy b, fun _ _ => .jam72,
    fun b _ => .rraIzy b, fun b _ => .nopZpx74 b, fun b _ => .adcZpx b,
    fun b _ => .rorZpx b, fun b _ => .rraZpx b, fun _ _ => .sei,
    fun l h => .adcAby (Machine.wordOf h l), fun _ _ => .nop7A, fun l h => .rraAby (Machine.wordOf h l),
    fun l h => .nopAbx7C (Machine.wordOf h l), fun l h => .adcAbx (Machine.wordOf h l), fun l h => .rorAbx (Machine.wordOf h l),
    fun l h => .rraAbx (Machine.wordOf h l) ]

/-- The instructions of opcode bytes `0x80` to `0x8F`, from the two bytes after the opcode (R95). -/
def buildRows8 : List (Byte → Byte → Instr) :=
  [ fun b _ => .nopImm80 b, fun b _ => .staIzx b, fun b _ => .nopImm82 b,
    fun b _ => .saxIzx b, fun b _ => .styZp b, fun b _ => .staZp b,
    fun b _ => .stxZp b, fun b _ => .saxZp b, fun _ _ => .dey,
    fun b _ => .nopImm89 b, fun _ _ => .txa, fun b _ => .aneImm b,
    fun l h => .styAbs (Machine.wordOf h l), fun l h => .staAbs (Machine.wordOf h l), fun l h => .stxAbs (Machine.wordOf h l),
    fun l h => .saxAbs (Machine.wordOf h l) ]

/-- The instructions of opcode bytes `0x90` to `0x9F`, from the two bytes after the opcode (R95). -/
def buildRows9 : List (Byte → Byte → Instr) :=
  [ fun b _ => .bcc b, fun b _ => .staIzy b, fun _ _ => .jam92,
    fun b _ => .shaIzy b, fun b _ => .styZpx b, fun b _ => .staZpx b,
    fun b _ => .stxZpy b, fun b _ => .saxZpy b, fun _ _ => .tya,
    fun l h => .staAby (Machine.wordOf h l), fun _ _ => .txs, fun l h => .tasAby (Machine.wordOf h l),
    fun l h => .shyAbx (Machine.wordOf h l), fun l h => .staAbx (Machine.wordOf h l), fun l h => .shxAby (Machine.wordOf h l),
    fun l h => .shaAby (Machine.wordOf h l) ]

/-- The instructions of opcode bytes `0xA0` to `0xAF`, from the two bytes after the opcode (R95). -/
def buildRowsA : List (Byte → Byte → Instr) :=
  [ fun b _ => .ldyImm b, fun b _ => .ldaIzx b, fun b _ => .ldxImm b,
    fun b _ => .laxIzx b, fun b _ => .ldyZp b, fun b _ => .ldaZp b,
    fun b _ => .ldxZp b, fun b _ => .laxZp b, fun _ _ => .tay,
    fun b _ => .ldaImm b, fun _ _ => .tax, fun b _ => .lxaImm b,
    fun l h => .ldyAbs (Machine.wordOf h l), fun l h => .ldaAbs (Machine.wordOf h l), fun l h => .ldxAbs (Machine.wordOf h l),
    fun l h => .laxAbs (Machine.wordOf h l) ]

/-- The instructions of opcode bytes `0xB0` to `0xBF`, from the two bytes after the opcode (R95). -/
def buildRowsB : List (Byte → Byte → Instr) :=
  [ fun b _ => .bcs b, fun b _ => .ldaIzy b, fun _ _ => .jamB2,
    fun b _ => .laxIzy b, fun b _ => .ldyZpx b, fun b _ => .ldaZpx b,
    fun b _ => .ldxZpy b, fun b _ => .laxZpy b, fun _ _ => .clv,
    fun l h => .ldaAby (Machine.wordOf h l), fun _ _ => .tsx, fun l h => .lasAby (Machine.wordOf h l),
    fun l h => .ldyAbx (Machine.wordOf h l), fun l h => .ldaAbx (Machine.wordOf h l), fun l h => .ldxAby (Machine.wordOf h l),
    fun l h => .laxAby (Machine.wordOf h l) ]

/-- The instructions of opcode bytes `0xC0` to `0xCF`, from the two bytes after the opcode (R95). -/
def buildRowsC : List (Byte → Byte → Instr) :=
  [ fun b _ => .cpyImm b, fun b _ => .cmpIzx b, fun b _ => .nopImmC2 b,
    fun b _ => .dcpIzx b, fun b _ => .cpyZp b, fun b _ => .cmpZp b,
    fun b _ => .decZp b, fun b _ => .dcpZp b, fun _ _ => .iny,
    fun b _ => .cmpImm b, fun _ _ => .dex, fun b _ => .sbxImm b,
    fun l h => .cpyAbs (Machine.wordOf h l), fun l h => .cmpAbs (Machine.wordOf h l), fun l h => .decAbs (Machine.wordOf h l),
    fun l h => .dcpAbs (Machine.wordOf h l) ]

/-- The instructions of opcode bytes `0xD0` to `0xDF`, from the two bytes after the opcode (R95). -/
def buildRowsD : List (Byte → Byte → Instr) :=
  [ fun b _ => .bne b, fun b _ => .cmpIzy b, fun _ _ => .jamD2,
    fun b _ => .dcpIzy b, fun b _ => .nopZpxD4 b, fun b _ => .cmpZpx b,
    fun b _ => .decZpx b, fun b _ => .dcpZpx b, fun _ _ => .cld,
    fun l h => .cmpAby (Machine.wordOf h l), fun _ _ => .nopDA, fun l h => .dcpAby (Machine.wordOf h l),
    fun l h => .nopAbxDC (Machine.wordOf h l), fun l h => .cmpAbx (Machine.wordOf h l), fun l h => .decAbx (Machine.wordOf h l),
    fun l h => .dcpAbx (Machine.wordOf h l) ]

/-- The instructions of opcode bytes `0xE0` to `0xEF`, from the two bytes after the opcode (R95). -/
def buildRowsE : List (Byte → Byte → Instr) :=
  [ fun b _ => .cpxImm b, fun b _ => .sbcIzx b, fun b _ => .nopImmE2 b,
    fun b _ => .isbIzx b, fun b _ => .cpxZp b, fun b _ => .sbcZp b,
    fun b _ => .incZp b, fun b _ => .isbZp b, fun _ _ => .inx,
    fun b _ => .sbcImm b, fun _ _ => .nop, fun b _ => .sbcImmEB b,
    fun l h => .cpxAbs (Machine.wordOf h l), fun l h => .sbcAbs (Machine.wordOf h l), fun l h => .incAbs (Machine.wordOf h l),
    fun l h => .isbAbs (Machine.wordOf h l) ]

/-- The instructions of opcode bytes `0xF0` to `0xFF`, from the two bytes after the opcode (R95). -/
def buildRowsF : List (Byte → Byte → Instr) :=
  [ fun b _ => .beq b, fun b _ => .sbcIzy b, fun _ _ => .jamF2,
    fun b _ => .isbIzy b, fun b _ => .nopZpxF4 b, fun b _ => .sbcZpx b,
    fun b _ => .incZpx b, fun b _ => .isbZpx b, fun _ _ => .sed,
    fun l h => .sbcAby (Machine.wordOf h l), fun _ _ => .nopFA, fun l h => .isbAby (Machine.wordOf h l),
    fun l h => .nopAbxFC (Machine.wordOf h l), fun l h => .sbcAbx (Machine.wordOf h l), fun l h => .incAbx (Machine.wordOf h l),
    fun l h => .isbAbx (Machine.wordOf h l) ]

/-- The instruction of every opcode byte (R95). -/
def builders : List (Byte → Byte → Instr) :=
  buildRows0 ++ buildRows1 ++ buildRows2 ++ buildRows3 ++ buildRows4 ++ buildRows5 ++ buildRows6 ++ buildRows7 ++
    buildRows8 ++ buildRows9 ++ buildRowsA ++ buildRowsB ++ buildRowsC ++ buildRowsD ++ buildRowsE ++ buildRowsF

/-- The instruction of an opcode byte and the two bytes after it; a shorter instruction does not look at the bytes it does
not have (R94). -/
def instrOf (opcode b1 b2 : Byte) : Instr := builders.getD opcode.toNat (fun _ _ => .jam02) b1 b2

/-- Why bytes are not an instruction: every opcode byte has a row (R96), so only bytes that are missing. -/
inductive DecodeError where
  /-- There is no opcode byte. Safe: nothing is decoded. -/
  | noOpcode
  /-- The operand bytes of this opcode are not all there. Safe: nothing is decoded. -/
  | truncated (opcode : Byte)
  deriving DecidableEq, Repr

/-- The instruction at the head of a list of bytes, in ascending address order, with the bytes after it (R91, R100). -/
def decode : List Byte → Except DecodeError (Instr × List Byte)
  | [] => .error .noOpcode
  | op :: rest =>
    match (rowOf op).mode.operandBytes, rest with
    | 0, rest => .ok (instrOf op 0 0, rest)
    | 1, b1 :: rest => .ok (instrOf op b1 0, rest)
    | 2, b1 :: b2 :: rest => .ok (instrOf op b1 b2, rest)
    | _, _ => .error (.truncated op)

/-- The instruction whose bits are `w`, numbered as spec/opcode_table.json numbers them; the bits above `nbits` are 0. -/
def decodeTableWord (nbits w : Nat) : Option Instr :=
  let v := w % 2 ^ nbits
  match decode [BitVec.ofNat 8 v, BitVec.ofNat 8 (v / 256), BitVec.ofNat 8 (v / 65536)] with
  | .ok (i, _) => some i
  | .error _ => none

/-- The opcode byte of an instruction (R95). -/
def Instr.opcode : Instr → Byte
  | .brk => 0x00
  | .oraIzx _ => 0x01
  | .jam02 => 0x02
  | .sloIzx _ => 0x03
  | .nopZp04 _ => 0x04
  | .oraZp _ => 0x05
  | .aslZp _ => 0x06
  | .sloZp _ => 0x07
  | .php => 0x08
  | .oraImm _ => 0x09
  | .aslAcc => 0x0A
  | .ancImm0B _ => 0x0B
  | .nopAbs _ => 0x0C
  | .oraAbs _ => 0x0D
  | .aslAbs _ => 0x0E
  | .sloAbs _ => 0x0F
  | .bpl _ => 0x10
  | .oraIzy _ => 0x11
  | .jam12 => 0x12
  | .sloIzy _ => 0x13
  | .nopZpx14 _ => 0x14
  | .oraZpx _ => 0x15
  | .aslZpx _ => 0x16
  | .sloZpx _ => 0x17
  | .clc => 0x18
  | .oraAby _ => 0x19
  | .nop1A => 0x1A
  | .sloAby _ => 0x1B
  | .nopAbx1C _ => 0x1C
  | .oraAbx _ => 0x1D
  | .aslAbx _ => 0x1E
  | .sloAbx _ => 0x1F
  | .jsrAbs _ => 0x20
  | .andIzx _ => 0x21
  | .jam22 => 0x22
  | .rlaIzx _ => 0x23
  | .bitZp _ => 0x24
  | .andZp _ => 0x25
  | .rolZp _ => 0x26
  | .rlaZp _ => 0x27
  | .plp => 0x28
  | .andImm _ => 0x29
  | .rolAcc => 0x2A
  | .ancImm2B _ => 0x2B
  | .bitAbs _ => 0x2C
  | .andAbs _ => 0x2D
  | .rolAbs _ => 0x2E
  | .rlaAbs _ => 0x2F
  | .bmi _ => 0x30
  | .andIzy _ => 0x31
  | .jam32 => 0x32
  | .rlaIzy _ => 0x33
  | .nopZpx34 _ => 0x34
  | .andZpx _ => 0x35
  | .rolZpx _ => 0x36
  | .rlaZpx _ => 0x37
  | .sec => 0x38
  | .andAby _ => 0x39
  | .nop3A => 0x3A
  | .rlaAby _ => 0x3B
  | .nopAbx3C _ => 0x3C
  | .andAbx _ => 0x3D
  | .rolAbx _ => 0x3E
  | .rlaAbx _ => 0x3F
  | .rti => 0x40
  | .eorIzx _ => 0x41
  | .jam42 => 0x42
  | .sreIzx _ => 0x43
  | .nopZp44 _ => 0x44
  | .eorZp _ => 0x45
  | .lsrZp _ => 0x46
  | .sreZp _ => 0x47
  | .pha => 0x48
  | .eorImm _ => 0x49
  | .lsrAcc => 0x4A
  | .alrImm _ => 0x4B
  | .jmpAbs _ => 0x4C
  | .eorAbs _ => 0x4D
  | .lsrAbs _ => 0x4E
  | .sreAbs _ => 0x4F
  | .bvc _ => 0x50
  | .eorIzy _ => 0x51
  | .jam52 => 0x52
  | .sreIzy _ => 0x53
  | .nopZpx54 _ => 0x54
  | .eorZpx _ => 0x55
  | .lsrZpx _ => 0x56
  | .sreZpx _ => 0x57
  | .cli => 0x58
  | .eorAby _ => 0x59
  | .nop5A => 0x5A
  | .sreAby _ => 0x5B
  | .nopAbx5C _ => 0x5C
  | .eorAbx _ => 0x5D
  | .lsrAbx _ => 0x5E
  | .sreAbx _ => 0x5F
  | .rts => 0x60
  | .adcIzx _ => 0x61
  | .jam62 => 0x62
  | .rraIzx _ => 0x63
  | .nopZp64 _ => 0x64
  | .adcZp _ => 0x65
  | .rorZp _ => 0x66
  | .rraZp _ => 0x67
  | .pla => 0x68
  | .adcImm _ => 0x69
  | .rorAcc => 0x6A
  | .arrImm _ => 0x6B
  | .jmpInd _ => 0x6C
  | .adcAbs _ => 0x6D
  | .rorAbs _ => 0x6E
  | .rraAbs _ => 0x6F
  | .bvs _ => 0x70
  | .adcIzy _ => 0x71
  | .jam72 => 0x72
  | .rraIzy _ => 0x73
  | .nopZpx74 _ => 0x74
  | .adcZpx _ => 0x75
  | .rorZpx _ => 0x76
  | .rraZpx _ => 0x77
  | .sei => 0x78
  | .adcAby _ => 0x79
  | .nop7A => 0x7A
  | .rraAby _ => 0x7B
  | .nopAbx7C _ => 0x7C
  | .adcAbx _ => 0x7D
  | .rorAbx _ => 0x7E
  | .rraAbx _ => 0x7F
  | .nopImm80 _ => 0x80
  | .staIzx _ => 0x81
  | .nopImm82 _ => 0x82
  | .saxIzx _ => 0x83
  | .styZp _ => 0x84
  | .staZp _ => 0x85
  | .stxZp _ => 0x86
  | .saxZp _ => 0x87
  | .dey => 0x88
  | .nopImm89 _ => 0x89
  | .txa => 0x8A
  | .aneImm _ => 0x8B
  | .styAbs _ => 0x8C
  | .staAbs _ => 0x8D
  | .stxAbs _ => 0x8E
  | .saxAbs _ => 0x8F
  | .bcc _ => 0x90
  | .staIzy _ => 0x91
  | .jam92 => 0x92
  | .shaIzy _ => 0x93
  | .styZpx _ => 0x94
  | .staZpx _ => 0x95
  | .stxZpy _ => 0x96
  | .saxZpy _ => 0x97
  | .tya => 0x98
  | .staAby _ => 0x99
  | .txs => 0x9A
  | .tasAby _ => 0x9B
  | .shyAbx _ => 0x9C
  | .staAbx _ => 0x9D
  | .shxAby _ => 0x9E
  | .shaAby _ => 0x9F
  | .ldyImm _ => 0xA0
  | .ldaIzx _ => 0xA1
  | .ldxImm _ => 0xA2
  | .laxIzx _ => 0xA3
  | .ldyZp _ => 0xA4
  | .ldaZp _ => 0xA5
  | .ldxZp _ => 0xA6
  | .laxZp _ => 0xA7
  | .tay => 0xA8
  | .ldaImm _ => 0xA9
  | .tax => 0xAA
  | .lxaImm _ => 0xAB
  | .ldyAbs _ => 0xAC
  | .ldaAbs _ => 0xAD
  | .ldxAbs _ => 0xAE
  | .laxAbs _ => 0xAF
  | .bcs _ => 0xB0
  | .ldaIzy _ => 0xB1
  | .jamB2 => 0xB2
  | .laxIzy _ => 0xB3
  | .ldyZpx _ => 0xB4
  | .ldaZpx _ => 0xB5
  | .ldxZpy _ => 0xB6
  | .laxZpy _ => 0xB7
  | .clv => 0xB8
  | .ldaAby _ => 0xB9
  | .tsx => 0xBA
  | .lasAby _ => 0xBB
  | .ldyAbx _ => 0xBC
  | .ldaAbx _ => 0xBD
  | .ldxAby _ => 0xBE
  | .laxAby _ => 0xBF
  | .cpyImm _ => 0xC0
  | .cmpIzx _ => 0xC1
  | .nopImmC2 _ => 0xC2
  | .dcpIzx _ => 0xC3
  | .cpyZp _ => 0xC4
  | .cmpZp _ => 0xC5
  | .decZp _ => 0xC6
  | .dcpZp _ => 0xC7
  | .iny => 0xC8
  | .cmpImm _ => 0xC9
  | .dex => 0xCA
  | .sbxImm _ => 0xCB
  | .cpyAbs _ => 0xCC
  | .cmpAbs _ => 0xCD
  | .decAbs _ => 0xCE
  | .dcpAbs _ => 0xCF
  | .bne _ => 0xD0
  | .cmpIzy _ => 0xD1
  | .jamD2 => 0xD2
  | .dcpIzy _ => 0xD3
  | .nopZpxD4 _ => 0xD4
  | .cmpZpx _ => 0xD5
  | .decZpx _ => 0xD6
  | .dcpZpx _ => 0xD7
  | .cld => 0xD8
  | .cmpAby _ => 0xD9
  | .nopDA => 0xDA
  | .dcpAby _ => 0xDB
  | .nopAbxDC _ => 0xDC
  | .cmpAbx _ => 0xDD
  | .decAbx _ => 0xDE
  | .dcpAbx _ => 0xDF
  | .cpxImm _ => 0xE0
  | .sbcIzx _ => 0xE1
  | .nopImmE2 _ => 0xE2
  | .isbIzx _ => 0xE3
  | .cpxZp _ => 0xE4
  | .sbcZp _ => 0xE5
  | .incZp _ => 0xE6
  | .isbZp _ => 0xE7
  | .inx => 0xE8
  | .sbcImm _ => 0xE9
  | .nop => 0xEA
  | .sbcImmEB _ => 0xEB
  | .cpxAbs _ => 0xEC
  | .sbcAbs _ => 0xED
  | .incAbs _ => 0xEE
  | .isbAbs _ => 0xEF
  | .beq _ => 0xF0
  | .sbcIzy _ => 0xF1
  | .jamF2 => 0xF2
  | .isbIzy _ => 0xF3
  | .nopZpxF4 _ => 0xF4
  | .sbcZpx _ => 0xF5
  | .incZpx _ => 0xF6
  | .isbZpx _ => 0xF7
  | .sed => 0xF8
  | .sbcAby _ => 0xF9
  | .nopFA => 0xFA
  | .isbAby _ => 0xFB
  | .nopAbxFC _ => 0xFC
  | .sbcAbx _ => 0xFD
  | .incAbx _ => 0xFE
  | .isbAbx _ => 0xFF

/-- The operand of an instruction as its format carries it: none, a byte, or a word (R91, R93). -/
inductive Operand where
  | none
  | byte (b : Byte)
  | word (w : Addr)
  deriving DecidableEq, Repr

/-- The operand bytes, in ascending address order, the low byte of a word first (R91, R93). -/
def Operand.bytes : Operand → List Byte
  | .none => []
  | .byte b => [b]
  | .word w => [Machine.lo w, Machine.hi w]

/-- The operand of an instruction. -/
def Instr.operand : Instr → Operand
  | .brk => .none
  | .oraIzx b => .byte b
  | .jam02 => .none
  | .sloIzx b => .byte b
  | .nopZp04 b => .byte b
  | .oraZp b => .byte b
  | .aslZp b => .byte b
  | .sloZp b => .byte b
  | .php => .none
  | .oraImm b => .byte b
  | .aslAcc => .none
  | .ancImm0B b => .byte b
  | .nopAbs w => .word w
  | .oraAbs w => .word w
  | .aslAbs w => .word w
  | .sloAbs w => .word w
  | .bpl b => .byte b
  | .oraIzy b => .byte b
  | .jam12 => .none
  | .sloIzy b => .byte b
  | .nopZpx14 b => .byte b
  | .oraZpx b => .byte b
  | .aslZpx b => .byte b
  | .sloZpx b => .byte b
  | .clc => .none
  | .oraAby w => .word w
  | .nop1A => .none
  | .sloAby w => .word w
  | .nopAbx1C w => .word w
  | .oraAbx w => .word w
  | .aslAbx w => .word w
  | .sloAbx w => .word w
  | .jsrAbs w => .word w
  | .andIzx b => .byte b
  | .jam22 => .none
  | .rlaIzx b => .byte b
  | .bitZp b => .byte b
  | .andZp b => .byte b
  | .rolZp b => .byte b
  | .rlaZp b => .byte b
  | .plp => .none
  | .andImm b => .byte b
  | .rolAcc => .none
  | .ancImm2B b => .byte b
  | .bitAbs w => .word w
  | .andAbs w => .word w
  | .rolAbs w => .word w
  | .rlaAbs w => .word w
  | .bmi b => .byte b
  | .andIzy b => .byte b
  | .jam32 => .none
  | .rlaIzy b => .byte b
  | .nopZpx34 b => .byte b
  | .andZpx b => .byte b
  | .rolZpx b => .byte b
  | .rlaZpx b => .byte b
  | .sec => .none
  | .andAby w => .word w
  | .nop3A => .none
  | .rlaAby w => .word w
  | .nopAbx3C w => .word w
  | .andAbx w => .word w
  | .rolAbx w => .word w
  | .rlaAbx w => .word w
  | .rti => .none
  | .eorIzx b => .byte b
  | .jam42 => .none
  | .sreIzx b => .byte b
  | .nopZp44 b => .byte b
  | .eorZp b => .byte b
  | .lsrZp b => .byte b
  | .sreZp b => .byte b
  | .pha => .none
  | .eorImm b => .byte b
  | .lsrAcc => .none
  | .alrImm b => .byte b
  | .jmpAbs w => .word w
  | .eorAbs w => .word w
  | .lsrAbs w => .word w
  | .sreAbs w => .word w
  | .bvc b => .byte b
  | .eorIzy b => .byte b
  | .jam52 => .none
  | .sreIzy b => .byte b
  | .nopZpx54 b => .byte b
  | .eorZpx b => .byte b
  | .lsrZpx b => .byte b
  | .sreZpx b => .byte b
  | .cli => .none
  | .eorAby w => .word w
  | .nop5A => .none
  | .sreAby w => .word w
  | .nopAbx5C w => .word w
  | .eorAbx w => .word w
  | .lsrAbx w => .word w
  | .sreAbx w => .word w
  | .rts => .none
  | .adcIzx b => .byte b
  | .jam62 => .none
  | .rraIzx b => .byte b
  | .nopZp64 b => .byte b
  | .adcZp b => .byte b
  | .rorZp b => .byte b
  | .rraZp b => .byte b
  | .pla => .none
  | .adcImm b => .byte b
  | .rorAcc => .none
  | .arrImm b => .byte b
  | .jmpInd w => .word w
  | .adcAbs w => .word w
  | .rorAbs w => .word w
  | .rraAbs w => .word w
  | .bvs b => .byte b
  | .adcIzy b => .byte b
  | .jam72 => .none
  | .rraIzy b => .byte b
  | .nopZpx74 b => .byte b
  | .adcZpx b => .byte b
  | .rorZpx b => .byte b
  | .rraZpx b => .byte b
  | .sei => .none
  | .adcAby w => .word w
  | .nop7A => .none
  | .rraAby w => .word w
  | .nopAbx7C w => .word w
  | .adcAbx w => .word w
  | .rorAbx w => .word w
  | .rraAbx w => .word w
  | .nopImm80 b => .byte b
  | .staIzx b => .byte b
  | .nopImm82 b => .byte b
  | .saxIzx b => .byte b
  | .styZp b => .byte b
  | .staZp b => .byte b
  | .stxZp b => .byte b
  | .saxZp b => .byte b
  | .dey => .none
  | .nopImm89 b => .byte b
  | .txa => .none
  | .aneImm b => .byte b
  | .styAbs w => .word w
  | .staAbs w => .word w
  | .stxAbs w => .word w
  | .saxAbs w => .word w
  | .bcc b => .byte b
  | .staIzy b => .byte b
  | .jam92 => .none
  | .shaIzy b => .byte b
  | .styZpx b => .byte b
  | .staZpx b => .byte b
  | .stxZpy b => .byte b
  | .saxZpy b => .byte b
  | .tya => .none
  | .staAby w => .word w
  | .txs => .none
  | .tasAby w => .word w
  | .shyAbx w => .word w
  | .staAbx w => .word w
  | .shxAby w => .word w
  | .shaAby w => .word w
  | .ldyImm b => .byte b
  | .ldaIzx b => .byte b
  | .ldxImm b => .byte b
  | .laxIzx b => .byte b
  | .ldyZp b => .byte b
  | .ldaZp b => .byte b
  | .ldxZp b => .byte b
  | .laxZp b => .byte b
  | .tay => .none
  | .ldaImm b => .byte b
  | .tax => .none
  | .lxaImm b => .byte b
  | .ldyAbs w => .word w
  | .ldaAbs w => .word w
  | .ldxAbs w => .word w
  | .laxAbs w => .word w
  | .bcs b => .byte b
  | .ldaIzy b => .byte b
  | .jamB2 => .none
  | .laxIzy b => .byte b
  | .ldyZpx b => .byte b
  | .ldaZpx b => .byte b
  | .ldxZpy b => .byte b
  | .laxZpy b => .byte b
  | .clv => .none
  | .ldaAby w => .word w
  | .tsx => .none
  | .lasAby w => .word w
  | .ldyAbx w => .word w
  | .ldaAbx w => .word w
  | .ldxAby w => .word w
  | .laxAby w => .word w
  | .cpyImm b => .byte b
  | .cmpIzx b => .byte b
  | .nopImmC2 b => .byte b
  | .dcpIzx b => .byte b
  | .cpyZp b => .byte b
  | .cmpZp b => .byte b
  | .decZp b => .byte b
  | .dcpZp b => .byte b
  | .iny => .none
  | .cmpImm b => .byte b
  | .dex => .none
  | .sbxImm b => .byte b
  | .cpyAbs w => .word w
  | .cmpAbs w => .word w
  | .decAbs w => .word w
  | .dcpAbs w => .word w
  | .bne b => .byte b
  | .cmpIzy b => .byte b
  | .jamD2 => .none
  | .dcpIzy b => .byte b
  | .nopZpxD4 b => .byte b
  | .cmpZpx b => .byte b
  | .decZpx b => .byte b
  | .dcpZpx b => .byte b
  | .cld => .none
  | .cmpAby w => .word w
  | .nopDA => .none
  | .dcpAby w => .word w
  | .nopAbxDC w => .word w
  | .cmpAbx w => .word w
  | .decAbx w => .word w
  | .dcpAbx w => .word w
  | .cpxImm b => .byte b
  | .sbcIzx b => .byte b
  | .nopImmE2 b => .byte b
  | .isbIzx b => .byte b
  | .cpxZp b => .byte b
  | .sbcZp b => .byte b
  | .incZp b => .byte b
  | .isbZp b => .byte b
  | .inx => .none
  | .sbcImm b => .byte b
  | .nop => .none
  | .sbcImmEB b => .byte b
  | .cpxAbs w => .word w
  | .sbcAbs w => .word w
  | .incAbs w => .word w
  | .isbAbs w => .word w
  | .beq b => .byte b
  | .sbcIzy b => .byte b
  | .jamF2 => .none
  | .isbIzy b => .byte b
  | .nopZpxF4 b => .byte b
  | .sbcZpx b => .byte b
  | .incZpx b => .byte b
  | .isbZpx b => .byte b
  | .sed => .none
  | .sbcAby w => .word w
  | .nopFA => .none
  | .isbAby w => .word w
  | .nopAbxFC w => .word w
  | .sbcAbx w => .word w
  | .incAbx w => .word w
  | .isbAbx w => .word w

/-- The bytes of an instruction: the opcode and the operand bytes (R90, R91). -/
def encode (i : Instr) : List Byte := i.opcode :: i.operand.bytes

/-- The row of the matrix an instruction's opcode has. -/
def Instr.row (i : Instr) : Row := rowOf i.opcode

/-- The mnemonic of an instruction's row. -/
def Instr.mnemonic (i : Instr) : Mnemonic := i.row.mnemonic

/-- The memory operand of a mode with an operand of its format, if the mode has one (R92). -/
def Mode.memOperand (m : Mode) (o : Operand) : Option Machine.MemOperand :=
  match m, o with
  | .zp, .byte b => some (.zp b)
  | .zpx, .byte b => some (.zpx b)
  | .zpy, .byte b => some (.zpy b)
  | .abs, .word w => some (.abs w)
  | .abx, .word w => some (.abx w)
  | .aby, .word w => some (.aby w)
  | .izx, .byte b => some (.izx b)
  | .izy, .byte b => some (.izy b)
  | _, _ => none

/-- The memory operand the matrix gives an instruction, if its mode has one. -/
def Instr.memOperand (i : Instr) : Option Machine.MemOperand := i.row.mode.memOperand i.operand

/-- The operand the matrix gives an instruction that reads one: the literal byte (R112) or a byte of memory. -/
def Instr.src (i : Instr) : Option Machine.Src :=
  match i.row.mode, i.operand with
  | .imm, .byte b => some (.imm b)
  | m, o => (m.memOperand o).map .mem

/-- The offset byte of a branch (R116). -/
def Instr.offset (i : Instr) : Option Byte :=
  match i.row.mode, i.operand with
  | .rel, .byte b => some b
  | _, _ => none

/-- The operand word of a jump: the target (R117) or the pointer's address (R120). -/
def Instr.target (i : Instr) : Option Addr :=
  match i.operand with
  | .word w => some w
  | _ => none

end Sys2Proof
end

