-- ==== Sys2Proof/Machine/Fetch.lean ====
section
/-!
DEFINITION. Fetching an instruction (spec/30_encoding.md R97, spec/20_memory.md R77): the opcode byte, then the operand
bytes in ascending address order, each one bus-level read.
-/

namespace Sys2Proof.Machine

/-- A fetched instruction, with the state after its bytes are read. `PC` is still at the opcode. -/
structure Fetched where
  instr : Instr
  state : State

/-- How many operand bytes are read after an opcode: its mode's (R92), but none of an unstable opcode that is refused
(R97). -/
def operandCount (s : State) (opcode : Byte) : Nat :=
  if decide ((rowOf opcode).cls = .unst) && decide (s.params.unstable = .refuse) then 0
  else (rowOf opcode).mode.operandBytes

/-- The fetch of R97: the opcode at `PC`, and the operand bytes after it; the addresses wrap (R26). -/
def fetch (s : State) : Except Fault Fetched := do
  let op ← memRead s s.pc
  match operandCount s op.val with
  | 0 => return { instr := instrOf op.val 0 0, state := op.state }
  | 1 =>
    let b1 ← memRead op.state (s.pc + 1)
    return { instr := instrOf op.val b1.val 0, state := b1.state }
  | _ =>
    let b1 ← memRead op.state (s.pc + 1)
    let b2 ← memRead b1.state (s.pc + 2)
    return { instr := instrOf op.val b1.val b2.val, state := b2.state }

/-- The fetch of a step: a fault while a register holds no defined value (R343), the fetch of R97 otherwise. -/
def stepFetch (s : State) : Except Fault Fetched :=
  if s.defined = .all then fetch s else .error .registersUndefined

/-- The interrupt check at the end of a step (R305): it runs when the instruction completed, and not when the step stopped
(R300, R325). -/
def thenCheck (o : Host.Outcome State Fault Refusal) : Host.Outcome State Fault Refusal :=
  match o with
  | .next s => finish (interruptCheck s)
  | .fault f => .fault f
  | .refused r => .refused r

/-- A byte of a placed instruction word: byte `k` of `w`, the bits above `nbits` being 0. -/
def wordByte (nbits w k : Nat) : Byte := BitVec.ofNat 8 (w % 2 ^ nbits / 256 ^ k)

end Sys2Proof.Machine
end

