-- ==== Sys2Proof/Machine/Step.lean ====
section
/-!
DEFINITION. One step (spec/60_exceptions.md R305): fetch, execute, account, check for interrupts.
-/

namespace Sys2Proof.Machine

/-- `Step()` (R305), a fault while a register holds no defined value (R343). The value it returns is `consumed` of the next state. -/
def step (s : State) : Host.Outcome State Fault Refusal :=
  match stepFetch s with
  | .error f => .fault f
  | .ok r => thenCheck (exec r.instr r.state)

/-- The state with an instruction of `nbits` bits `w` placed at `PC`, its three bytes low byte first (log entry 6). -/
def State.withFetchWord (s : State) (nbits w : Nat) : State :=
  ((s.place s.pc (wordByte nbits w 0)).place (s.pc + 1) (wordByte nbits w 1)).place (s.pc + 2) (wordByte nbits w 2)

end Sys2Proof.Machine
end

