-- ==== Sys2Proof/Machine/Runs.lean ====
section
/-!
DEFINITION. The end of a run, which the machine does not have and a model must define (spec/70_reset_and_hazards.md R351).
-/

namespace Sys2Proof.Machine

/-- Whether a branch of this mnemonic is taken under these flags (spec/47_branch.md R211 to R218). -/
def branchTaken (p : Flags) : Mnemonic → Bool
  | .BPL => !p.n
  | .BMI => p.n
  | .BVC => !p.v
  | .BVS => p.v
  | .BCC => !p.c
  | .BCS => p.c
  | .BNE => !p.z
  | .BEQ => p.z
  | _ => false

/-- The pointer of `JMP ($nnnn)` holds the address of the jump itself, and reading it changes nothing (R120, R237). A pointer
byte that an IO region answers is no such pointer: its read goes into the region's history (log entry 4), so no step returns to
the same state. -/
def pointsToItself (w : Addr) (s : State) : Bool :=
  match indirectTarget s w with
  | .ok r => decide (r.val = s.pc) && decide (r.state = s)
  | .error _ => false

/-- The instruction is `JMP` to its own address, in either form, or a taken branch with offset `0xFE` (R351, R237, R210). -/
def jumpsToItself (i : Instr) (s : State) : Bool :=
  match i with
  | .jmpAbs w => decide (w = s.pc)
  | .jmpInd w => pointsToItself w s
  | i => decide (i.offset = some 0xFE) && branchTaken s.p i.mnemonic

/-- The next step runs a jump or branch to itself, from bytes whose fetch changes nothing: the second of R351's two ends of a
run. -/
def State.loopsInPlace (s : State) : Bool :=
  match fetch s with
  | .ok f => decide (f.state = s) && jumpsToItself f.instr s
  | .error _ => false

/-- A run that is to stop at an address has ended: `PC` is there, the first of R351's two ends, or it loops in place. -/
def State.ended (stop : Addr) (s : State) : Bool := decide (s.pc = stop) || s.loopsInPlace

/-- `n` steps; a fault or a refusal ends the run before that (R351). -/
def runSteps : Nat → State → Host.Outcome State Fault Refusal
  | 0, s => .next s
  | n + 1, s =>
    match step s with
    | .next t => runSteps n t
    | .fault f => .fault f
    | .refused r => .refused r

/-- A run with a stated step count (R351): steps until the run has ended at `stop`, `n` at most; a fault or a refusal ends
it too. -/
def runTo (stop : Addr) : Nat → State → Host.Outcome State Fault Refusal
  | 0, s => .next s
  | n + 1, s =>
    if s.ended stop then .next s
    else
      match step s with
      | .next t => runTo stop n t
      | .fault f => .fault f
      | .refused r => .refused r

end Sys2Proof.Machine
end

