-- ==== Sys2Proof/Machine/HostOps.lean ====
section
/-!
DEFINITION. What the host can do between steps, beside `step` and the bus operations of Sys2Proof/Machine/Bus.lean
(spec/70_reset_and_hazards.md R350), and the order in which it brings a machine to its first step (R343). None of these is a move of `step` (log entry 17).
-/

namespace Sys2Proof.Machine

/-- The kinds a request can have (R303): `BRK` is never queued. -/
inductive RequestKind where
  | reset
  | nmi
  | irq
  deriving DecidableEq, Repr

/-- The pending set with a kind in it (R36). -/
def Pending.insert (q : Pending) : RequestKind → Pending
  | .reset => { q with reset := true }
  | .nmi => { q with nmi := true }
  | .irq => { q with irq := true }

/-- `queue_interrupt(kind)` (R304): a kind already pending is absorbed. -/
def queueInterrupt (kind : RequestKind) (s : State) : State := s.withPending (s.pending.insert kind)

/-- The byte the host reads for `P` (R30): bit 5 is 1 and bit 4 is 0. -/
def hostReadP (s : State) : Byte := s.p.pack ||| 0x20

/-- The host's write of `P` (R42): the six stored flags, as `LoadP` sets them. A register the host has written holds a
defined value (R343). -/
def hostWriteP (b : Byte) (s : State) : State :=
  { s with p := Flags.ofByte b, defined := { s.defined with p := true } }

/-- The 8-bit registers `x[r]` of R9. -/
inductive Reg where
  | a
  | x
  | y
  | sp
  deriving DecidableEq, Repr

/-- The host's read of a register (R9, R42). -/
def hostReadReg (r : Reg) (s : State) : Byte :=
  match r with
  | .a => s.a
  | .x => s.x
  | .y => s.y
  | .sp => s.sp

/-- The host's write of a register (R9, R42). -/
def hostWriteReg (r : Reg) (v : Byte) (s : State) : State :=
  match r with
  | .a => { s with a := v, defined := { s.defined with a := true } }
  | .x => { s with x := v, defined := { s.defined with x := true } }
  | .y => { s with y := v, defined := { s.defined with y := true } }
  | .sp => { s with sp := v, defined := { s.defined with sp := true } }

/-- The host's write of `PC` (R42). -/
def hostWritePc (a : Addr) (s : State) : State :=
  { s with pc := a, defined := { s.defined with pc := true } }

/-- The host's write of `cycles` (R42). -/
def hostWriteCycles (n : BitVec 64) (s : State) : State :=
  { s with cycles := n, defined := { s.defined with cycles := true } }

/-- A tick of the IO region with this identifier, between steps (R72, R350); a region of another kind has none. -/
def tickRegion (i : Nat) (s : State) : State :=
  match lookupRegion s.regions i with
  | some r =>
    match r.backing with
    | .io h => s.setBacking i (.io (.tick :: h))
    | .ram _ => s
    | .rom _ => s
  | none => s

/-- The byte writes of `bulk_copy`, in ascending order, each into RAM (R65). -/
def bulkWrites (a : Addr) (bytes : List Byte) (s : State) : Host.Outcome State Fault Refusal :=
  match bytes with
  | [] => .next s
  | b :: bs =>
    match s.responsible a with
    | none => .fault (.addressDispatchGap a)
    | some r =>
      match r.backing with
      | .ram m => bulkWrites (a + 1) bs (s.setBacking r.id (.ram (m.write (r.offset a) b)))
      | .rom _ => .refused (.bulkCopyNotRam a)
      | .io _ => .refused (.bulkCopyNotRam a)

/-- `bulk_copy(a, bytes)` (R65): refused when it would pass `0xFFFF` or touches a region that is not RAM (log entry 14). -/
def bulkCopy (a : Addr) (bytes : List Byte) (s : State) : Host.Outcome State Fault Refusal :=
  if a.toNat + bytes.length ≤ 65536 then bulkWrites a bytes s else .refused (.bulkCopyPastEnd a bytes.length)

/-! ### From construction to the first step (R343) -/

/-- The machine as constructed, with these parameters: no region yet, and no register holding a defined value (R343, U7);
what the registers hold is a free value (log entry 12). -/
def State.constructed (params : Config.Params) : State :=
  { a := Config.bootByte 0
    x := Config.bootByte 1
    y := Config.bootByte 2
    sp := Config.bootByte 3
    pc := Config.bootPc
    p :=
      { n := Config.bootFlag 0
        v := Config.bootFlag 1
        d := Config.bootFlag 2
        i := Config.bootFlag 3
        z := Config.bootFlag 4
        c := Config.bootFlag 5 }
    cycles := Config.bootCycles
    defined := .none
    pending := { reset := false, nmi := false, irq := false }
    regions := []
    mapOrder := []
    params := params
    consumed := 0
    draws := 0 }

/-- The copies of a program and its data, in order (R343). -/
def loadAll (loads : List (Addr × List Byte)) (s : State) : Host.Outcome State Fault Refusal :=
  match loads with
  | [] => .next s
  | (a, bytes) :: rest =>
    match bulkCopy a bytes s with
    | .next t => loadAll rest t
    | .fault f => .fault f
    | .refused r => .refused r

/-- The end of a boot (R343): the entry address to the reset vector, then `reset()`. -/
def enterAt (entry : Addr) (s : State) : Host.Outcome State Fault Refusal :=
  match memWriteWord s s.params.vecReset entry with
  | .error f => .fault f
  | .ok t => finish (resetMachine t)

/-- What the host does before the first step, in R343's order: construct and map the regions (a ROM region with its image),
copy the program and data into RAM, write the entry address to the reset vector, reset. -/
def boot (params : Config.Params) (regions : List Region) (loads : List (Addr × List Byte)) (entry : Addr) :
    Host.Outcome State Fault Refusal :=
  match loadAll loads (regions.foldl State.mapRegion (State.constructed params)) with
  | .next s => enterAt entry s
  | .fault f => .fault f
  | .refused r => .refused r

end Sys2Proof.Machine
end

