-- ==== Sys2Proof/Safety.lean ====
section
/-!
DEFINITION. What counts as a safe run, and the terms the claims are stated in.
-/

namespace Sys2Proof.Machine

/-- Every address has a region: the configuration in which `AddressDispatchGap` never happens (spec/60_exceptions.md R301). -/
def State.FullyMapped (s : State) : Prop := ∀ a : Addr, (s.responsible a).isSome = true

/-- No region is of kind IO. -/
def State.NoIo (s : State) : Prop := ∀ r ∈ s.regions, r.kind ≠ .io

/-- The kind of the region that answers an address. -/
def State.kindAt (s : State) (a : Addr) : Option RegionKind := (s.responsible a).map Region.kind

/-- The address is answered by a region whose bytes stay as they are until they are written: RAM or ROM. -/
def State.PlainAt (s : State) (a : Addr) : Prop := s.kindAt a = some .ram ∨ s.kindAt a = some .rom

/-- `t` is `s` but for the bus: every register, parameter and latch is the same. -/
def SameButBus (s t : State) : Prop := t = { s with regions := t.regions, mapOrder := t.mapOrder }

/-- What of a region an access never changes: identifier, range and kind (spec/20_memory.md R50, R51). -/
def Region.shape (r : Region) : Nat × AddressRange × RegionKind := (r.id, r.range, r.kind)

/-- The bytes stand at `PC` and after it, in RAM or ROM. -/
def State.CodeAt (s : State) (bytes : List Byte) : Prop :=
  ∀ k : Nat, ∀ b : Byte, bytes[k]? = some b →
    s.PlainAt (s.pc + BitVec.ofNat 16 k) ∧ diagRead s (s.pc + BitVec.ofNat 16 k) = .ok b

/-- Every address of the stack page is RAM. -/
def State.StackInRam (s : State) : Prop := ∀ b : Byte, s.kindAt (wordOf s.params.stackPage b) = some .ram

/-! ### The matrix, row by row -/

/-- The rows of a mnemonic are exactly these: opcode byte, mode, base cost, page penalty (spec/30_encoding.md R95). -/
def Encoded (m : Mnemonic) (forms : List (Byte × Mode × Nat × Bool)) : Prop :=
  (∀ op : Byte, (rowOf op).mnemonic = m → (op, (rowOf op).mode, (rowOf op).cyc, (rowOf op).pp) ∈ forms) ∧
    ∀ f ∈ forms, (rowOf f.1).mnemonic = m

/-! ### What an instruction of a kind does, for every form the matrix gives it

Each of these says that `exec` answers a next state, and which: for every state whose addresses are all mapped where the
instruction uses the bus, for every state where it does not. `op` and its like are what the instruction's own rule adds. -/

/-- No bus access after the fetch: `op` on the state with `PC` past the instruction. -/
def ActsImplied (m : Mnemonic) (op : State → State) : Prop :=
  ∀ (i : Instr) (s : State), i.mnemonic = m → i.row.mode = .imp →
    exec i s = .next ((op (s.advance 1)).account i.row.cyc)

/-- The operand is read once, through the mode the matrix gives the form, and `op` is done with it (spec R11, R124). -/
def ActsOnOperand (m : Mnemonic) (op : Byte → State → State) : Prop :=
  ∀ (i : Instr) (s : State), i.mnemonic = m → i.row.mode ≠ .imp → s.FullyMapped →
    ∃ src r, i.src = some src ∧ readSrc src (s.advance i.row.len) = .ok r ∧
      exec i s = .next ((op r.val r.state).account (cost i.row.cyc i.row.pp r.crossed))

/-- `val` of the state is written once, at the effective address of the form (spec R124). -/
def ActsByStoring (m : Mnemonic) (val : State → Byte) : Prop :=
  ∀ (i : Instr) (s : State), i.mnemonic = m → s.FullyMapped →
    ∃ o r t, i.memOperand = some o ∧ effAddr o (s.advance i.row.len) = .ok r ∧
      memWrite r.state r.ea (val s) = .ok t ∧ SameButBus (s.advance i.row.len) t ∧ exec i s = .next (t.account i.row.cyc)

/-- `t` is `s` after `ADC` of `m` (spec R163). In decimal mode `V` is any value, and so are the result byte and `C` when an
operand is not packed BCD (U2, U3; log entry 3); one draw is counted. -/
def AdcOutcome (m : Byte) (s t : State) : Prop :=
  let sum := s.a.toNat + m.toNat + bit s.p.c
  let signed : Int := s.a.toInt + m.toInt + bit s.p.c
  let r := BitVec.ofNat 8 sum
  (s.p.d = false →
    t = { s with
      a := r
      p := { s.p with
        n := r.getLsbD 7, z := decide (r = 0), c := decide (256 ≤ sum), v := decide (signed < -128 ∨ 127 < signed) } }) ∧
    (s.p.d = true → ∃ (out : Byte) (c v : Bool),
      (validBcd s.a = true → validBcd m = true → out = (addDecimal s.a m s.p.c).r ∧ c = (addDecimal s.a m s.p.c).c) ∧
      t = { s with
        a := out, p := { s.p with n := out.getLsbD 7, z := decide (out = 0), c := c, v := v }, draws := s.draws + 1 })

/-- `t` is `s` after `SBC` of `m` (spec R164): the carry is an inverted borrow. Decimal mode as in `AdcOutcome`. -/
def SbcOutcome (m : Byte) (s t : State) : Prop :=
  let borrow := 1 - bit s.p.c
  let signed : Int := s.a.toInt - m.toInt - borrow
  let r := s.a - m - BitVec.ofNat 8 borrow
  (s.p.d = false →
    t = { s with
      a := r
      p := { s.p with
        n := r.getLsbD 7, z := decide (r = 0), c := decide (m.toNat + borrow ≤ s.a.toNat),
        v := decide (signed < -128 ∨ 127 < signed) } }) ∧
    (s.p.d = true → ∃ (out : Byte) (c v : Bool),
      (validBcd s.a = true → validBcd m = true → out = (subDecimal s.a m s.p.c).r ∧ c = (subDecimal s.a m s.p.c).c) ∧
      t = { s with
        a := out, p := { s.p with n := out.getLsbD 7, z := decide (out = 0), c := c, v := v }, draws := s.draws + 1 })

/-- The operand is read once, and `outcome` relates the state after the read to the one the cost is added to. -/
def EndsOnOperand (m : Mnemonic) (outcome : Byte → State → State → Prop) : Prop :=
  ∀ (i : Instr) (s : State), i.mnemonic = m → s.FullyMapped →
    ∃ src r t, i.src = some src ∧ readSrc src (s.advance i.row.len) = .ok r ∧ outcome r.val r.state t ∧
      exec i s = .next (t.account (cost i.row.cyc i.row.pp r.crossed))

/-- The accumulator form: `f` of `A` and the flags, and no bus access (spec R180). -/
def ModifiesAccumulator (m : Mnemonic) (f : Byte → Flags → Byte × Flags) : Prop :=
  ∀ (i : Instr) (s : State), i.mnemonic = m → i.row.mode = .acc →
    exec i s = .next ({ s.advance 1 with a := (f s.a s.p).1, p := (f s.a s.p).2 }.account i.row.cyc)

/-- The memory forms: read, write the old byte back, write the new one, then the flags (spec R180). -/
def ModifiesMemory (m : Mnemonic) (f : Byte → Flags → Byte × Flags) : Prop :=
  ∀ (i : Instr) (s : State), i.mnemonic = m → i.row.mode ≠ .acc → s.FullyMapped →
    ∃ o r old t u, i.memOperand = some o ∧ effAddr o (s.advance i.row.len) = .ok r ∧
      memRead r.state r.ea = .ok old ∧ memWrite old.state r.ea old.val = .ok t ∧
      memWrite t r.ea (f old.val s.p).1 = .ok u ∧ exec i s = .next ((u.withFlags (f old.val s.p).2).account i.row.cyc)

/-- A read-modify-write, and then the operand is read again through the bus, and `outcome` relates the state after that read
to the one the cost is added to (spec R260). -/
def ModifiesThenActs (m : Mnemonic) (f : Byte → Flags → Byte × Flags) (outcome : Byte → State → State → Prop) : Prop :=
  ∀ (i : Instr) (s : State), i.mnemonic = m → s.FullyMapped →
    ∃ o r old t u again v, i.memOperand = some o ∧ effAddr o (s.advance i.row.len) = .ok r ∧
      memRead r.state r.ea = .ok old ∧ memWrite old.state r.ea old.val = .ok t ∧
      memWrite t r.ea (f old.val s.p).1 = .ok u ∧ memRead (u.withFlags (f old.val s.p).2) r.ea = .ok again ∧
      outcome again.val again.state v ∧ exec i s = .next (v.account i.row.cyc)

/-- The branch is taken exactly when `cond` holds of the flags; `e` is the address of the next instruction (spec R210). -/
def BranchesOn (m : Mnemonic) (cond : Flags → Bool) : Prop :=
  ∀ (i : Instr) (s : State), i.mnemonic = m → ∃ off, i.offset = some off ∧
    let e := s.pc + 2
    let target := e + off.signExtend 16
    (cond s.p = false → exec i s = .next ({ s with pc := e }.account 2)) ∧
      (cond s.p = true → hi target = hi e → exec i s = .next ({ s with pc := target }.account 3)) ∧
      (cond s.p = true → hi target ≠ hi e → exec i s = .next ({ s with pc := target }.account 4))

/-- An unstable store (spec R279): `before` first, then the byte `reg` of the state ANDed with the high byte of the base
address plus 1 is written; on a page crossing it also replaces the address's high byte. -/
def ActsByUnstableStore (m : Mnemonic) (before : State → State) (reg : State → Byte) : Prop :=
  ∀ (i : Instr) (s : State), i.mnemonic = m → s.params.unstable = .execute → s.FullyMapped →
    ∃ o r t, i.memOperand = some o ∧ effAddr o (s.advance i.row.len) = .ok r ∧
      let base := if r.crossed then hi r.ea - 1 else hi r.ea
      let v := reg (before s) &&& (base + 1)
      memWrite (before r.state) (if r.crossed then wordOf v (lo r.ea) else r.ea) v = .ok t ∧
        exec i s = .next (t.account i.row.cyc)

/-! ### Which instructions may write what -/

/-- The mnemonics whose forms write memory; the accumulator forms of the shifts do not. -/
def storingMnemonics : List Mnemonic :=
  [.STA, .STX, .STY, .SAX, .ASL, .LSR, .ROL, .ROR, .INC, .DEC, .SLO, .RLA, .SRE, .RRA, .DCP, .ISB, .SHA, .SHX, .SHY, .TAS,
    .PHA, .PHP, .JSR, .BRK]

/-- The instruction writes memory. -/
def writesMemory (i : Instr) : Bool := decide (i.mnemonic ∈ storingMnemonics) && decide (i.row.mode ≠ .acc)

/-- The outcome is not a stop at a gap. -/
def NotAGap (o : Host.Outcome State Fault Refusal) : Prop := ∀ a : Addr, o ≠ .fault (.addressDispatchGap a)

end Sys2Proof.Machine
end

