-- ==== Sys2Proof/Certificates/Slice0/Obligations.lean ====
section
/-!
DEFINITION. The statements for the provers. Each is one numbered entry of OBLIGATIONS.json; its docstring says what it states
and from which rules of spec/.
-/

open Sys2Proof Sys2Proof.Machine

/-- O1. For every well-formed instruction, with every operand value, and whatever bytes follow, decode of its encoding
followed by those bytes answers that instruction and those bytes. No bit of any of the 256 encodings is dropped. (R90,
R91, R93, R94, R95) -/
def Obligations.DecodeOfEncodeIsTheInstruction : Prop :=
  ∀ (i : Instr) (rest : List Byte), i.wf = true → decode (encode i ++ rest) = .ok (i, rest)

/-- O2. Whenever decode answers an instruction and a rest, the instruction's encoding followed by the rest is the byte
list that was decoded: each encoding has one meaning and nothing is skipped. For each of the 256 opcode bytes: when
the rest of the list holds the operand bytes of the byte's mode, decode answers an instruction with that opcode whose
length is 1 plus those operand bytes, and leaves the bytes after it; when it does not, decode refuses by name. The
length depends on the opcode byte alone. (R90, R91, R94, R95, R96, R100) -/
def Obligations.DecodeReadsExactlyOneEncoding : Prop :=
  (∀ (bytes rest : List Byte) (i : Instr), decode bytes = .ok (i, rest) → encode i ++ rest = bytes) ∧
    (∀ (op : Byte) (rest : List Byte), (rowOf op).mode.operandBytes ≤ rest.length →
      ∃ i, decode (op :: rest) = .ok (i, rest.drop (rowOf op).mode.operandBytes) ∧ i.opcode = op ∧
        (encode i).length = 1 + (rowOf op).mode.operandBytes) ∧
    (∀ (op : Byte) (rest : List Byte), rest.length < (rowOf op).mode.operandBytes →
      decode (op :: rest) = .error (.truncated op)) ∧
    decode [] = .error .noOpcode

/-- O3. The spec's own example A9 05 AA 8A 00 decodes to LDA #$05, TAX, TXA, BRK, LDA # being two bytes long and TAX and
TXA one; and one word of each other family decodes to its instruction, operand words low byte first. (R102) -/
def Obligations.WrittenOutWordsDecode : Prop :=
  decode [0xA9, 0x05, 0xAA, 0x8A, 0x00] = .ok (.ldaImm 0x05, [0xAA, 0x8A, 0x00]) ∧
    decode [0xAA, 0x8A, 0x00] = .ok (.tax, [0x8A, 0x00]) ∧ decode [0x8A, 0x00] = .ok (.txa, [0x00]) ∧
    decode [0x00] = .ok (.brk, []) ∧
    decode [0x9D, 0x34, 0x12] = .ok (.staAbx 0x1234, []) ∧ decode [0x71, 0x40] = .ok (.adcIzy 0x40, []) ∧
    decode [0x4D, 0x34, 0x12] = .ok (.eorAbs 0x1234, []) ∧ decode [0x36, 0x10] = .ok (.rolZpx 0x10, []) ∧
    decode [0xC0, 0x80] = .ok (.cpyImm 0x80, []) ∧ decode [0xD0, 0xFB] = .ok (.bne 0xFB, []) ∧
    decode [0x6C, 0xFF, 0x02] = .ok (.jmpInd 0x02FF, []) ∧ decode [0xB7, 0x10] = .ok (.laxZpy 0x10, []) ∧
    decode [0x9E, 0x00, 0x40] = .ok (.shxAby 0x4000, [])

/-- O4. Where every register holds a defined value (R343), when bytes in RAM or ROM at PC (the addresses wrapping at the
top) decode to an instruction, a step is exec of that instruction on that same state (PC still at the opcode),
followed, where it answers a next state, by the interrupt check, whose fault is the step's; where exec faults or
refuses, the step does so alike and the check is not run. (R97, R305, R26, R77) -/
def Obligations.StepRunsTheDecodedInstruction : Prop :=
  ∀ (s : State) (bytes rest : List Byte) (i : Instr), decode bytes = .ok (i, rest) → i.wf = true → s.CodeAt bytes →
    s.defined = .all → step s =
      match exec i s with
      | .next t =>
        match interruptCheck t with
        | .ok u => .next u
        | .error f => .fault f
      | .fault f => .fault f
      | .refused r => .refused r

/-- O5. State.resetWith q holds the parameters q, A, X, Y, SP and the five open flags at q's RESET values, I = 1, cycles
0, nothing pending and every register defined; State.reset is State.resetWith at R7's defaults (each listed, a
decision of the spec, D8 and others) but with UNSTABLE_POLICY = execute in place of the default refuse, so A, X, Y =
0, SP = 0xFD and P reads 0x24. PC 0x0000, the one RAM region over all addresses with nothing listed, UNSTABLE_POLICY =
execute and the returned-cost latch 0 are the model's choices (log entries 1, 2, 6, 7, 9). The draw counter is left
out: no statement rests on its value (log entry 3). (R41, R7, R340, R349) -/
def Obligations.ResetStateValues : Prop :=
  (∀ q : Config.Params,
      let s := State.resetWith q
      s.params = q ∧ s.a = q.resetA ∧ s.x = q.resetX ∧ s.y = q.resetY ∧ s.sp = q.resetSp ∧ s.pc = 0x0000 ∧
        s.p = { n := q.resetN, v := q.resetV, d := q.resetD, i := true, z := q.resetZ, c := q.resetC } ∧
        s.cycles = 0 ∧ s.defined = .all ∧ s.pending = { reset := false, nmi := false, irq := false } ∧
        s.regions = [{ id := 0, range := { start := 0, size := 65536 }, backing := .ram [] }] ∧ s.mapOrder = [0] ∧
        s.consumed = 0) ∧
    Config.defaultParams =
      { stackPage := 0x01, vecNmi := 0xFFFA, vecReset := 0xFFFC, vecIrq := 0xFFFE
        resetA := 0x00, resetX := 0x00, resetY := 0x00, resetSp := 0xFD
        resetN := false, resetV := false, resetD := false, resetZ := false, resetC := false
        irqMasked := .keep, unstable := .refuse, aneMagic := 0xEE, lxaMagic := 0xEE } ∧
    State.reset = State.resetWith { Config.defaultParams with unstable := .execute } ∧
    State.reset.a = 0x00 ∧ State.reset.x = 0x00 ∧ State.reset.y = 0x00 ∧ State.reset.sp = 0xFD ∧
    hostReadP State.reset = 0x24

/-- O6. At State.reset the bus is well formed (canonical storage, valid ranges, no repeated identifier), every address is
mapped, no region is IO, and the stack page is RAM. That every address is mapped, no region is IO and the stack page
is RAM holds through REGIONS at its default of R7, one RAM region over all addresses, which is the model's choice for
State.reset (log entry 7). (R41, R50, R55, R301, R7) -/
def Obligations.ResetMeetsTheInvariants : Prop :=
  State.reset.busWf = true ∧ State.reset.FullyMapped ∧ State.reset.NoIo ∧ State.reset.StackInRam

/-- O7. With every address mapped, resetMachine answers: the registers and flags at the parameters RESET_A, RESET_X,
RESET_Y, RESET_SP, RESET_P with I = 1, cycles 0, pending empty, PC the little-endian word read through the bus at
VEC_RESET and the address after it; every register is then defined (R343); the parameters and the dispatch table are
unchanged, and so is every byte of RAM and ROM (R41, R342). An unmapped vector byte faults. That the returned-cost
latch and the draw counter stay as they were is the model's own (log entries 9 and 3). (R340, R41, R342, R343) -/
def Obligations.ResetLoadsRegistersAndVector : Prop :=
  (∀ s : State, s.FullyMapped → ∃ l h t,
      memRead s s.params.vecReset = .ok l ∧ memRead l.state (s.params.vecReset + 1) = .ok h ∧
        t = { s with
          a := s.params.resetA, x := s.params.resetX, y := s.params.resetY, sp := s.params.resetSp
          p :=
            { n := s.params.resetN, v := s.params.resetV, d := s.params.resetD, i := true, z := s.params.resetZ
              c := s.params.resetC }
          cycles := 0, defined := .all
          pending := { reset := false, nmi := false, irq := false }, pc := wordOf h.val l.val
          regions := h.state.regions } ∧
        resetMachine s = .ok t ∧ ∀ a : Addr, s.PlainAt a → t.PlainAt a ∧ diagRead t a = diagRead s a) ∧
    (∀ s : State, s.responsible s.params.vecReset = none →
      resetMachine s = .error (.addressDispatchGap s.params.vecReset)) ∧
    ∀ s : State, (s.responsible s.params.vecReset).isSome = true → s.responsible (s.params.vecReset + 1) = none →
      resetMachine s = .error (.addressDispatchGap (s.params.vecReset + 1))

/-- O8. While any register holds no defined value a step faults, and a step that answers a next state leaves every
register defined. As constructed no register is; after reset() every one is; so it is after the host has written A, X,
Y, SP, P, PC and cycles, which then hold the values written. The boot of R343 (map the regions, copy, write the entry
address to the reset vector, reset) ends, whenever it answers a next state, with every register defined, nothing
pending and the parameters it was given; over one RAM region it answers with PC at the entry address; and State.reset
is what it answers for entry 0 (log entries 1, 6, 7, 12). (R343, R41, R42, R340) -/
def Obligations.StepNeedsDefinedRegisters : Prop :=
  (∀ s : State, s.defined ≠ .all → step s = .fault .registersUndefined) ∧
    (∀ s t : State, step s = .next t → t.defined = .all) ∧
    (∀ s t : State, resetMachine s = .ok t → t.defined = .all) ∧
    (∀ q : Config.Params, (State.constructed q).defined = .none) ∧
    (∀ (s : State) (a x y sp p : Byte) (pc : Addr) (n : BitVec 64),
      hostWriteCycles n (hostWritePc pc (hostWriteP p (hostWriteReg .sp sp (hostWriteReg .y y (hostWriteReg .x x
          (hostWriteReg .a a s)))))) =
        { s with a := a, x := x, y := y, sp := sp, pc := pc, p := Flags.ofByte p, cycles := n, defined := .all }) ∧
    (∀ (q : Config.Params) (regions : List Region) (loads : List (Addr × List Byte)) (entry : Addr) (s : State),
      boot q regions loads entry = .next s →
        s.defined = .all ∧ s.pending = { reset := false, nmi := false, irq := false } ∧ s.params = q) ∧
    (∀ (q : Config.Params) (entry : Addr), ∃ s, boot q [ramEverywhere] [] entry = .next s ∧ s.pc = entry) ∧
    boot Config.resetParams [ramEverywhere] [] 0x0000 = .next State.reset

/-- O9. From every state whose bus is well formed (no identifier repeated; every range valid; every RAM and ROM storage in
canonical form and inside its region; the mapping order without repeats, of regions that exist), a step that answers a
next state leaves it so. (R50, R51, R55, R56) -/
def Obligations.StepKeepsTheBusWellFormed : Prop :=
  ∀ s t : State, s.busWf = true → step s = .next t → t.busWf = true

/-- O10. From every state in which each of the 65536 addresses is answered by some region, a step that answers a next
state leaves each address answered, whatever an IO region's write hook remaps. (R55, R56, R58) -/
def Obligations.StepKeepsEveryAddressMapped : Prop :=
  ∀ s t : State, s.FullyMapped → step s = .next t → t.FullyMapped

/-- O11. When every address is mapped and every register holds a defined value (R343), the opcode at PC is read; a halt
opcode stops the step with InvalidOpcode, its byte and its address; one of the seven unstable opcodes is refused under
UNSTABLE_POLICY = refuse; in every other case the step answers a next state. AddressDispatchGap never happens, and no
operand, stack or arithmetic condition faults. (R301, R302, R300, R283, R305) -/
def Obligations.MappedStepNeverHitsAGap : Prop :=
  ∀ s : State, s.FullyMapped → s.defined = .all → ∃ op, memRead s s.pc = .ok op ∧
    ((rowOf op.val).cls = .halt → step s = .fault (.invalidOpcode op.val s.pc)) ∧
    ((rowOf op.val).cls = .unst → s.params.unstable = .refuse → step s = .refused (.unstableOpcode op.val s.pc)) ∧
    ((rowOf op.val).cls = .unst → s.params.unstable = .execute → ∃ t, step s = .next t) ∧
    ((rowOf op.val).cls = .doc ∨ (rowOf op.val).cls = .undoc → ∃ t, step s = .next t)

/-- O12. From a state whose bus is well formed, a step that answers a next state leaves the parameters as they are and the
region list the same in number, order, identifiers, ranges and kinds: storage changes, regions are never lost, added
or resized by a step. That a write hook adds no region is the model's choice (log entry 4): it remaps regions of the
list. (R7, R50, R51, R56, R342) -/
def Obligations.StepKeepsParametersAndRegionShapes : Prop :=
  ∀ s t : State, s.busWf = true → step s = .next t →
    t.params = s.params ∧ t.regions.map Region.shape = s.regions.map Region.shape

/-- O13. A step that answers a next state leaves every ROM region of the list as it was, mapped or shadowed, whatever the
step stores and whatever trap or reset ends it. (R53, R302, R71) -/
def Obligations.RomNeverChanges : Prop :=
  ∀ (s t : State) (i : Nat) (r : Region) (m : Memory), step s = .next t → lookupRegion s.regions i = some r →
    r.backing = .rom m → lookupRegion t.regions i = some r

/-- O14. From a state with no IO region, a step that answers a next state leaves no IO region and leaves the dispatch
table as it was: each address is answered by the same region, or by none. A program can change the table only through
an IO region's write hook. (R37, R58) -/
def Obligations.DispatchTableFixedWithoutIo : Prop :=
  ∀ s t : State, s.NoIo → step s = .next t →
    t.NoIo ∧ t.mapOrder = s.mapOrder ∧
      ∀ a : Addr, (t.responsible a).map Region.shape = (s.responsible a).map Region.shape

/-- O15. Of every instruction that answers a next state: the returned cost is at least 2 and at most 8; it is 8 exactly
for the izx and izy forms of the six read-modify-write composites; for a branch it is 2, 3 or 4. Both ends are
reached. (R99) -/
def Obligations.CostIsTwoToEight : Prop :=
  (∀ (i : Instr) (s t : State), exec i s = .next t →
      2 ≤ t.consumed ∧ t.consumed ≤ 8 ∧
        (t.consumed = 8 ↔
          i.mnemonic ∈ [.SLO, .RLA, .SRE, .RRA, .DCP, .ISB] ∧ (i.row.mode = .izx ∨ i.row.mode = .izy)) ∧
        (i.row.mode = .rel → t.consumed = 2 ∨ t.consumed = 3 ∨ t.consumed = 4)) ∧
    (∃ i t, exec i State.reset = .next t ∧ t.consumed = 2) ∧ ∃ i t, exec i State.reset = .next t ∧ t.consumed = 8

/-- O16. Of every instruction that answers a next state: cycles goes up, modulo 2^64, by exactly the cost returned; the
pending set, the parameters and the marks of which registers are defined are unchanged; the model's draw counter goes
up by 1 for ADC, SBC, RRA, ISB in decimal mode and is unchanged otherwise (log entry 3). (R35, R97, R98, R305, R304) -/
def Obligations.InstructionAccounting : Prop :=
  ∀ (i : Instr) (s t : State), exec i s = .next t →
    t.cycles = s.cycles + BitVec.ofNat 64 t.consumed ∧ t.pending = s.pending ∧ t.params = s.params ∧
      t.defined = s.defined ∧ t.draws = s.draws + (if s.p.d = true ∧ i.mnemonic ∈ [.ADC, .SBC, .RRA, .ISB] then 1 else 0)

/-- O17. InterruptCheck: a pending RESET is removed and reset() run; else a pending NMI is removed and its trap entered,
whatever I is; else a pending IRQ is removed and its trap entered when I = 0, stays when I = 1 under keep, and is
removed with nothing else when I = 1 under drop; with nothing pending nothing happens. (R306) -/
def Obligations.CheckServicesOneRequest : Prop :=
  ∀ s : State,
    (s.pending.reset = true →
      interruptCheck s = resetMachine { s with pending := { s.pending with reset := false } }) ∧
    (s.pending.reset = false → s.pending.nmi = true →
      interruptCheck s = trap .nmi { s with pending := { s.pending with nmi := false } }) ∧
    (s.pending.reset = false → s.pending.nmi = false → s.pending.irq = true → s.p.i = false →
      interruptCheck s = trap .irq { s with pending := { s.pending with irq := false } }) ∧
    (s.pending.reset = false → s.pending.nmi = false → s.pending.irq = true → s.p.i = true →
      s.params.irqMasked = .drop → interruptCheck s = .ok { s with pending := { s.pending with irq := false } }) ∧
    (s.pending.reset = false → s.pending.nmi = false → s.pending.irq = true → s.p.i = true →
      s.params.irqMasked = .keep → interruptCheck s = .ok s) ∧
    (s.pending = { reset := false, nmi := false, irq := false } → interruptCheck s = .ok s)

/-- O18. queue_interrupt adds its kind to the pending set and changes nothing else; queueing a kind twice is queueing it
once, and the order of two requests does not matter. When a step answers a next state, the pending set after it is:
empty if RESET was pending; without NMI, else the same, if NMI was and RESET was not; without IRQ if only IRQ was
pending and I after the instruction is 0 or the policy is drop; the same otherwise. The instruction itself neither
adds nor removes a request, and a masked IRQ waits or is dropped as IRQ_MASKED_POLICY says. (R304, R306, R307, R308,
R309, R36) -/
def Obligations.StepTakesAtMostOneRequest : Prop :=
  (∀ s t : State, step s = .next t → ∃ f u, fetch s = .ok f ∧ exec f.instr f.state = .next u ∧
      t.pending =
        if s.pending.reset then { reset := false, nmi := false, irq := false }
        else if s.pending.nmi then { s.pending with nmi := false }
        else if s.pending.irq && u.p.i && decide (s.params.irqMasked = .keep) then s.pending
        else { s.pending with irq := false }) ∧
    (∀ (k : RequestKind) (s : State), queueInterrupt k (queueInterrupt k s) = queueInterrupt k s) ∧
    (∀ (j k : RequestKind) (s : State), queueInterrupt j (queueInterrupt k s) = queueInterrupt k (queueInterrupt j s)) ∧
    (∀ s : State, queueInterrupt .reset s = { s with pending := { s.pending with reset := true } }) ∧
    (∀ s : State, queueInterrupt .nmi s = { s with pending := { s.pending with nmi := true } }) ∧
    ∀ s : State, queueInterrupt .irq s = { s with pending := { s.pending with irq := true } }

/-- O19. With every address mapped, trap of any kind answers: it pushes the return address, high byte first, and the flags
byte with bit 5 set and bit 4 set for BRK only; sets I; reads the low byte of PC through the bus at the kind's vector
and the high byte at the address after it, on the state after the pushes; and adds 7 to cycles for NMI and IRQ, 0 for
BRK. The return address is PC, and for BRK, entered one past its opcode, PC + 1. Where besides the bus is well formed
and the stack page is RAM, the state answered holds those three bytes at SP, SP-1, SP-2, has SP down by 3 modulo 256,
and every other byte of RAM and ROM, the dispatch table, every other register and every other flag, D included, as
before. (R310) -/
def Obligations.TrapEntrySavesPcAndFlags : Prop :=
  ∀ (kind : TrapKind) (s : State), s.FullyMapped →
    let slot := fun n : Byte => wordOf s.params.stackPage (s.sp - n)
    let ret := if kind = .brk then s.pc + 1 else s.pc
    let flags := s.p.pack ||| 0x20 ||| (if kind = .brk then 0x10 else 0)
    let vec := if kind = .nmi then s.params.vecNmi else s.params.vecIrq
    ∃ a b c l h t, push s (hi ret) = .ok a ∧ push a (lo ret) = .ok b ∧ push b flags = .ok c ∧
      memRead { c with p := { s.p with i := true } } vec = .ok l ∧ memRead l.state (vec + 1) = .ok h ∧
      t = { h.state with
        pc := wordOf h.val l.val, cycles := if kind = .brk then s.cycles else s.cycles + 7 } ∧
      trap kind s = .ok t ∧
      (s.busWf = true → s.StackInRam →
        diagRead t (slot 0) = .ok (hi ret) ∧ diagRead t (slot 1) = .ok (lo ret) ∧ diagRead t (slot 2) = .ok flags ∧
          (∀ a : Addr, a ≠ slot 0 → a ≠ slot 1 → a ≠ slot 2 → s.PlainAt a → t.PlainAt a ∧ diagRead t a = diagRead s a) ∧
          t = { s with
            sp := s.sp - 3, p := { s.p with i := true }, pc := t.pc, regions := t.regions, cycles := t.cycles })

/-- O20. With a well-formed bus, every address mapped and the stack page RAM: whatever the kind of trap, returning from
the state the entry answers restores the flags as they were before the entry, I included, SP, and PC to the address
the entry pushed; A, X, Y are as before. (R313, R236, R310, R316) -/
def Obligations.ReturnAfterTrapRestores : Prop :=
  ∀ (kind : TrapKind) (s : State), s.busWf = true → s.FullyMapped → s.StackInRam →
    ∃ t u, trap kind s = .ok t ∧ returnFromTrap t = .ok u ∧ u.p = s.p ∧ u.sp = s.sp ∧
      u.pc = (if kind = .brk then s.pc + 1 else s.pc) ∧ u.a = s.a ∧ u.x = s.x ∧ u.y = s.y

/-- O21. With a well-formed bus and the stack page RAM, for every SP: executing JSR w answers a next state with PC = w,
and executing RTS from it answers one with PC = the JSR's address plus 3 and SP as before the JSR. (R247) -/
def Obligations.ReturnAfterCallRestores : Prop :=
  ∀ (w : Addr) (s : State), s.busWf = true → s.StackInRam →
    ∃ t u, exec (.jsrAbs w) s = .next t ∧ t.pc = w ∧ exec .rts t = .next u ∧ u.pc = s.pc + 3 ∧ u.sp = s.sp

/-- O22. On a well-formed bus: a bus-level write at an address that RAM answers changes only the bus, the byte then read
there (bus-level, and diagnostic) is the byte written, and every other address reads, diagnostically, as before; a
write at an address that ROM answers leaves the whole state as it was. (R52, R53, R60, R61, R64) -/
def Obligations.RamWriteIsReadBackRomWriteIsDiscarded : Prop :=
  (∀ (s : State) (a : Addr) (v : Byte), s.busWf = true → s.kindAt a = some .ram →
      ∃ t, memWrite s a v = .ok t ∧ SameButBus s t ∧ memRead t a = .ok { val := v, state := t } ∧
        diagRead t a = .ok v ∧ ∀ b : Addr, b ≠ a → diagRead t b = diagRead s b) ∧
    ∀ (s : State) (a : Addr) (v : Byte), s.kindAt a = some .rom → memWrite s a v = .ok s

/-- O23. Of every address that an IO region r with history h answers, at offset off from its start: a bus-level read
answers ioRead of r's identifier, h and off, and puts that read in front of the history; a bus-level write puts itself
in front of the history and then maps, in order, the listed regions that ioRemap of r's identifier, h, off and the
byte names; a diagnostic read answers ioDiag, with no state after it; a read or write changes no other region and no
register, and a read no dispatch entry. Two writes while r answers run the hook twice: both stand in the history. The
form (an IO region's state as its history, its answers opaque functions of it) is the model's: log entry 4. (R54, R57,
R58, R60, R61, R64, R69) -/
def Obligations.IoAccessesRunTheRegionsHooks : Prop :=
  ∀ (s : State) (a : Addr), s.kindAt a = some .io → ∃ r h, s.responsible a = some r ∧ r.backing = .io h ∧
    let off := a.toNat - r.range.start
    let holds := fun (t : State) (e : List Config.IoEvent) =>
      lookupRegion t.regions r.id = some { r with backing := .io e } ∧
        ∀ j : Nat, j ≠ r.id → lookupRegion t.regions j = lookupRegion s.regions j
    diagRead s a = .ok (Config.ioDiag r.id h off) ∧
      (∃ t, memRead s a = .ok { val := Config.ioRead r.id h off, state := t } ∧ holds t (.read off :: h) ∧
        t = { s with regions := t.regions }) ∧
      ∀ v : Byte, ∃ t, memWrite s a v = .ok t ∧ holds t (.write off v :: h) ∧
        t = { s with
          regions := t.regions
          mapOrder := (Config.ioRemap r.id h off v).foldl
            (fun order j => if (lookupRegion s.regions j).isSome then bringToFront j order else order) s.mapOrder } ∧
        ∀ w : Byte, (t.responsible a).map Region.id = some r.id →
          ∃ u, memWrite t a w = .ok u ∧ holds u (.write off w :: .write off v :: h)

/-- O24. At an address with an empty dispatch entry the byte read, byte write, word read, word write, diagnostic read and
bulk copy of the address all raise AddressDispatchGap of that address; no default byte is returned. (R59) -/
def Obligations.UnmappedAccessRaisesTheGap : Prop :=
  ∀ (s : State) (a : Addr), s.responsible a = none →
    memRead s a = .error (.addressDispatchGap a) ∧ (∀ v, memWrite s a v = .error (.addressDispatchGap a)) ∧
      memReadWord s a = .error (.addressDispatchGap a) ∧ (∀ v, memWriteWord s a v = .error (.addressDispatchGap a)) ∧
      diagRead s a = .error (.addressDispatchGap a) ∧
      ∀ b bytes, a.toNat + (b :: bytes).length ≤ 65536 → bulkCopy a (b :: bytes) s = .fault (.addressDispatchGap a)

/-- O25. Mapping a well-formed region that is not in the list makes it answer for every address of its range, leaves every
other address answered as before, and appends it to the list; mapping a region whose identifier is in the list again
does the same with the region the list holds (that it is taken to be the listed one, whatever else is given, is the
model's reading: log entry 5); in both cases every region of the list keeps its storage, the one shadowed included.
(R56, R78) -/
def Obligations.MostRecentMappingWins : Prop :=
  (∀ (s : State) (r : Region), lookupRegion s.regions r.id = none → r.wf = true →
      (s.mapRegion r).regions = s.regions ++ [r] ∧
        ∀ a : Addr, (s.mapRegion r).responsible a = if r.range.holds a then some r else s.responsible a) ∧
    ∀ (s : State) (r g : Region), lookupRegion s.regions r.id = some g →
      (s.mapRegion r).regions = s.regions ∧
        ∀ a : Addr, (s.mapRegion r).responsible a = if g.range.holds a then some g else s.responsible a

/-- O26. At addresses a and a + 1 (modulo 65536) answered by RAM or ROM, the word read is the byte at a + 1 over the byte
at a, and changes nothing; where both are RAM on a well-formed bus, a word write puts the low byte at a and the high
byte at a + 1, and is read back. (R62, R63, R66) -/
def Obligations.WordAccessIsLittleEndian : Prop :=
  (∀ (s : State) (a : Addr) (l h : Byte), s.PlainAt a → s.PlainAt (a + 1) → diagRead s a = .ok l →
      diagRead s (a + 1) = .ok h →
      ∃ w : Addr, w.toNat = h.toNat * 256 + l.toNat ∧ memReadWord s a = .ok { val := w, state := s }) ∧
    ∀ (s : State) (a v : Addr), s.busWf = true → s.kindAt a = some .ram → s.kindAt (a + 1) = some .ram →
      ∃ t, memWriteWord s a v = .ok t ∧ diagRead t a = .ok (BitVec.ofNat 8 v.toNat) ∧
        diagRead t (a + 1) = .ok (BitVec.ofNat 8 (v.toNat / 256)) ∧ memReadWord t a = .ok { val := v, state := t }

/-- O27. On a well-formed bus, copying a list that ends at or below 0x10000 over addresses that RAM answers stores byte k
at a + k for each k and leaves every other address as it was; a copy that would pass 0xFFFF is refused; a copy that
comes to an address a ROM or IO region answers is refused, with that address. (R65) -/
def Obligations.BulkCopyStoresTheBytes : Prop :=
  (∀ (s : State) (a : Addr) (bytes : List Byte), s.busWf = true → a.toNat + bytes.length ≤ 65536 →
      (∀ k : Nat, k < bytes.length → s.kindAt (a + BitVec.ofNat 16 k) = some .ram) →
      ∃ t, bulkCopy a bytes s = .next t ∧ SameButBus s t ∧
        (∀ (k : Nat) (b : Byte), bytes[k]? = some b → diagRead t (a + BitVec.ofNat 16 k) = .ok b) ∧
        ∀ c : Addr, c.toNat < a.toNat ∨ a.toNat + bytes.length ≤ c.toNat → diagRead t c = diagRead s c) ∧
    (∀ (s : State) (a : Addr) (bytes : List Byte), 65536 < a.toNat + bytes.length →
      bulkCopy a bytes s = .refused (.bulkCopyPastEnd a bytes.length)) ∧
    ∀ (s : State) (a : Addr) (bytes : List Byte) (k : Nat), a.toNat + bytes.length ≤ 65536 → k < bytes.length →
      (∀ j : Nat, j < k → s.kindAt (a + BitVec.ofNat 16 j) = some .ram) →
      s.kindAt (a + BitVec.ofNat 16 k) = some .rom ∨ s.kindAt (a + BitVec.ofNat 16 k) = some .io →
      bulkCopy a bytes s = .refused (.bulkCopyNotRam (a + BitVec.ofNat 16 k))

/-- O28. Push writes the byte at STACK_PAGE ++ SP and then takes 1 from SP modulo 256; pull adds 1 to SP modulo 256 and
then reads at STACK_PAGE ++ SP; on a well-formed bus whose stack slot is RAM a pull right after a push of v answers v
and restores SP. (R27, R28) -/
def Obligations.PushThenPullRestores : Prop :=
  (∀ (s t : State) (v : Byte), memWrite s (wordOf s.params.stackPage s.sp) v = .ok t →
      push s v = .ok { t with sp := s.sp - 1 }) ∧
    (∀ (s : State) (r : BusRead), memRead { s with sp := s.sp + 1 } (wordOf s.params.stackPage (s.sp + 1)) = .ok r →
      pull s = .ok r) ∧
    ∀ (s : State) (v : Byte), s.busWf = true → s.kindAt (wordOf s.params.stackPage s.sp) = some .ram →
      ∃ t r, push s v = .ok t ∧ pull t = .ok r ∧ r.val = v ∧ r.state.sp = s.sp

/-- O29. Bits 7, 6, 3, 2, 1, 0 of P_flags are N, V, D, I, Z, C and bits 5, 4 are 0; the software byte has bits 5 and 4
set, the hardware byte bit 5 only; LoadP of either restores the six flags, and LoadP ignores bits 5 and 4; SetNZ sets
Z when the byte is 0 and N from its bit 7, and no other flag; the host reads bit 5 as 1 and bit 4 as 0 whatever it
wrote. (R30, R31, R32, R33, R42, R316) -/
def Obligations.FlagsBytePacksAndUnpacks : Prop :=
  (∀ (p : Flags) (k : Nat), p.pack.getLsbD k =
      if k = 7 then p.n else if k = 6 then p.v else if k = 3 then p.d else if k = 2 then p.i
      else if k = 1 then p.z else if k = 0 then p.c else false) ∧
    (∀ p : Flags, p.softwareByte = p.pack ||| 0x30 ∧ p.hardwareByte = p.pack ||| 0x20) ∧
    (∀ p : Flags, Flags.ofByte p.softwareByte = p ∧ Flags.ofByte p.hardwareByte = p) ∧
    (∀ b : Byte, (Flags.ofByte b).pack = b &&& 0xCF) ∧
    (∀ (p : Flags) (v : Byte), p.setNZ v = { p with z := decide (v = 0), n := v.getLsbD 7 }) ∧
    ∀ (b : Byte) (s : State), hostReadP (hostWriteP b s) = (b &&& 0xCF) ||| 0x20

/-- O30. AddBinary(a, m, c): the result byte plus 256 times the carry is a + m + c; the overflow bit is set exactly when
the sum of the signed values falls outside -128 to 127; and it equals ((a ^ r) & (m ^ r) & 0x80) != 0. (R160) -/
def Obligations.BinaryAddition : Prop :=
  ∀ (a m : Byte) (c : Bool),
    let r := addBinary a m c
    let signed : Int := a.toInt + m.toInt + bit c
    r.r.toNat + 256 * bit r.c = a.toNat + m.toNat + bit c ∧ (r.v = true ↔ signed < -128 ∨ 127 < signed) ∧
      r.v = decide ((a ^^^ r.r) &&& (m ^^^ r.r) &&& 0x80 ≠ 0)

/-- O31. For bytes whose nibbles are all 0 to 9: the result of AddDecimal is packed BCD, its value is the sum of the two
values and the carry modulo 100, and the carry is set exactly when that sum is 100 or more; the result of SubDecimal
is packed BCD, its value is the difference of the two values less the borrow modulo 100, and the carry is set exactly
when that difference is not negative. (R161, R162) -/
def Obligations.DecimalAdditionAndSubtraction : Prop :=
  ∀ (a m : Byte) (c : Bool), validBcd a = true → validBcd m = true →
    (validBcd (addDecimal a m c).r = true ∧
      bcdValue (addDecimal a m c).r = (bcdValue a + bcdValue m + bit c) % 100 ∧
      ((addDecimal a m c).c = true ↔ 100 ≤ bcdValue a + bcdValue m + bit c)) ∧
    let d : Int := bcdValue a - bcdValue m - (1 - bit c : Nat)
    validBcd (subDecimal a m c).r = true ∧ (bcdValue (subDecimal a m c).r : Int) = d % 100 ∧
      ((subDecimal a m c).c = true ↔ 0 ≤ d)

/-- O32. For packed-BCD bytes a, m and a carry c: let r, c1 be AddDecimal(a, m, c) and s, c2 be SubDecimal(r, m, 1 - c);
then s = a and c2 = 1 - c1. This is the form the spec says a model should test; the source's literal form is conflict
C1. (R165) -/
def Obligations.BcdRoundTrip : Prop :=
  ∀ (a m : Byte) (c : Bool), validBcd a = true → validBcd m = true →
    (subDecimal (addDecimal a m c).r m (!c)).r = a ∧
      (subDecimal (addDecimal a m c).r m (!c)).c = !(addDecimal a m c).c

/-- O33. zp: the byte; zpx, zpy: byte plus index modulo 256; abs: the word; abx, aby: word plus unsigned index modulo
65536, crossed exactly when the low bytes carry; izx: the word whose bytes stand in page 0 at byte + X and the next,
both modulo 256, never crossed; izy: the page-0 word at byte and the next modulo 256, plus Y modulo 65536, crossed
when the low bytes carry. The pointer bytes are read through the bus, the low byte first, each once, and the state is
the one after those reads; the other modes make no access. (R113, R114, R115, R117, R118, R119, R121, R122, R123) -/
def Obligations.EffectiveAddresses : Prop :=
  ∀ s : State,
    (∀ b, effAddr (.zp b) s = .ok { ea := BitVec.ofNat 16 b.toNat, crossed := false, state := s }) ∧
    (∀ b, effAddr (.zpx b) s =
      .ok { ea := BitVec.ofNat 16 ((b.toNat + s.x.toNat) % 256), crossed := false, state := s }) ∧
    (∀ b, effAddr (.zpy b) s =
      .ok { ea := BitVec.ofNat 16 ((b.toNat + s.y.toNat) % 256), crossed := false, state := s }) ∧
    (∀ w, effAddr (.abs w) s = .ok { ea := w, crossed := false, state := s }) ∧
    (∀ w, effAddr (.abx w) s =
      .ok
        { ea := BitVec.ofNat 16 (w.toNat + s.x.toNat), crossed := decide (256 ≤ w.toNat % 256 + s.x.toNat), state := s }) ∧
    (∀ w, effAddr (.aby w) s =
      .ok
        { ea := BitVec.ofNat 16 (w.toNat + s.y.toNat), crossed := decide (256 ≤ w.toNat % 256 + s.y.toNat), state := s }) ∧
    (∀ b l h,
      memRead s (BitVec.ofNat 16 ((b.toNat + s.x.toNat) % 256)) = .ok l →
        memRead l.state (BitVec.ofNat 16 ((b.toNat + s.x.toNat + 1) % 256)) = .ok h →
        effAddr (.izx b) s =
          .ok { ea := BitVec.ofNat 16 (h.val.toNat * 256 + l.val.toNat), crossed := false, state := h.state }) ∧
    ∀ b l h,
      memRead s (BitVec.ofNat 16 b.toNat) = .ok l → memRead l.state (BitVec.ofNat 16 ((b.toNat + 1) % 256)) = .ok h →
        effAddr (.izy b) s =
          .ok
            { ea := BitVec.ofNat 16 (h.val.toNat * 256 + l.val.toNat + s.y.toNat)
              crossed := decide (256 ≤ l.val.toNat + s.y.toNat), state := h.state }

/-- O34. The operand is read once and copied to A, X or Y; Z is set when it is 0, N is its bit 7; nothing else changes but
PC, cycles and what the bus reads do. For every form, with every address mapped, exec answers a next state: the cost
added is cyc plus 1 on a page crossing where the form pays it. Constructors: ldaIzx, ldaZp, ldaImm, ldaAbs, ldaIzy,
ldaZpx, ldaAby, ldaAbx, ldxImm, ldxZp, ldxAbs, ldxZpy, ldxAby, ldyImm, ldyZp, ldyAbs, ldyZpx, ldyAbx. (R130, R131,
R132) -/
def Obligations.Loads : Prop :=
  Encoded .LDA
        [(0xA1, .izx, 6, false), (0xA5, .zp, 3, false), (0xA9, .imm, 2, false), (0xAD, .abs, 4, false),
         (0xB1, .izy, 5, true), (0xB5, .zpx, 4, false), (0xB9, .aby, 4, true), (0xBD, .abx, 4, true)] ∧
    Encoded .LDX
        [(0xA2, .imm, 2, false), (0xA6, .zp, 3, false), (0xAE, .abs, 4, false), (0xB6, .zpy, 4, false),
         (0xBE, .aby, 4, true)] ∧
    Encoded .LDY
        [(0xA0, .imm, 2, false), (0xA4, .zp, 3, false), (0xAC, .abs, 4, false), (0xB4, .zpx, 4, false),
         (0xBC, .abx, 4, true)] ∧
    ActsOnOperand .LDA (fun m s => { s with a := m, p := { s.p with z := decide (m = 0), n := m.getLsbD 7 } }) ∧
    ActsOnOperand .LDX (fun m s => { s with x := m, p := { s.p with z := decide (m = 0), n := m.getLsbD 7 } }) ∧
    ActsOnOperand .LDY (fun m s => { s with y := m, p := { s.p with z := decide (m = 0), n := m.getLsbD 7 } })

/-- O35. Each transfer copies its source register to its destination; Z and N follow the byte copied, but TXS leaves every
flag alone; no bus access. From every state exec answers a next state, PC one on, cost 2. Constructors: tax, tay, txa,
tya, tsx, txs. (R133, R134, R135, R136, R137, R138) -/
def Obligations.Transfers : Prop :=
  Encoded .TAX
        [(0xAA, .imp, 2, false)] ∧
    Encoded .TAY
        [(0xA8, .imp, 2, false)] ∧
    Encoded .TXA
        [(0x8A, .imp, 2, false)] ∧
    Encoded .TYA
        [(0x98, .imp, 2, false)] ∧
    Encoded .TSX
        [(0xBA, .imp, 2, false)] ∧
    Encoded .TXS
        [(0x9A, .imp, 2, false)] ∧
    ActsImplied .TAX (fun s => { s with x := s.a, p := { s.p with z := decide (s.a = 0), n := s.a.getLsbD 7 } }) ∧
    ActsImplied .TAY (fun s => { s with y := s.a, p := { s.p with z := decide (s.a = 0), n := s.a.getLsbD 7 } }) ∧
    ActsImplied .TXA (fun s => { s with a := s.x, p := { s.p with z := decide (s.x = 0), n := s.x.getLsbD 7 } }) ∧
    ActsImplied .TYA (fun s => { s with a := s.y, p := { s.p with z := decide (s.y = 0), n := s.y.getLsbD 7 } }) ∧
    ActsImplied .TSX (fun s => { s with x := s.sp, p := { s.p with z := decide (s.sp = 0), n := s.sp.getLsbD 7 } }) ∧
    ActsImplied .TXS (fun s => { s with sp := s.x })

/-- O36. One bus write of the register's byte at the effective address of the form, no read of it; no flag and no register
but PC changes; the indexed forms pay no penalty. With every address mapped exec answers that next state for every
form. Constructors: staIzx, staZp, staAbs, staIzy, staZpx, staAby, staAbx, stxZp, stxAbs, stxZpy, styZp, styAbs,
styZpx, saxIzx, saxZp, saxAbs, saxZpy. (R150, R151, R152, R268) -/
def Obligations.Stores : Prop :=
  Encoded .STA
        [(0x81, .izx, 6, false), (0x85, .zp, 3, false), (0x8D, .abs, 4, false), (0x91, .izy, 6, false),
         (0x95, .zpx, 4, false), (0x99, .aby, 5, false), (0x9D, .abx, 5, false)] ∧
    Encoded .STX
        [(0x86, .zp, 3, false), (0x8E, .abs, 4, false), (0x96, .zpy, 4, false)] ∧
    Encoded .STY
        [(0x84, .zp, 3, false), (0x8C, .abs, 4, false), (0x94, .zpx, 4, false)] ∧
    Encoded .SAX
        [(0x83, .izx, 6, false), (0x87, .zp, 3, false), (0x8F, .abs, 4, false), (0x97, .zpy, 4, false)] ∧
    ActsByStoring .STA (fun s => s.a) ∧ ActsByStoring .STX (fun s => s.x) ∧ ActsByStoring .STY (fun s => s.y) ∧
    ActsByStoring .SAX (fun s => s.a &&& s.x)

/-- O37. With D = 0, A becomes A + m + C modulo 256, C the ninth bit, V signed overflow. With D = 1, A and C are
AddDecimal's when both operands are packed BCD, V is any value; with a nibble above 9 the result byte and C are any
values too (U3, log entry 3). Z and N follow the result byte in both modes; D is not written. For every form, with
every address mapped, exec answers a next state: the cost added is cyc plus 1 on a page crossing where the form pays
it. Constructors: adcIzx, adcZp, adcImm, adcAbs, adcIzy, adcZpx, adcAby, adcAbx. (R163, R160, R161, R166) -/
def Obligations.AdcAddsWithCarry : Prop :=
  Encoded .ADC
        [(0x61, .izx, 6, false), (0x65, .zp, 3, false), (0x69, .imm, 2, false), (0x6D, .abs, 4, false),
         (0x71, .izy, 5, true), (0x75, .zpx, 4, false), (0x79, .aby, 4, true), (0x7D, .abx, 4, true)] ∧
    EndsOnOperand .ADC AdcOutcome

/-- O38. With D = 0, A becomes A - m - (1 - C) modulo 256, C is 1 when no borrow was needed, V signed overflow. With D =
1, A and C are SubDecimal's when both operands are packed BCD, V is any value; with a nibble above 9 the result byte
and C are any values too (U3, log entry 3). Z and N follow the result byte; D is not written. For every form, with
every address mapped, exec answers a next state: the cost added is cyc plus 1 on a page crossing where the form pays
it. Constructors: sbcIzx, sbcZp, sbcImm, sbcImmEB, sbcAbs, sbcIzy, sbcZpx, sbcAby, sbcAbx. (R164, R162, R160, R273) -/
def Obligations.SbcSubtractsWithBorrow : Prop :=
  Encoded .SBC
        [(0xE1, .izx, 6, false), (0xE5, .zp, 3, false), (0xE9, .imm, 2, false), (0xEB, .imm, 2, false),
         (0xED, .abs, 4, false), (0xF1, .izy, 5, true), (0xF5, .zpx, 4, false), (0xF9, .aby, 4, true),
         (0xFD, .abx, 4, true)] ∧
    EndsOnOperand .SBC SbcOutcome

/-- O39. AND, ORA, EOR put the bitwise combination in A, with Z and N from it; BIT leaves A, sets Z from A & m and N, V
from bits 7, 6 of the operand. For every form, with every address mapped, exec answers a next state: the cost added is
cyc plus 1 on a page crossing where the form pays it. Constructors: andIzx, andZp, andImm, andAbs, andIzy, andZpx,
andAby, andAbx, oraIzx, oraZp, oraImm, oraAbs, oraIzy, oraZpx, oraAby, oraAbx, eorIzx, eorZp, eorImm, eorAbs, eorIzy,
eorZpx, eorAby, eorAbx, bitZp, bitAbs. (R170, R171, R172, R173) -/
def Obligations.LogicAndBitTest : Prop :=
  Encoded .AND
        [(0x21, .izx, 6, false), (0x25, .zp, 3, false), (0x29, .imm, 2, false), (0x2D, .abs, 4, false),
         (0x31, .izy, 5, true), (0x35, .zpx, 4, false), (0x39, .aby, 4, true), (0x3D, .abx, 4, true)] ∧
    Encoded .ORA
        [(0x01, .izx, 6, false), (0x05, .zp, 3, false), (0x09, .imm, 2, false), (0x0D, .abs, 4, false),
         (0x11, .izy, 5, true), (0x15, .zpx, 4, false), (0x19, .aby, 4, true), (0x1D, .abx, 4, true)] ∧
    Encoded .EOR
        [(0x41, .izx, 6, false), (0x45, .zp, 3, false), (0x49, .imm, 2, false), (0x4D, .abs, 4, false),
         (0x51, .izy, 5, true), (0x55, .zpx, 4, false), (0x59, .aby, 4, true), (0x5D, .abx, 4, true)] ∧
    Encoded .BIT
        [(0x24, .zp, 3, false), (0x2C, .abs, 4, false)] ∧
    ActsOnOperand .AND (fun m s =>
      let v := s.a &&& m
      { s with a := v, p := { s.p with z := decide (v = 0), n := v.getLsbD 7 } }) ∧
    ActsOnOperand .ORA (fun m s =>
      let v := s.a ||| m
      { s with a := v, p := { s.p with z := decide (v = 0), n := v.getLsbD 7 } }) ∧
    ActsOnOperand .EOR (fun m s =>
      let v := s.a ^^^ m
      { s with a := v, p := { s.p with z := decide (v = 0), n := v.getLsbD 7 } }) ∧
    ActsOnOperand .BIT (fun m s => { s with p := { s.p with z := decide (s.a &&& m = 0), n := m.getLsbD 7, v := m.getLsbD 6 } })

/-- O40. The accumulator form changes A and the flags with no bus access, from every state. The memory forms, with every
address mapped, read the operand once, write the old byte back, then write the new byte; C is the bit shifted out, Z
and N follow the new byte, and the rotates bring the old C in. Constructors: aslZp, aslAcc, aslAbs, aslZpx, aslAbx,
lsrZp, lsrAcc, lsrAbs, lsrZpx, lsrAbx, rolZp, rolAcc, rolAbs, rolZpx, rolAbx, rorZp, rorAcc, rorAbs, rorZpx, rorAbx.
(R180, R181, R182, R183, R184) -/
def Obligations.ShiftsAndRotates : Prop :=
  Encoded .ASL
        [(0x06, .zp, 5, false), (0x0A, .acc, 2, false), (0x0E, .abs, 6, false), (0x16, .zpx, 6, false),
         (0x1E, .abx, 7, false)] ∧
    Encoded .LSR
        [(0x46, .zp, 5, false), (0x4A, .acc, 2, false), (0x4E, .abs, 6, false), (0x56, .zpx, 6, false),
         (0x5E, .abx, 7, false)] ∧
    Encoded .ROL
        [(0x26, .zp, 5, false), (0x2A, .acc, 2, false), (0x2E, .abs, 6, false), (0x36, .zpx, 6, false),
         (0x3E, .abx, 7, false)] ∧
    Encoded .ROR
        [(0x66, .zp, 5, false), (0x6A, .acc, 2, false), (0x6E, .abs, 6, false), (0x76, .zpx, 6, false),
         (0x7E, .abx, 7, false)] ∧
    ModifiesAccumulator .ASL
      (fun old p =>
        let new := old <<< 1
        (new, { p with c := old.getLsbD 7, z := decide (new = 0), n := new.getLsbD 7 })) ∧
    ModifiesMemory .ASL
      (fun old p =>
        let new := old <<< 1
        (new, { p with c := old.getLsbD 7, z := decide (new = 0), n := new.getLsbD 7 })) ∧
    ModifiesAccumulator .LSR
      (fun old p =>
        let new := old >>> 1
        (new, { p with c := old.getLsbD 0, z := decide (new = 0), n := new.getLsbD 7 })) ∧
    ModifiesMemory .LSR
      (fun old p =>
        let new := old >>> 1
        (new, { p with c := old.getLsbD 0, z := decide (new = 0), n := new.getLsbD 7 })) ∧
    ModifiesAccumulator .ROL
      (fun old p =>
        let new := (old <<< 1) ||| (if p.c then 0x01 else 0x00)
        (new, { p with c := old.getLsbD 7, z := decide (new = 0), n := new.getLsbD 7 })) ∧
    ModifiesMemory .ROL
      (fun old p =>
        let new := (old <<< 1) ||| (if p.c then 0x01 else 0x00)
        (new, { p with c := old.getLsbD 7, z := decide (new = 0), n := new.getLsbD 7 })) ∧
    ModifiesAccumulator .ROR
      (fun old p =>
        let new := (old >>> 1) ||| (if p.c then 0x80 else 0x00)
        (new, { p with c := old.getLsbD 0, z := decide (new = 0), n := new.getLsbD 7 })) ∧
    ModifiesMemory .ROR
      (fun old p =>
        let new := (old >>> 1) ||| (if p.c then 0x80 else 0x00)
        (new, { p with c := old.getLsbD 0, z := decide (new = 0), n := new.getLsbD 7 }))

/-- O41. With every address mapped exec answers a next state for every form: the operand read once, the old byte written
back, the byte plus or minus 1 modulo 256 written; Z and N follow it; C and V are not touched. Constructors: incZp,
incAbs, incZpx, incAbx, decZp, decAbs, decZpx, decAbx. (R185, R186) -/
def Obligations.IncrementsAndDecrementsOfMemory : Prop :=
  Encoded .INC
        [(0xE6, .zp, 5, false), (0xEE, .abs, 6, false), (0xF6, .zpx, 6, false), (0xFE, .abx, 7, false)] ∧
    Encoded .DEC
        [(0xC6, .zp, 5, false), (0xCE, .abs, 6, false), (0xD6, .zpx, 6, false), (0xDE, .abx, 7, false)] ∧
    ModifiesMemory .INC (fun old p =>
        let new := old + 1
        (new, { p with z := decide (new = 0), n := new.getLsbD 7 })) ∧
    ModifiesMemory .DEC (fun old p =>
        let new := old - 1
        (new, { p with z := decide (new = 0), n := new.getLsbD 7 }))

/-- O42. X or Y goes up or down by 1 modulo 256, Z and N follow it, no other flag changes, no bus access; from every state
exec answers that next state, cost 2. Constructors: inx, iny, dex, dey. (R187, R188, R189, R190) -/
def Obligations.IncrementsAndDecrementsOfRegisters : Prop :=
  Encoded .INX
        [(0xE8, .imp, 2, false)] ∧
    Encoded .INY
        [(0xC8, .imp, 2, false)] ∧
    Encoded .DEX
        [(0xCA, .imp, 2, false)] ∧
    Encoded .DEY
        [(0x88, .imp, 2, false)] ∧
    ActsImplied .INX (fun s =>
      let v := s.x + 1
      { s with x := v, p := { s.p with z := decide (v = 0), n := v.getLsbD 7 } }) ∧
    ActsImplied .INY (fun s =>
      let v := s.y + 1
      { s with y := v, p := { s.p with z := decide (v = 0), n := v.getLsbD 7 } }) ∧
    ActsImplied .DEX (fun s =>
      let v := s.x - 1
      { s with x := v, p := { s.p with z := decide (v = 0), n := v.getLsbD 7 } }) ∧
    ActsImplied .DEY (fun s =>
      let v := s.y - 1
      { s with y := v, p := { s.p with z := decide (v = 0), n := v.getLsbD 7 } })

/-- O43. C is 1 when the register is at least the operand as unsigned numbers, Z exactly when they are equal, N is bit 7
of the 8-bit difference; D and the incoming C play no part; no register is written. For every form, with every address
mapped, exec answers a next state: the cost added is cyc plus 1 on a page crossing where the form pays it.
Constructors: cmpIzx, cmpZp, cmpImm, cmpAbs, cmpIzy, cmpZpx, cmpAby, cmpAbx, cpxImm, cpxZp, cpxAbs, cpyImm, cpyZp,
cpyAbs. (R200, R201, R202, R203) -/
def Obligations.Compares : Prop :=
  Encoded .CMP
        [(0xC1, .izx, 6, false), (0xC5, .zp, 3, false), (0xC9, .imm, 2, false), (0xCD, .abs, 4, false),
         (0xD1, .izy, 5, true), (0xD5, .zpx, 4, false), (0xD9, .aby, 4, true), (0xDD, .abx, 4, true)] ∧
    Encoded .CPX
        [(0xE0, .imm, 2, false), (0xE4, .zp, 3, false), (0xEC, .abs, 4, false)] ∧
    Encoded .CPY
        [(0xC0, .imm, 2, false), (0xC4, .zp, 3, false), (0xCC, .abs, 4, false)] ∧
    ActsOnOperand .CMP (fun m s =>
      { s with p := { s.p with c := decide (m.toNat ≤ s.a.toNat), z := decide (s.a = m), n := (s.a - m).getLsbD 7 } }) ∧
    ActsOnOperand .CPX (fun m s =>
      { s with p := { s.p with c := decide (m.toNat ≤ s.x.toNat), z := decide (s.x = m), n := (s.x - m).getLsbD 7 } }) ∧
    ActsOnOperand .CPY (fun m s =>
      { s with p := { s.p with c := decide (m.toNat ≤ s.y.toNat), z := decide (s.y = m), n := (s.y - m).getLsbD 7 } })

/-- O44. With e the address after the branch and t = e plus the sign-extended offset modulo 65536: not taken, PC = e at
cost 2; taken, PC = t at cost 3 when t is on e's page and 4 when it is not; nothing else changes and no bus access is
made. From every state exec answers that next state. Constructors: bpl, bmi, bvc, bvs, bcc, bcs, bne, beq. (R210,
R211, R212, R213, R214, R215, R216, R217, R218) -/
def Obligations.Branches : Prop :=
  Encoded .BPL
        [(0x10, .rel, 2, false)] ∧
    Encoded .BMI
        [(0x30, .rel, 2, false)] ∧
    Encoded .BVC
        [(0x50, .rel, 2, false)] ∧
    Encoded .BVS
        [(0x70, .rel, 2, false)] ∧
    Encoded .BCC
        [(0x90, .rel, 2, false)] ∧
    Encoded .BCS
        [(0xB0, .rel, 2, false)] ∧
    Encoded .BNE
        [(0xD0, .rel, 2, false)] ∧
    Encoded .BEQ
        [(0xF0, .rel, 2, false)] ∧
    BranchesOn .BPL (fun p => !p.n) ∧
    BranchesOn .BMI (fun p => p.n) ∧
    BranchesOn .BVC (fun p => !p.v) ∧
    BranchesOn .BVS (fun p => p.v) ∧
    BranchesOn .BCC (fun p => !p.c) ∧
    BranchesOn .BCS (fun p => p.c) ∧
    BranchesOn .BNE (fun p => !p.z) ∧
    BranchesOn .BEQ (fun p => p.z)

/-- O45. With every address mapped exec answers a next state: PHA pushes A and PHP the flags byte with bits 5 and 4 set,
no register but SP and no flag changing; PLA pulls A, with Z and N from it; PLP pulls all six flags, bits 5 and 4
ignored. Costs 3, 3, 4, 4. Constructors: pha, php, pla, plp. (R230, R231, R232, R233) -/
def Obligations.PushesAndPulls : Prop :=
  Encoded .PHA
        [(0x48, .imp, 3, false)] ∧
    Encoded .PHP
        [(0x08, .imp, 3, false)] ∧
    Encoded .PLA
        [(0x68, .imp, 4, false)] ∧
    Encoded .PLP
        [(0x28, .imp, 4, false)] ∧
    ∀ s : State, s.FullyMapped →
      (∃ t, push (s.advance 1) s.a = .ok t ∧ exec .pha s = .next (t.account 3)) ∧
      (∃ t, push (s.advance 1) (s.p.pack ||| 0x30) = .ok t ∧ exec .php s = .next (t.account 3)) ∧
      (∃ r, pull (s.advance 1) = .ok r ∧
        exec .pla s =
          .next (({ r.state with a := r.val, p := { s.p with z := decide (r.val = 0), n := r.val.getLsbD 7 } } : State).account 4)) ∧
      ∃ r, pull (s.advance 1) = .ok r ∧
        exec .plp s =
          .next
            (({ r.state with
                p :=
                  { n := r.val.getLsbD 7, v := r.val.getLsbD 6, d := r.val.getLsbD 3, i := r.val.getLsbD 2
                    z := r.val.getLsbD 1, c := r.val.getLsbD 0 } } : State).account 4)

/-- O46. JMP sets PC to its word from every state; JMP indirect to the word whose low byte is at the pointer and whose
high byte is at the next address of the same page; JSR pushes the address of its own third byte, high byte first, and
jumps; RTS pulls a word, low byte first, and adds 1. No flag changes. With every address mapped (JMP abs: always) exec
answers that next state; costs 3, 5, 6, 6. Constructors: jmpAbs, jmpInd, jsrAbs, rts. (R234, R235, R237, R120) -/
def Obligations.JumpsAndSubroutines : Prop :=
  Encoded .JMP
        [(0x4C, .abs, 3, false), (0x6C, .ind, 5, false)] ∧
    Encoded .JSR
        [(0x20, .abs, 6, false)] ∧
    Encoded .RTS
        [(0x60, .imp, 6, false)] ∧
    (∀ (w : Addr) (s : State), exec (.jmpAbs w) s = .next (({ s with pc := w } : State).account 3)) ∧
    (∀ (w : Addr) (s : State), s.FullyMapped → ∃ l h,
      memRead (s.advance 3) w = .ok l ∧
        memRead l.state (BitVec.ofNat 16 (w.toNat / 256 * 256 + (w.toNat + 1) % 256)) = .ok h ∧
        exec (.jmpInd w) s = .next (({ h.state with pc := wordOf h.val l.val } : State).account 5)) ∧
    (∀ (w : Addr) (s : State), s.FullyMapped → ∃ t u,
      push (s.advance 3) (hi (s.pc + 2)) = .ok t ∧ push t (lo (s.pc + 2)) = .ok u ∧
        exec (.jsrAbs w) s = .next (({ u with pc := w } : State).account 6)) ∧
    ∀ s : State, s.FullyMapped → ∃ l h,
      pull (s.advance 1) = .ok l ∧ pull l.state = .ok h ∧
        exec .rts s = .next (({ h.state with pc := wordOf h.val l.val + 1 } : State).account 6)

/-- O47. With every address mapped exec answers a next state: BRK pushes the address two past its opcode, high byte first,
and the flags byte with bits 5 and 4 set, sets I and loads PC from VEC_IRQ, whatever I was, at cost 7; RTI pulls the
six flags and then PC, low byte first, with no 1 added, at cost 6. Constructors: brk, rti. (R238, R236) -/
def Obligations.BreakAndReturnFromInterrupt : Prop :=
  Encoded .BRK
        [(0x00, .imp, 7, false)] ∧
    Encoded .RTI
        [(0x40, .imp, 6, false)] ∧
    (∀ s : State, s.FullyMapped → ∃ a b c l h,
      push (s.advance 1) (hi (s.pc + 2)) = .ok a ∧ push a (lo (s.pc + 2)) = .ok b ∧ push b (s.p.pack ||| 0x30) = .ok c ∧
        memRead { c with p := { s.p with i := true } } s.params.vecIrq = .ok l ∧
        memRead l.state (s.params.vecIrq + 1) = .ok h ∧
        exec .brk s = .next (({ h.state with pc := wordOf h.val l.val } : State).account 7)) ∧
    ∀ s : State, s.FullyMapped → ∃ f l h,
      pull (s.advance 1) = .ok f ∧
        pull
            { f.state with
              p :=
                { n := f.val.getLsbD 7, v := f.val.getLsbD 6, d := f.val.getLsbD 3, i := f.val.getLsbD 2
                  z := f.val.getLsbD 1, c := f.val.getLsbD 0 } } = .ok l ∧
        pull l.state = .ok h ∧ exec .rti s = .next (({ h.state with pc := wordOf h.val l.val } : State).account 6)

/-- O48. CLC, SEC, CLI, SEI, CLV, CLD, SED write the one flag named and nothing else; NOP writes nothing; no bus access.
From every state exec answers that next state with PC one on, cost 2. Constructors: clc, sec, cli, sei, clv, cld, sed,
nop. (R239, R240, R241, R242, R243, R244, R245, R246) -/
def Obligations.FlagInstructionsAndNop : Prop :=
  Encoded .CLC
        [(0x18, .imp, 2, false)] ∧
    Encoded .SEC
        [(0x38, .imp, 2, false)] ∧
    Encoded .CLI
        [(0x58, .imp, 2, false)] ∧
    Encoded .SEI
        [(0x78, .imp, 2, false)] ∧
    Encoded .CLV
        [(0xB8, .imp, 2, false)] ∧
    Encoded .CLD
        [(0xD8, .imp, 2, false)] ∧
    Encoded .SED
        [(0xF8, .imp, 2, false)] ∧
    rowOf 0xEA = { mnemonic := .NOP, mode := .imp, cyc := 2, pp := false, cls := .doc } ∧
    ActsImplied .CLC (fun s => { s with p := { s.p with c := false } }) ∧
    ActsImplied .SEC (fun s => { s with p := { s.p with c := true } }) ∧
    ActsImplied .CLI (fun s => { s with p := { s.p with i := false } }) ∧
    ActsImplied .SEI (fun s => { s with p := { s.p with i := true } }) ∧
    ActsImplied .CLV (fun s => { s with p := { s.p with v := false } }) ∧
    ActsImplied .CLD (fun s => { s with p := { s.p with d := false } }) ∧
    ActsImplied .SED (fun s => { s with p := { s.p with d := true } }) ∧
    (∀ s : State, exec .nop s = .next ((s.advance 1).account 2))

/-- O49. With every address mapped exec answers a next state for every form: read, write old, write new with the flags of
ASL, ROL, LSR, ROR, DEC or INC, then the operand is read again through the bus and ORA, AND, EOR, ADC, CMP or SBC done
with it, using the flags the first left; the cost is the form's own. In decimal mode RRA and ISB end as ADC and SBC do
(log entry 3). Constructors: sloIzx, sloZp, sloAbs, sloIzy, sloZpx, sloAby, sloAbx, rlaIzx, rlaZp, rlaAbs, rlaIzy,
rlaZpx, rlaAby, rlaAbx, sreIzx, sreZp, sreAbs, sreIzy, sreZpx, sreAby, sreAbx, rraIzx, rraZp, rraAbs, rraIzy, rraZpx,
rraAby, rraAbx, dcpIzx, dcpZp, dcpAbs, dcpIzy, dcpZpx, dcpAby, dcpAbx, isbIzx, isbZp, isbAbs, isbIzy, isbZpx, isbAby,
isbAbx. (R260, R261, R262, R263, R264, R265, R266) -/
def Obligations.ReadModifyWriteComposites : Prop :=
  Encoded .SLO
        [(0x03, .izx, 8, false), (0x07, .zp, 5, false), (0x0F, .abs, 6, false), (0x13, .izy, 8, false),
         (0x17, .zpx, 6, false), (0x1B, .aby, 7, false), (0x1F, .abx, 7, false)] ∧
    Encoded .RLA
        [(0x23, .izx, 8, false), (0x27, .zp, 5, false), (0x2F, .abs, 6, false), (0x33, .izy, 8, false),
         (0x37, .zpx, 6, false), (0x3B, .aby, 7, false), (0x3F, .abx, 7, false)] ∧
    Encoded .SRE
        [(0x43, .izx, 8, false), (0x47, .zp, 5, false), (0x4F, .abs, 6, false), (0x53, .izy, 8, false),
         (0x57, .zpx, 6, false), (0x5B, .aby, 7, false), (0x5F, .abx, 7, false)] ∧
    Encoded .RRA
        [(0x63, .izx, 8, false), (0x67, .zp, 5, false), (0x6F, .abs, 6, false), (0x73, .izy, 8, false),
         (0x77, .zpx, 6, false), (0x7B, .aby, 7, false), (0x7F, .abx, 7, false)] ∧
    Encoded .DCP
        [(0xC3, .izx, 8, false), (0xC7, .zp, 5, false), (0xCF, .abs, 6, false), (0xD3, .izy, 8, false),
         (0xD7, .zpx, 6, false), (0xDB, .aby, 7, false), (0xDF, .abx, 7, false)] ∧
    Encoded .ISB
        [(0xE3, .izx, 8, false), (0xE7, .zp, 5, false), (0xEF, .abs, 6, false), (0xF3, .izy, 8, false),
         (0xF7, .zpx, 6, false), (0xFB, .aby, 7, false), (0xFF, .abx, 7, false)] ∧
    ModifiesThenActs .SLO
      (fun old p =>
        let new := old <<< 1
        (new, { p with c := old.getLsbD 7, z := decide (new = 0), n := new.getLsbD 7 }))
      (fun m s v => v =
        { s with a := s.a ||| m, p := { s.p with z := decide (s.a ||| m = 0), n := (s.a ||| m).getLsbD 7 } }) ∧
    ModifiesThenActs .RLA
      (fun old p =>
        let new := (old <<< 1) ||| (if p.c then 0x01 else 0x00)
        (new, { p with c := old.getLsbD 7, z := decide (new = 0), n := new.getLsbD 7 }))
      (fun m s v => v =
        { s with a := s.a &&& m, p := { s.p with z := decide (s.a &&& m = 0), n := (s.a &&& m).getLsbD 7 } }) ∧
    ModifiesThenActs .SRE
      (fun old p =>
        let new := old >>> 1
        (new, { p with c := old.getLsbD 0, z := decide (new = 0), n := new.getLsbD 7 }))
      (fun m s v => v =
        { s with a := s.a ^^^ m, p := { s.p with z := decide (s.a ^^^ m = 0), n := (s.a ^^^ m).getLsbD 7 } }) ∧
    ModifiesThenActs .RRA
      (fun old p =>
        let new := (old >>> 1) ||| (if p.c then 0x80 else 0x00)
        (new, { p with c := old.getLsbD 0, z := decide (new = 0), n := new.getLsbD 7 }))
      AdcOutcome ∧
    ModifiesThenActs .DCP
      (fun old p =>
        let new := old - 1
        (new, { p with z := decide (new = 0), n := new.getLsbD 7 }))
      (fun m s v => v =
      { s with p := { s.p with c := decide (m.toNat ≤ s.a.toNat), z := decide (s.a = m), n := (s.a - m).getLsbD 7 } }) ∧
    ModifiesThenActs .ISB
      (fun old p =>
        let new := old + 1
        (new, { p with z := decide (new = 0), n := new.getLsbD 7 }))
      SbcOutcome

/-- O50. With every address mapped exec answers a next state for every form: the operand is read into A with Z and N set,
and read again into X with Z and N set from the second byte. Constructors: laxIzx, laxZp, laxAbs, laxIzy, laxZpy,
laxAby. (R267) -/
def Obligations.LaxLoadsTwice : Prop :=
  Encoded .LAX
        [(0xA3, .izx, 6, false), (0xA7, .zp, 3, false), (0xAF, .abs, 4, false), (0xB3, .izy, 5, true),
         (0xB7, .zpy, 4, false), (0xBF, .aby, 4, true)] ∧
    ∀ (i : Instr) (s : State), i.mnemonic = .LAX → s.FullyMapped →
      ∃ o r b c, i.memOperand = some o ∧ effAddr o (s.advance i.row.len) = .ok r ∧ memRead r.state r.ea = .ok b ∧
        memRead { b.state with a := b.val, p := { s.p with z := decide (b.val = 0), n := b.val.getLsbD 7 } } r.ea = .ok c ∧
        exec i s =
          .next
            (({ c.state with x := c.val, p := { s.p with z := decide (c.val = 0), n := c.val.getLsbD 7 } } : State).account
              (cost i.row.cyc i.row.pp r.crossed))

/-- O51. The one-byte forms advance PC by 1 and cost 2, from every state; the others, with every address mapped, read
their operand once, throw it away, and advance PC by the length of the mode; no register but PC and no flag is
written; the abx forms pay the page penalty. exec answers that next state for every form. Constructors: nopZp04,
nopAbs, nopZpx14, nop1A, nopAbx1C, nopZpx34, nop3A, nopAbx3C, nopZp44, nopZpx54, nop5A, nopAbx5C, nopZp64, nopZpx74,
nop7A, nopAbx7C, nopImm80, nopImm82, nopImm89, nopImmC2, nopZpxD4, nopDA, nopAbxDC, nopImmE2, nop, nopZpxF4, nopFA,
nopAbxFC. (R274) -/
def Obligations.NopsReadAndForget : Prop :=
  Encoded .NOP
        [(0x04, .zp, 3, false), (0x0C, .abs, 4, false), (0x14, .zpx, 4, false), (0x1A, .imp, 2, false),
         (0x1C, .abx, 4, true), (0x34, .zpx, 4, false), (0x3A, .imp, 2, false), (0x3C, .abx, 4, true),
         (0x44, .zp, 3, false), (0x54, .zpx, 4, false), (0x5A, .imp, 2, false), (0x5C, .abx, 4, true),
         (0x64, .zp, 3, false), (0x74, .zpx, 4, false), (0x7A, .imp, 2, false), (0x7C, .abx, 4, true),
         (0x80, .imm, 2, false), (0x82, .imm, 2, false), (0x89, .imm, 2, false), (0xC2, .imm, 2, false),
         (0xD4, .zpx, 4, false), (0xDA, .imp, 2, false), (0xDC, .abx, 4, true), (0xE2, .imm, 2, false),
         (0xEA, .imp, 2, false), (0xF4, .zpx, 4, false), (0xFA, .imp, 2, false), (0xFC, .abx, 4, true)] ∧
    ActsImplied .NOP (fun s => s) ∧ ActsOnOperand .NOP (fun _ s => s)

/-- O52. ANC: A & m, with C its bit 7; ALR: A & m shifted right; ARR: A & m rotated right, with its own C and V, and in
decimal mode its own corrections; SBX: X becomes (A & X) - m with the flags of a compare; LAS: A, X, SP become m & SP.
For every form, with every address mapped, exec answers a next state: the cost added is cyc plus 1 on a page crossing
where the form pays it. Constructors: ancImm0B, ancImm2B, alrImm, arrImm, sbxImm, lasAby. (ARR in decimal mode: log
entry 15.) (R269, R270, R271, R272, R275) -/
def Obligations.OtherUndocumentedOperations : Prop :=
  Encoded .ANC
        [(0x0B, .imm, 2, false), (0x2B, .imm, 2, false)] ∧
    Encoded .ALR
        [(0x4B, .imm, 2, false)] ∧
    Encoded .ARR
        [(0x6B, .imm, 2, false)] ∧
    Encoded .SBX
        [(0xCB, .imm, 2, false)] ∧
    Encoded .LAS
        [(0xBB, .aby, 4, true)] ∧
    ActsOnOperand .ANC (fun m s =>
      let v := s.a &&& m
      { s with a := v, p := { s.p with z := decide (v = 0), n := v.getLsbD 7, c := v.getLsbD 7 } }) ∧
    ActsOnOperand .ALR (fun m s =>
      let t := s.a &&& m
      let v := t >>> 1
      { s with a := v, p := { s.p with z := decide (v = 0), n := v.getLsbD 7, c := t.getLsbD 0 } }) ∧
    ActsOnOperand .ARR (fun m s =>
      let t := s.a &&& m
      let r := (t >>> 1) ||| (if s.p.c then 0x80 else 0x00)
      let low : Byte := if 5 < (t &&& 0x0F).toNat + (t &&& 0x01).toNat then (r &&& 0xF0) ||| ((r + 6) &&& 0x0F) else r
      let up := decide (0x50 < (t &&& 0xF0).toNat + (t &&& 0x10).toNat)
      if s.p.d = false then
        { s with
          a := r
          p := { s.p with
            z := decide (r = 0), n := r.getLsbD 7, c := r.getLsbD 6, v := r.getLsbD 6 ^^ r.getLsbD 5 } }
      else
        { s with
          a := if up then low + 0x60 else low
          p := { s.p with n := s.p.c, z := decide (r = 0), v := t.getLsbD 6 ^^ r.getLsbD 6, c := up } }) ∧
    ActsOnOperand .SBX (fun m s =>
      let t := s.a &&& s.x
      let v := t - m
      { s with x := v, p := { s.p with z := decide (v = 0), n := v.getLsbD 7, c := decide (m.toNat ≤ t.toNat) } }) ∧
    ActsOnOperand .LAS (fun m s =>
      let v := m &&& s.sp
      { s with a := v, x := v, sp := v, p := { s.p with z := decide (v = 0), n := v.getLsbD 7 } })

/-- O53. Under execute: ANE and LXA compute with the magic constants from every state; SHA, SHX, SHY, TAS, with every
address mapped, store the register value ANDed with the base address's high byte plus 1, at the effective address,
whose high byte that value replaces when the index crosses a page; TAS first sets SP to A & X; no flag changes in the
stores. exec answers that next state for every form. Constructors: aneImm, lxaImm, shaIzy, shaAby, shxAby, shyAbx,
tasAby. (R277, R278, R279, R280, R281, R282) -/
def Obligations.UnstableOpcodesUnderExecute : Prop :=
  Encoded .ANE
        [(0x8B, .imm, 2, false)] ∧
    Encoded .LXA
        [(0xAB, .imm, 2, false)] ∧
    Encoded .SHA
        [(0x93, .izy, 6, false), (0x9F, .aby, 5, false)] ∧
    Encoded .SHX
        [(0x9E, .aby, 5, false)] ∧
    Encoded .SHY
        [(0x9C, .abx, 5, false)] ∧
    Encoded .TAS
        [(0x9B, .aby, 5, false)] ∧
    (∀ (b : Byte) (s : State), s.params.unstable = .execute →
      exec (.aneImm b) s =
        .next
          (({ s.advance 2 with
              a := (s.a ||| s.params.aneMagic) &&& s.x &&& b
              p := { s.p with
                z := decide ((s.a ||| s.params.aneMagic) &&& s.x &&& b = 0)
                n := ((s.a ||| s.params.aneMagic) &&& s.x &&& b).getLsbD 7 } } : State).account 2)) ∧
    (∀ (b : Byte) (s : State), s.params.unstable = .execute →
      exec (.lxaImm b) s =
        .next
          (({ s.advance 2 with
              a := (s.a ||| s.params.lxaMagic) &&& b
              x := (s.a ||| s.params.lxaMagic) &&& b
              p := { s.p with
                z := decide ((s.a ||| s.params.lxaMagic) &&& b = 0)
                n := ((s.a ||| s.params.lxaMagic) &&& b).getLsbD 7 } } : State).account 2)) ∧
    ActsByUnstableStore .SHA (fun s => s) (fun s => s.a &&& s.x) ∧ ActsByUnstableStore .SHX (fun s => s) (fun s => s.x) ∧
    ActsByUnstableStore .SHY (fun s => s) (fun s => s.y) ∧
    ActsByUnstableStore .TAS (fun s => { s with sp := s.a &&& s.x }) (fun s => s.sp)

/-- O54. Every JAM instruction stops with InvalidOpcode, its opcode byte and its address (PC at the opcode), from every
state, and, every register being defined (R343), a step at such a byte in RAM or ROM stops so too, with no interrupt
check; under UNSTABLE_POLICY = refuse each of the seven unstable opcodes is refused with its byte and address. (R276,
R300, R283) -/
def Obligations.HaltAndRefusedOpcodesStop : Prop :=
  Encoded .JAM
        [(0x02, .imp, 0, false), (0x12, .imp, 0, false), (0x22, .imp, 0, false), (0x32, .imp, 0, false),
         (0x42, .imp, 0, false), (0x52, .imp, 0, false), (0x62, .imp, 0, false), (0x72, .imp, 0, false),
         (0x92, .imp, 0, false), (0xB2, .imp, 0, false), (0xD2, .imp, 0, false), (0xF2, .imp, 0, false)] ∧
    (∀ (i : Instr) (s : State), i.mnemonic = .JAM → exec i s = .fault (.invalidOpcode i.opcode s.pc)) ∧
    (∀ (i : Instr) (s : State), i.mnemonic = .JAM → s.CodeAt [i.opcode] → s.defined = .all →
      step s = .fault (.invalidOpcode i.opcode s.pc)) ∧
    ∀ (i : Instr) (s : State), i.row.cls = .unst → s.params.unstable = .refuse →
      exec i s = .refused (.unstableOpcode i.opcode s.pc)

/-- O55. What an end of a run is, that a run has both ends and a step count, and that a looping state repeats but for
cycles and the returned cost, is the model's choice and reading (log entry 19); R351 asks a model to define an end and
names both. The instruction at PC jumps to itself exactly when it is JMP to its own address, JMP indirect through two
bytes of RAM or ROM that hold its own address, or a branch with offset 0xFE whose flag takes it; State.loopsInPlace
says this of the bytes in RAM or ROM at PC; from such a state, with every register defined and nothing pending, any
number n of steps answers the same state, but that cycles is up by n times a cost of 3, 4 or 5, which is the cost
returned. A run to an address with a stated step count stands still once it has ended (PC there, or looping in place),
and whatever it answers is reached by a number of steps within the count that is either all of it or leads to an end.
(R351, R210, R237, R120, R343) -/
def Obligations.RunEndsInPlaceOrAtAStop : Prop :=
  (∀ (i : Instr) (s : State), jumpsToItself i s = true ↔
      i = .jmpAbs s.pc ∨
        (∃ w : Addr, i = .jmpInd w ∧
          let next : Addr := BitVec.ofNat 16 (w.toNat / 256 * 256 + (w.toNat + 1) % 256)
          s.PlainAt w ∧ s.PlainAt next ∧ diagRead s w = .ok (lo s.pc) ∧ diagRead s next = .ok (hi s.pc)) ∨
        (i = .bpl 0xFE ∧ s.p.n = false) ∨ (i = .bmi 0xFE ∧ s.p.n = true) ∨
        (i = .bvc 0xFE ∧ s.p.v = false) ∨ (i = .bvs 0xFE ∧ s.p.v = true) ∨ (i = .bcc 0xFE ∧ s.p.c = false) ∨
        (i = .bcs 0xFE ∧ s.p.c = true) ∨ (i = .bne 0xFE ∧ s.p.z = false) ∨ (i = .beq 0xFE ∧ s.p.z = true)) ∧
    (∀ (s : State) (bytes : List Byte) (i : Instr), decode bytes = .ok (i, []) → s.CodeAt bytes →
      s.loopsInPlace = jumpsToItself i s ∧
        (jumpsToItself i s = true → s.defined = .all → s.pending = { reset := false, nmi := false, irq := false } →
          ∃ c : Nat, (c = 3 ∨ c = 4 ∨ c = 5) ∧ ∀ n : Nat, runSteps n s =
            .next { s with
              cycles := s.cycles + BitVec.ofNat 64 (n * c), consumed := if n = 0 then s.consumed else c })) ∧
    (∀ (stop : Addr) (n : Nat) (s : State), s.ended stop = true → runTo stop n s = .next s) ∧
    ∀ (stop : Addr) (n : Nat) (s t : State), runTo stop n s = .next t →
      ∃ k : Nat, k ≤ n ∧ runSteps k s = .next t ∧ (k = n ∨ t.ended stop = true)

/-- O56. Of every instruction that answers a next state: C, Z, N, V, I, D are unchanged unless the instruction's mnemonic
is in the spec's written-by column for that flag. So the stores, TXS, the pushes, the jumps, JSR, RTS, the branches
and NOP change no flag. (R34) -/
def Obligations.FlagsWrittenOnlyByTheirWriters : Prop :=
  ∀ (i : Instr) (s t : State), exec i s = .next t →
    (i.mnemonic ∉
          [.ADC, .SBC, .ASL, .LSR, .ROL, .ROR, .CMP, .CPX, .CPY, .CLC, .SEC, .PLP, .RTI, .SLO, .RLA,
            .SRE, .RRA, .DCP, .ISB, .ANC, .ALR, .ARR, .SBX] →
        t.p.c = s.p.c) ∧
      (i.mnemonic ∉
          [.LDA, .LDX, .LDY, .TAX, .TAY, .TXA, .TYA, .TSX, .PLA, .ADC, .SBC, .AND, .ORA, .EOR, .BIT,
            .ASL, .LSR, .ROL, .ROR, .INC, .DEC, .INX, .INY, .DEX, .DEY, .CMP, .CPX, .CPY, .PLP, .RTI,
            .SLO, .RLA, .SRE, .RRA, .DCP, .ISB, .LAX, .ANC, .ALR, .ARR, .SBX, .LAS, .ANE, .LXA] →
        t.p.z = s.p.z ∧ t.p.n = s.p.n) ∧
      (i.mnemonic ∉ [.SEI, .CLI, .PLP, .RTI, .BRK] → t.p.i = s.p.i) ∧
      (i.mnemonic ∉ [.SED, .CLD, .PLP, .RTI] → t.p.d = s.p.d) ∧
      (i.mnemonic ∉ [.ADC, .SBC, .BIT, .CLV, .PLP, .RTI, .RRA, .ISB, .ARR] → t.p.v = s.p.v)

/-- O57. Of every instruction that answers a next state: A changes only in the loads, transfers, pull, arithmetic, logic,
accumulator-form shifts and the undocumented writers of A; X and Y only in the instructions the spec lists; SP only in
TXS, TAS, LAS and the instructions that push or pull; PC advances by the instruction's length unless it branches,
jumps, calls, returns or breaks. (R21, R22, R23, R24, R25, R26) -/
def Obligations.RegistersWrittenOnlyByTheirWriters : Prop :=
  ∀ (i : Instr) (s t : State), exec i s = .next t →
    (i.mnemonic ∉
          [.LDA, .TXA, .TYA, .PLA, .ADC, .SBC, .AND, .ORA, .EOR, .SLO, .RLA, .SRE, .RRA, .ISB, .LAX,
            .ANC, .ALR, .ARR, .LAS, .ANE, .LXA] →
        (i.mnemonic ∈ [.ASL, .LSR, .ROL, .ROR] → i.row.mode ≠ .acc) → t.a = s.a) ∧
      (i.mnemonic ∉ [.LDX, .TAX, .TSX, .INX, .DEX, .LAX, .LXA, .SBX, .LAS] → t.x = s.x) ∧
      (i.mnemonic ∉ [.LDY, .TAY, .INY, .DEY] → t.y = s.y) ∧
      (i.mnemonic ∉ [.TXS, .TAS, .LAS, .PHA, .PHP, .PLA, .PLP, .JSR, .RTS, .RTI, .BRK] → t.sp = s.sp) ∧
      (i.mnemonic ∉ [.JMP, .JSR, .RTS, .RTI, .BRK] → i.row.mode ≠ .rel → t.pc = s.pc + BitVec.ofNat 16 i.row.len)

/-- O58. Of every instruction that answers a next state and whose form stores nothing (loads, transfers, arithmetic,
logic, compares, branches, jumps, pulls, returns, flag instructions, NOPs, accumulator-form shifts and the reading
undocumented ones): every address that RAM or ROM answers reads as before, and the dispatch table is as before. (An IO
region that is read may change its own state, R54.) (R52, R53, R54, R69, R124) -/
def Obligations.ReadingInstructionsStoreNothing : Prop :=
  ∀ (i : Instr) (s t : State), writesMemory i = false → exec i s = .next t →
    t.mapOrder = s.mapOrder ∧ ∀ a : Addr, t.kindAt a = s.kindAt a ∧ (s.PlainAt a → diagRead t a = diagRead s a)

/-- O59. Of the stores and read-modify-writes (STA STX STY SAX ASL LSR ROL ROR INC DEC SLO RLA SRE RRA DCP ISB): with r
what the resolver answers on the state past the instruction, every address but r.ea that RAM or ROM answers reads as
before. Of the unstable stores (SHA SHX SHY TAS) the same, but at the address computed from the stored value (R279).
Where an IO region answers the stored address its write hook may remap (R58), so that address is required not to be
IO. (R52, R53, R61, R124, R180, R260, R279) -/
def Obligations.StoresChangeOneByte : Prop :=
  (∀ (i : Instr) (s t : State) (o : MemOperand) (r : Resolved),
      i.mnemonic ∈ [.STA, .STX, .STY, .SAX, .ASL, .LSR, .ROL, .ROR, .INC, .DEC, .SLO, .RLA, .SRE, .RRA, .DCP, .ISB] →
      i.memOperand = some o → effAddr o (s.advance i.row.len) = .ok r → s.kindAt r.ea ≠ some .io → exec i s = .next t →
      t.mapOrder = s.mapOrder ∧ ∀ a : Addr, a ≠ r.ea → s.PlainAt a → t.PlainAt a ∧ diagRead t a = diagRead s a) ∧
    ∀ (i : Instr) (s t : State) (o : MemOperand) (r : Resolved) (reg : Byte), i.mnemonic ∈ [.SHA, .SHX, .SHY, .TAS] →
      (i.mnemonic = .SHX → reg = s.x) → (i.mnemonic = .SHY → reg = s.y) →
      (i.mnemonic = .SHA ∨ i.mnemonic = .TAS → reg = s.a &&& s.x) →
      i.memOperand = some o → effAddr o (s.advance i.row.len) = .ok r →
      s.kindAt (unstableStore reg r.ea r.crossed).2 ≠ some .io → exec i s = .next t →
      t.mapOrder = s.mapOrder ∧
        ∀ a : Addr, a ≠ (unstableStore reg r.ea r.crossed).2 → s.PlainAt a → t.PlainAt a ∧ diagRead t a = diagRead s a

/-- O60. PHA and PHP change only the byte at STACK_PAGE ++ SP; JSR only that and the one at SP - 1; BRK only those and the
one at SP - 2 (SP modulo 256, the SP before): every other address that RAM or ROM answers reads as before. The slots
are required not to be IO, whose write hook may remap (R58). (R27, R230, R232, R234, R238) -/
def Obligations.PushesChangeTheirSlotsOnly : Prop :=
  ∀ (i : Instr) (s t : State),
    let slot := fun n : Byte => wordOf s.params.stackPage (s.sp - n)
    (i = .pha ∨ i = .php → s.kindAt (slot 0) ≠ some .io → exec i s = .next t →
        ∀ a : Addr, a ≠ slot 0 → s.PlainAt a → t.PlainAt a ∧ diagRead t a = diagRead s a) ∧
      (i.mnemonic = .JSR → s.kindAt (slot 0) ≠ some .io → s.kindAt (slot 1) ≠ some .io → exec i s = .next t →
        ∀ a : Addr, a ≠ slot 0 → a ≠ slot 1 → s.PlainAt a → t.PlainAt a ∧ diagRead t a = diagRead s a) ∧
      (i = .brk → s.kindAt (slot 0) ≠ some .io → s.kindAt (slot 1) ≠ some .io → s.kindAt (slot 2) ≠ some .io →
        exec i s = .next t →
        ∀ a : Addr, a ≠ slot 0 → a ≠ slot 1 → a ≠ slot 2 → s.PlainAt a → t.PlainAt a ∧ diagRead t a = diagRead s a)
end

