-- ==== Sys2Proof/Laws/Memory.lean ====
section
/-!
SUPPORT. The laws of a region's storage: a read after a write, and that a write keeps the canonical form.
-/

namespace Sys2Proof.Machine

@[simp] theorem Memory.read_nil (o : Nat) : Memory.read [] o = Memory.unlisted := rfl

theorem Memory.read_cons_other (k o : Nat) (v : Byte) (m : Memory) (h : o ≠ k) :
    Memory.read ((k, v) :: m) o = Memory.read m o := by
  simp [Memory.read, h]

theorem Memory.cons_read_other (o o' : Nat) (v : Byte) (m : Memory) (h : o' ≠ o) :
    Memory.read (Memory.cons o v m) o' = Memory.read m o' := by
  unfold Memory.cons
  split
  · rfl
  · exact Memory.read_cons_other o o' v m h

/-- A write leaves every other offset alone. -/
theorem Memory.read_write_other (m : Memory) (o o' : Nat) (v : Byte) (h : o' ≠ o) :
    (m.write o v).read o' = m.read o' := by
  induction m with
  | nil => exact Memory.cons_read_other o o' v [] h
  | cons cell m ih =>
    obtain ⟨k, w⟩ := cell
    unfold Memory.write
    split
    · exact Memory.cons_read_other o o' v _ h
    · split
      · rename_i hk
        rw [Memory.cons_read_other o o' v m h, Memory.read_cons_other k o' w m (hk ▸ h)]
      · simp [Memory.read, ih]

theorem Memory.wfFrom_mono {lower higher : Nat} {m : Memory} (hl : lower ≤ higher)
    (h : Memory.wfFrom higher m = true) : Memory.wfFrom lower m = true := by
  cases m with
  | nil => rfl
  | cons cell m =>
    obtain ⟨k, w⟩ := cell
    simp only [Memory.wfFrom, Bool.and_eq_true, decide_eq_true_eq] at h ⊢
    exact ⟨⟨hl.trans h.1.1, h.1.2⟩, h.2⟩

/-- Nothing is listed below the bound of a canonical list. -/
theorem Memory.read_below {bound : Nat} {m : Memory} (h : Memory.wfFrom bound m = true) (o : Nat) (ho : o < bound) :
    m.read o = Memory.unlisted := by
  induction m generalizing bound with
  | nil => rfl
  | cons cell m ih =>
    obtain ⟨k, w⟩ := cell
    simp only [Memory.wfFrom, Bool.and_eq_true, decide_eq_true_eq] at h
    rw [Memory.read_cons_other k o w m (by omega)]
    exact ih h.2 (by omega)

theorem Memory.cons_read_same (o : Nat) (v : Byte) (m : Memory) (h : m.read o = Memory.unlisted) :
    (Memory.cons o v m).read o = v := by
  unfold Memory.cons
  split
  · rename_i hv; rw [h, hv]
  · simp [Memory.read]

/-- A read after a write to the same offset gives the byte written, in canonical storage. -/
theorem Memory.read_write_same_from {bound : Nat} {m : Memory} (h : Memory.wfFrom bound m = true) (o : Nat) (v : Byte) :
    (m.write o v).read o = v := by
  induction m generalizing bound with
  | nil => exact Memory.cons_read_same o v [] rfl
  | cons cell m ih =>
    obtain ⟨k, w⟩ := cell
    simp only [Memory.wfFrom, Bool.and_eq_true, decide_eq_true_eq] at h
    unfold Memory.write
    split
    · refine Memory.cons_read_same o v _ ?_
      rw [Memory.read_cons_other k o w m (by omega)]
      exact Memory.read_below h.2 o (by omega)
    · split
      · exact Memory.cons_read_same o v m (Memory.read_below h.2 o (by omega))
      · rename_i hne
        rw [Memory.read_cons_other k o w _ hne]
        exact ih h.2

theorem Memory.read_write_same {m : Memory} (h : m.wf = true) (o : Nat) (v : Byte) : (m.write o v).read o = v :=
  Memory.read_write_same_from h o v

theorem Memory.cons_wfFrom {bound o : Nat} {v : Byte} {m : Memory} (ho : bound ≤ o)
    (h : Memory.wfFrom (o + 1) m = true) : Memory.wfFrom bound (Memory.cons o v m) = true := by
  unfold Memory.cons
  split
  · exact Memory.wfFrom_mono (by omega) h
  · rename_i hv
    simp [Memory.wfFrom, ho, hv, h]

/-- A write keeps the canonical form. -/
theorem Memory.write_wfFrom {bound o : Nat} {v : Byte} {m : Memory} (ho : bound ≤ o)
    (h : Memory.wfFrom bound m = true) : Memory.wfFrom bound (m.write o v) = true := by
  induction m generalizing bound with
  | nil => exact Memory.cons_wfFrom ho rfl
  | cons cell m ih =>
    obtain ⟨k, w⟩ := cell
    have h' := h
    simp only [Memory.wfFrom, Bool.and_eq_true, decide_eq_true_eq] at h
    unfold Memory.write
    split
    · refine Memory.cons_wfFrom ho ?_
      simp only [Memory.wfFrom, Bool.and_eq_true, decide_eq_true_eq]
      exact ⟨⟨by omega, h.1.2⟩, h.2⟩
    · split
      · rename_i hk
        exact Memory.cons_wfFrom ho (hk ▸ h.2)
      · simp only [Memory.wfFrom, Bool.and_eq_true, decide_eq_true_eq]
        exact ⟨h.1, ih (by omega) h.2⟩

theorem Memory.write_wf {o : Nat} {v : Byte} {m : Memory} (h : m.wf = true) : (m.write o v).wf = true :=
  Memory.write_wfFrom (Nat.zero_le o) h

theorem Memory.within_iff (size : Nat) (m : Memory) : m.within size = true ↔ ∀ cell ∈ m, cell.1 < size := by
  simp [Memory.within]

theorem Memory.cons_within {size o : Nat} {v : Byte} {m : Memory} (ho : o < size) (h : m.within size = true) :
    (Memory.cons o v m).within size = true := by
  unfold Memory.cons
  split
  · exact h
  · simp [Memory.within_iff] at h ⊢
    exact ⟨ho, h⟩

/-- A write below `size` keeps every listed offset below it. -/
theorem Memory.write_within {size o : Nat} {v : Byte} {m : Memory} (ho : o < size) (h : m.within size = true) :
    (m.write o v).within size = true := by
  induction m with
  | nil => exact Memory.cons_within ho rfl
  | cons cell m ih =>
    obtain ⟨k, w⟩ := cell
    have hm : Memory.within size m = true := by
      simp only [Memory.within_iff] at h ⊢
      exact fun c hc => h c (List.mem_cons_of_mem _ hc)
    unfold Memory.write
    split
    · exact Memory.cons_within ho h
    · split
      · exact Memory.cons_within ho hm
      · have := ih hm
        simp only [Memory.within_iff] at this h ⊢
        intro c hc
        rcases List.mem_cons.1 hc with rfl | hc
        · exact h _ (by simp)
        · exact this c hc

end Sys2Proof.Machine
end

