-- ==== Sys2Proof/Laws/State.lean ====
section
/-!
SUPPORT. Each field of State after each named update: later proofs rewrite with these and do not unfold a record update.
-/

namespace Sys2Proof.Machine

section
variable (s : State)

@[simp] theorem State.advance_a (n : Nat) : (s.advance n).a = s.a := rfl
@[simp] theorem State.advance_x (n : Nat) : (s.advance n).x = s.x := rfl
@[simp] theorem State.advance_y (n : Nat) : (s.advance n).y = s.y := rfl
@[simp] theorem State.advance_sp (n : Nat) : (s.advance n).sp = s.sp := rfl
@[simp] theorem State.advance_pc (n : Nat) : (s.advance n).pc = s.pc + BitVec.ofNat 16 n := rfl
@[simp] theorem State.advance_p (n : Nat) : (s.advance n).p = s.p := rfl
@[simp] theorem State.advance_cycles (n : Nat) : (s.advance n).cycles = s.cycles := rfl
@[simp] theorem State.advance_defined (n : Nat) : (s.advance n).defined = s.defined := rfl
@[simp] theorem State.advance_pending (n : Nat) : (s.advance n).pending = s.pending := rfl
@[simp] theorem State.advance_regions (n : Nat) : (s.advance n).regions = s.regions := rfl
@[simp] theorem State.advance_mapOrder (n : Nat) : (s.advance n).mapOrder = s.mapOrder := rfl
@[simp] theorem State.advance_params (n : Nat) : (s.advance n).params = s.params := rfl
@[simp] theorem State.advance_consumed (n : Nat) : (s.advance n).consumed = s.consumed := rfl
@[simp] theorem State.advance_draws (n : Nat) : (s.advance n).draws = s.draws := rfl

@[simp] theorem State.withFlags_a (q : Flags) : (s.withFlags q).a = s.a := rfl
@[simp] theorem State.withFlags_x (q : Flags) : (s.withFlags q).x = s.x := rfl
@[simp] theorem State.withFlags_y (q : Flags) : (s.withFlags q).y = s.y := rfl
@[simp] theorem State.withFlags_sp (q : Flags) : (s.withFlags q).sp = s.sp := rfl
@[simp] theorem State.withFlags_pc (q : Flags) : (s.withFlags q).pc = s.pc := rfl
@[simp] theorem State.withFlags_p (q : Flags) : (s.withFlags q).p = q := rfl
@[simp] theorem State.withFlags_cycles (q : Flags) : (s.withFlags q).cycles = s.cycles := rfl
@[simp] theorem State.withFlags_defined (q : Flags) : (s.withFlags q).defined = s.defined := rfl
@[simp] theorem State.withFlags_pending (q : Flags) : (s.withFlags q).pending = s.pending := rfl
@[simp] theorem State.withFlags_regions (q : Flags) : (s.withFlags q).regions = s.regions := rfl
@[simp] theorem State.withFlags_mapOrder (q : Flags) : (s.withFlags q).mapOrder = s.mapOrder := rfl
@[simp] theorem State.withFlags_params (q : Flags) : (s.withFlags q).params = s.params := rfl
@[simp] theorem State.withFlags_consumed (q : Flags) : (s.withFlags q).consumed = s.consumed := rfl
@[simp] theorem State.withFlags_draws (q : Flags) : (s.withFlags q).draws = s.draws := rfl

@[simp] theorem State.setNZ_a (v : Byte) : (s.setNZ v).a = s.a := rfl
@[simp] theorem State.setNZ_x (v : Byte) : (s.setNZ v).x = s.x := rfl
@[simp] theorem State.setNZ_y (v : Byte) : (s.setNZ v).y = s.y := rfl
@[simp] theorem State.setNZ_sp (v : Byte) : (s.setNZ v).sp = s.sp := rfl
@[simp] theorem State.setNZ_pc (v : Byte) : (s.setNZ v).pc = s.pc := rfl
@[simp] theorem State.setNZ_p (v : Byte) : (s.setNZ v).p = s.p.setNZ v := rfl
@[simp] theorem State.setNZ_cycles (v : Byte) : (s.setNZ v).cycles = s.cycles := rfl
@[simp] theorem State.setNZ_defined (v : Byte) : (s.setNZ v).defined = s.defined := rfl
@[simp] theorem State.setNZ_pending (v : Byte) : (s.setNZ v).pending = s.pending := rfl
@[simp] theorem State.setNZ_regions (v : Byte) : (s.setNZ v).regions = s.regions := rfl
@[simp] theorem State.setNZ_mapOrder (v : Byte) : (s.setNZ v).mapOrder = s.mapOrder := rfl
@[simp] theorem State.setNZ_params (v : Byte) : (s.setNZ v).params = s.params := rfl
@[simp] theorem State.setNZ_consumed (v : Byte) : (s.setNZ v).consumed = s.consumed := rfl
@[simp] theorem State.setNZ_draws (v : Byte) : (s.setNZ v).draws = s.draws := rfl

@[simp] theorem State.account_a (n : Nat) : (s.account n).a = s.a := rfl
@[simp] theorem State.account_x (n : Nat) : (s.account n).x = s.x := rfl
@[simp] theorem State.account_y (n : Nat) : (s.account n).y = s.y := rfl
@[simp] theorem State.account_sp (n : Nat) : (s.account n).sp = s.sp := rfl
@[simp] theorem State.account_pc (n : Nat) : (s.account n).pc = s.pc := rfl
@[simp] theorem State.account_p (n : Nat) : (s.account n).p = s.p := rfl
@[simp] theorem State.account_cycles (n : Nat) : (s.account n).cycles = s.cycles + BitVec.ofNat 64 n := rfl
@[simp] theorem State.account_defined (n : Nat) : (s.account n).defined = s.defined := rfl
@[simp] theorem State.account_pending (n : Nat) : (s.account n).pending = s.pending := rfl
@[simp] theorem State.account_regions (n : Nat) : (s.account n).regions = s.regions := rfl
@[simp] theorem State.account_mapOrder (n : Nat) : (s.account n).mapOrder = s.mapOrder := rfl
@[simp] theorem State.account_params (n : Nat) : (s.account n).params = s.params := rfl
@[simp] theorem State.account_consumed (n : Nat) : (s.account n).consumed = n := rfl
@[simp] theorem State.account_draws (n : Nat) : (s.account n).draws = s.draws := rfl

@[simp] theorem State.withPending_a (q : Pending) : (s.withPending q).a = s.a := rfl
@[simp] theorem State.withPending_x (q : Pending) : (s.withPending q).x = s.x := rfl
@[simp] theorem State.withPending_y (q : Pending) : (s.withPending q).y = s.y := rfl
@[simp] theorem State.withPending_sp (q : Pending) : (s.withPending q).sp = s.sp := rfl
@[simp] theorem State.withPending_pc (q : Pending) : (s.withPending q).pc = s.pc := rfl
@[simp] theorem State.withPending_p (q : Pending) : (s.withPending q).p = s.p := rfl
@[simp] theorem State.withPending_cycles (q : Pending) : (s.withPending q).cycles = s.cycles := rfl
@[simp] theorem State.withPending_defined (q : Pending) : (s.withPending q).defined = s.defined := rfl
@[simp] theorem State.withPending_pending (q : Pending) : (s.withPending q).pending = q := rfl
@[simp] theorem State.withPending_regions (q : Pending) : (s.withPending q).regions = s.regions := rfl
@[simp] theorem State.withPending_mapOrder (q : Pending) : (s.withPending q).mapOrder = s.mapOrder := rfl
@[simp] theorem State.withPending_params (q : Pending) : (s.withPending q).params = s.params := rfl
@[simp] theorem State.withPending_consumed (q : Pending) : (s.withPending q).consumed = s.consumed := rfl
@[simp] theorem State.withPending_draws (q : Pending) : (s.withPending q).draws = s.draws := rfl

@[simp] theorem State.setBacking_a (i : Nat) (b : Backing) : (s.setBacking i b).a = s.a := rfl
@[simp] theorem State.setBacking_x (i : Nat) (b : Backing) : (s.setBacking i b).x = s.x := rfl
@[simp] theorem State.setBacking_y (i : Nat) (b : Backing) : (s.setBacking i b).y = s.y := rfl
@[simp] theorem State.setBacking_sp (i : Nat) (b : Backing) : (s.setBacking i b).sp = s.sp := rfl
@[simp] theorem State.setBacking_pc (i : Nat) (b : Backing) : (s.setBacking i b).pc = s.pc := rfl
@[simp] theorem State.setBacking_p (i : Nat) (b : Backing) : (s.setBacking i b).p = s.p := rfl
@[simp] theorem State.setBacking_cycles (i : Nat) (b : Backing) : (s.setBacking i b).cycles = s.cycles := rfl
@[simp] theorem State.setBacking_defined (i : Nat) (b : Backing) : (s.setBacking i b).defined = s.defined := rfl
@[simp] theorem State.setBacking_pending (i : Nat) (b : Backing) : (s.setBacking i b).pending = s.pending := rfl
@[simp] theorem State.setBacking_regions (i : Nat) (b : Backing) : (s.setBacking i b).regions = replaceBacking s.regions i b := rfl
@[simp] theorem State.setBacking_mapOrder (i : Nat) (b : Backing) : (s.setBacking i b).mapOrder = s.mapOrder := rfl
@[simp] theorem State.setBacking_params (i : Nat) (b : Backing) : (s.setBacking i b).params = s.params := rfl
@[simp] theorem State.setBacking_consumed (i : Nat) (b : Backing) : (s.setBacking i b).consumed = s.consumed := rfl
@[simp] theorem State.setBacking_draws (i : Nat) (b : Backing) : (s.setBacking i b).draws = s.draws := rfl

@[simp] theorem State.resetRegisters_a : (s.resetRegisters).a = s.params.resetA := rfl
@[simp] theorem State.resetRegisters_x : (s.resetRegisters).x = s.params.resetX := rfl
@[simp] theorem State.resetRegisters_y : (s.resetRegisters).y = s.params.resetY := rfl
@[simp] theorem State.resetRegisters_sp : (s.resetRegisters).sp = s.params.resetSp := rfl
@[simp] theorem State.resetRegisters_pc : (s.resetRegisters).pc = s.pc := rfl
@[simp] theorem State.resetRegisters_p : (s.resetRegisters).p = resetFlags s.params := rfl
@[simp] theorem State.resetRegisters_cycles : (s.resetRegisters).cycles = 0 := rfl
@[simp] theorem State.resetRegisters_defined : (s.resetRegisters).defined = .all := rfl
@[simp] theorem State.resetRegisters_pending : (s.resetRegisters).pending = { reset := false, nmi := false, irq := false } := rfl
@[simp] theorem State.resetRegisters_regions : (s.resetRegisters).regions = s.regions := rfl
@[simp] theorem State.resetRegisters_mapOrder : (s.resetRegisters).mapOrder = s.mapOrder := rfl
@[simp] theorem State.resetRegisters_params : (s.resetRegisters).params = s.params := rfl
@[simp] theorem State.resetRegisters_consumed : (s.resetRegisters).consumed = s.consumed := rfl
@[simp] theorem State.resetRegisters_draws : (s.resetRegisters).draws = s.draws := rfl

end

@[simp] theorem State.remap_a (s : State) (i : Nat) : (s.remap i).a = s.a := by unfold State.remap; split <;> rfl
@[simp] theorem State.remap_x (s : State) (i : Nat) : (s.remap i).x = s.x := by unfold State.remap; split <;> rfl
@[simp] theorem State.remap_y (s : State) (i : Nat) : (s.remap i).y = s.y := by unfold State.remap; split <;> rfl
@[simp] theorem State.remap_sp (s : State) (i : Nat) : (s.remap i).sp = s.sp := by unfold State.remap; split <;> rfl
@[simp] theorem State.remap_pc (s : State) (i : Nat) : (s.remap i).pc = s.pc := by unfold State.remap; split <;> rfl
@[simp] theorem State.remap_p (s : State) (i : Nat) : (s.remap i).p = s.p := by unfold State.remap; split <;> rfl
@[simp] theorem State.remap_cycles (s : State) (i : Nat) : (s.remap i).cycles = s.cycles := by unfold State.remap; split <;> rfl
@[simp] theorem State.remap_defined (s : State) (i : Nat) : (s.remap i).defined = s.defined := by unfold State.remap; split <;> rfl
@[simp] theorem State.remap_pending (s : State) (i : Nat) : (s.remap i).pending = s.pending := by unfold State.remap; split <;> rfl
@[simp] theorem State.remap_regions (s : State) (i : Nat) : (s.remap i).regions = s.regions := by unfold State.remap; split <;> rfl
@[simp] theorem State.remap_params (s : State) (i : Nat) : (s.remap i).params = s.params := by unfold State.remap; split <;> rfl
@[simp] theorem State.remap_consumed (s : State) (i : Nat) : (s.remap i).consumed = s.consumed := by unfold State.remap; split <;> rfl
@[simp] theorem State.remap_draws (s : State) (i : Nat) : (s.remap i).draws = s.draws := by unfold State.remap; split <;> rfl

/-! The flags after `SetNZ` and after a compare. -/

@[simp] theorem Flags.setNZ_n (p : Flags) (v : Byte) : (p.setNZ v).n = v.msb := rfl
@[simp] theorem Flags.setNZ_v (p : Flags) (v : Byte) : (p.setNZ v).v = p.v := rfl
@[simp] theorem Flags.setNZ_d (p : Flags) (v : Byte) : (p.setNZ v).d = p.d := rfl
@[simp] theorem Flags.setNZ_i (p : Flags) (v : Byte) : (p.setNZ v).i = p.i := rfl
@[simp] theorem Flags.setNZ_z (p : Flags) (v : Byte) : (p.setNZ v).z = (v == 0) := rfl
@[simp] theorem Flags.setNZ_c (p : Flags) (v : Byte) : (p.setNZ v).c = p.c := rfl
@[simp] theorem Flags.compare_n (p : Flags) (r m : Byte) : (p.compare r m).n = (r - m).msb := rfl
@[simp] theorem Flags.compare_v (p : Flags) (r m : Byte) : (p.compare r m).v = p.v := rfl
@[simp] theorem Flags.compare_d (p : Flags) (r m : Byte) : (p.compare r m).d = p.d := rfl
@[simp] theorem Flags.compare_i (p : Flags) (r m : Byte) : (p.compare r m).i = p.i := rfl
@[simp] theorem Flags.compare_z (p : Flags) (r m : Byte) : (p.compare r m).z = (r - m == 0) := rfl
@[simp] theorem Flags.compare_c (p : Flags) (r m : Byte) : (p.compare r m).c = decide (m.toNat ≤ r.toNat) := rfl

end Sys2Proof.Machine
end

