-- ==== Sys2Proof/Laws/Bus.lean ====
section
/-!
SUPPORT. What the bus can do, said once: who answers an address after an access, what a bus-level read and write can answer,
and what they leave alone.
-/

namespace Sys2Proof.Machine

/-! ### The region list -/

theorem lookupRegion_id {rs : List Region} {i : Nat} {r : Region} (h : lookupRegion rs i = some r) : r.id = i := by
  have := List.find?_some h
  simpa using this

theorem lookupRegion_mem {rs : List Region} {i : Nat} {r : Region} (h : lookupRegion rs i = some r) : r ∈ rs :=
  List.mem_of_find?_eq_some h

@[simp] theorem Region.replaced_id (i : Nat) (b : Backing) (r : Region) : (r.replaced i b).id = r.id := by
  unfold Region.replaced; split <;> rfl

@[simp] theorem Region.replaced_range (i : Nat) (b : Backing) (r : Region) : (r.replaced i b).range = r.range := by
  unfold Region.replaced; split <;> rfl

theorem lookupRegion_replace (rs : List Region) (i j : Nat) (b : Backing) :
    lookupRegion (replaceBacking rs i b) j = (lookupRegion rs j).map (Region.replaced i b) := by
  induction rs with
  | nil => rfl
  | cons r rs ih =>
    simp only [lookupRegion, replaceBacking, List.map_cons, List.find?_cons, Region.replaced_id] at ih ⊢
    cases decide (r.id = j)
    · exact ih
    · rfl

/-! ### Who answers an address -/

theorem dispatchIn_some {rs : List Region} {order : List Nat} {a : Addr} {r : Region}
    (h : dispatchIn rs order a = some r) :
    lookupRegion rs r.id = some r ∧ r.id ∈ order ∧ r.range.holds a = true := by
  induction order with
  | nil => simp [dispatchIn] at h
  | cons i order ih =>
    unfold dispatchIn at h
    split at h
    · rename_i q hq
      split at h
      · rename_i hh
        cases h
        have := lookupRegion_id hq
        exact ⟨this ▸ hq, this ▸ List.mem_cons_self, hh⟩
      · have := ih h
        exact ⟨this.1, List.mem_cons_of_mem _ this.2.1, this.2.2⟩
    · have := ih h
      exact ⟨this.1, List.mem_cons_of_mem _ this.2.1, this.2.2⟩

theorem dispatchIn_isSome_iff (rs : List Region) (order : List Nat) (a : Addr) :
    (dispatchIn rs order a).isSome = true ↔
      ∃ i ∈ order, ∃ r, lookupRegion rs i = some r ∧ r.range.holds a = true := by
  induction order with
  | nil => simp [dispatchIn]
  | cons i order ih =>
    unfold dispatchIn
    cases hq : lookupRegion rs i with
    | none => simp [ih, hq]
    | some q =>
      by_cases hh : q.range.holds a = true
      · simp [hh, hq]
      · simp [hh, hq, ih]

theorem dispatchIn_replace (rs : List Region) (i : Nat) (b : Backing) (order : List Nat) (a : Addr) :
    dispatchIn (replaceBacking rs i b) order a = (dispatchIn rs order a).map (Region.replaced i b) := by
  induction order with
  | nil => rfl
  | cons j order ih =>
    unfold dispatchIn
    rw [lookupRegion_replace]
    cases lookupRegion rs j with
    | none => simpa using ih
    | some q =>
      simp only [Option.map_some, Region.replaced_range]
      split
      · rfl
      · exact ih

theorem responsible_setBacking (s : State) (i : Nat) (b : Backing) (a : Addr) :
    (s.setBacking i b).responsible a = (s.responsible a).map (Region.replaced i b) :=
  dispatchIn_replace s.regions i b s.mapOrder a

theorem responsible_some {s : State} {a : Addr} {r : Region} (h : s.responsible a = some r) :
    lookupRegion s.regions r.id = some r ∧ r.id ∈ s.mapOrder ∧ r.range.holds a = true :=
  dispatchIn_some h

/-- Two states with the same bus dispatch alike. -/
theorem responsible_congr {s t : State} (hr : t.regions = s.regions) (hm : t.mapOrder = s.mapOrder) (a : Addr) :
    t.responsible a = s.responsible a := by
  unfold State.responsible; rw [hr, hm]

theorem mem_bringToFront (i j : Nat) (order : List Nat) : j ∈ bringToFront i order ↔ j = i ∨ j ∈ order := by
  unfold bringToFront
  simp only [List.mem_cons, List.mem_filter, decide_eq_true_eq]
  constructor
  · rintro (h | h)
    · exact .inl h
    · exact .inr h.1
  · rintro (h | h)
    · exact .inl h
    · by_cases hj : j = i
      · exact .inl hj
      · exact .inr ⟨h, hj⟩

/-- What a remap does: nothing, or a region of the list to the front of the order. -/
theorem remap_cases (s : State) (i : Nat) :
    s.remap i = s ∨ (∃ r, lookupRegion s.regions i = some r) ∧ s.remap i = { s with mapOrder := bringToFront i s.mapOrder } := by
  unfold State.remap
  split
  · rename_i r hr; exact .inr ⟨⟨r, hr⟩, rfl⟩
  · exact .inl rfl

/-! ### What a bus-level read and write can answer -/

theorem memRead_ok {s : State} {a : Addr} {r : BusRead} (h : memRead s a = .ok r) :
    ∃ g, s.responsible a = some g ∧
      ((g.kind ≠ .io ∧ r.state = s ∧ diagRead s a = .ok r.val) ∨
        ∃ hist, g.backing = .io hist ∧ r.val = Config.ioRead g.id hist (g.offset a) ∧
          r.state = s.setBacking g.id (.io (.read (g.offset a) :: hist))) := by
  unfold memRead at h
  split at h
  · cases h
  · rename_i g hg
    refine ⟨g, hg, ?_⟩
    split at h <;> rename_i m hm <;> cases h
    · exact .inl ⟨by simp [Region.kind, Backing.kind, hm], rfl, by simp [diagRead, hg, hm]⟩
    · exact .inl ⟨by simp [Region.kind, Backing.kind, hm], rfl, by simp [diagRead, hg, hm]⟩
    · exact .inr ⟨m, hm, rfl, rfl⟩

theorem memWrite_ok {s t : State} {a : Addr} {v : Byte} (h : memWrite s a v = .ok t) :
    ∃ g, s.responsible a = some g ∧
      ((∃ m, g.backing = .ram m ∧ t = s.setBacking g.id (.ram (Memory.write m (g.offset a) v))) ∨
        (∃ m, g.backing = .rom m ∧ t = s) ∨
        ∃ hist, g.backing = .io hist ∧
          t = (Config.ioRemap g.id hist (g.offset a) v).foldl State.remap
            (s.setBacking g.id (.io (.write (g.offset a) v :: hist)))) := by
  unfold memWrite at h
  split at h
  · cases h
  · rename_i g hg
    refine ⟨g, hg, ?_⟩
    split at h <;> rename_i m hm <;> cases h
    · exact .inl ⟨m, hm, rfl⟩
    · exact .inr (.inl ⟨m, hm, rfl⟩)
    · exact .inr (.inr ⟨m, hm, rfl⟩)

theorem memRead_error {s : State} {a : Addr} {f : Fault} (h : memRead s a = .error f) :
    s.responsible a = none ∧ f = .addressDispatchGap a := by
  unfold memRead at h
  split at h
  · rename_i hn; cases h; exact ⟨hn, rfl⟩
  · split at h <;> cases h

theorem memWrite_error {s : State} {a : Addr} {v : Byte} {f : Fault} (h : memWrite s a v = .error f) :
    s.responsible a = none ∧ f = .addressDispatchGap a := by
  unfold memWrite at h
  split at h
  · rename_i hn; cases h; exact ⟨hn, rfl⟩
  · split at h <;> cases h

theorem memRead_of_responsible {s : State} {a : Addr} (h : (s.responsible a).isSome = true) :
    ∃ r, memRead s a = .ok r := by
  cases hr : memRead s a with
  | ok r => exact ⟨r, rfl⟩
  | error f => simp [(memRead_error hr).1] at h

theorem memWrite_of_responsible {s : State} {a : Addr} {v : Byte} (h : (s.responsible a).isSome = true) :
    ∃ t, memWrite s a v = .ok t := by
  cases hr : memWrite s a v with
  | ok r => exact ⟨r, rfl⟩
  | error f => simp [(memWrite_error hr).1] at h

/-! ### What an access leaves alone -/

theorem SameButBus.refl (s : State) : SameButBus s s := rfl

theorem SameButBus.trans {s t u : State} (h : SameButBus s t) (k : SameButBus t u) : SameButBus s u := by
  unfold SameButBus at *
  rw [k, h]

theorem SameButBus.setBacking (s : State) (i : Nat) (b : Backing) : SameButBus s (s.setBacking i b) := rfl

theorem SameButBus.remap (s : State) (i : Nat) : SameButBus s (s.remap i) := by
  rcases remap_cases s i with h | ⟨-, h⟩ <;> rw [h] <;> rfl

theorem SameButBus.remaps (l : List Nat) (s : State) : SameButBus s (l.foldl State.remap s) := by
  induction l generalizing s with
  | nil => exact .refl s
  | cons i l ih => exact (SameButBus.remap s i).trans (ih _)

/-- A bus-level read changes the bus only. -/
theorem memRead_sameButBus {s : State} {a : Addr} {r : BusRead} (h : memRead s a = .ok r) : SameButBus s r.state := by
  obtain ⟨g, -, ⟨-, hs, -⟩ | ⟨hist, -, -, hs⟩⟩ := memRead_ok h <;> rw [hs]
  · exact .refl s
  · exact .setBacking s _ _

/-- A bus-level write changes the bus only. -/
theorem memWrite_sameButBus {s t : State} {a : Addr} {v : Byte} (h : memWrite s a v = .ok t) : SameButBus s t := by
  obtain ⟨g, -, ⟨m, -, hs⟩ | ⟨m, -, hs⟩ | ⟨hist, -, hs⟩⟩ := memWrite_ok h <;> rw [hs]
  · exact .setBacking s _ _
  · exact .refl s
  · exact (SameButBus.setBacking s _ _).trans (.remaps _ _)

section
variable {s t : State} (h : SameButBus s t)
include h

theorem SameButBus.a_eq : t.a = s.a := by rw [h]
theorem SameButBus.x_eq : t.x = s.x := by rw [h]
theorem SameButBus.y_eq : t.y = s.y := by rw [h]
theorem SameButBus.sp_eq : t.sp = s.sp := by rw [h]
theorem SameButBus.pc_eq : t.pc = s.pc := by rw [h]
theorem SameButBus.p_eq : t.p = s.p := by rw [h]
theorem SameButBus.cycles_eq : t.cycles = s.cycles := by rw [h]
theorem SameButBus.pending_eq : t.pending = s.pending := by rw [h]
theorem SameButBus.params_eq : t.params = s.params := by rw [h]
theorem SameButBus.defined_eq : t.defined = s.defined := by rw [h]
theorem SameButBus.consumed_eq : t.consumed = s.consumed := by rw [h]
theorem SameButBus.draws_eq : t.draws = s.draws := by rw [h]

end

/-! ### Properties of the bus that accesses keep -/

/-- A property of the bus alone that bus-level reads keep. -/
structure ReadInvariant (Q : State → Prop) : Prop where
  frame : ∀ {s t : State}, t.regions = s.regions → t.mapOrder = s.mapOrder → Q s → Q t
  read : ∀ {s : State} {a : Addr} {r : BusRead}, memRead s a = .ok r → Q s → Q r.state

/-- A property of the bus alone that bus-level reads and writes keep. -/
structure BusInvariant (Q : State → Prop) : Prop extends ReadInvariant Q where
  write : ∀ {s t : State} {a : Addr} {v : Byte}, memWrite s a v = .ok t → Q s → Q t

/-- To show that accesses keep a property, look at the storage of one region and at a remap. -/
theorem BusInvariant.of_parts {Q : State → Prop}
    (frame : ∀ {s t : State}, t.regions = s.regions → t.mapOrder = s.mapOrder → Q s → Q t)
    (ram : ∀ {s : State} {g : Region} {m : Memory} (a : Addr) (v : Byte), s.responsible a = some g → g.backing = .ram m →
      Q s → Q (s.setBacking g.id (.ram (Memory.write m (g.offset a) v))))
    (io : ∀ {s : State} {g : Region} {hist : List Config.IoEvent} (a : Addr) (e : Config.IoEvent),
      s.responsible a = some g → g.backing = .io hist → Q s → Q (s.setBacking g.id (.io (e :: hist))))
    (remap : ∀ {s : State} {i : Nat} {g : Region}, lookupRegion s.regions i = some g → Q s →
      Q { s with mapOrder := bringToFront i s.mapOrder }) : BusInvariant Q where
  frame := frame
  read := by
    intro s a r h hQ
    obtain ⟨g, hg, ⟨-, hs, -⟩ | ⟨hist, hb, -, hs⟩⟩ := memRead_ok h <;> rw [hs]
    · exact hQ
    · exact io a _ hg hb hQ
  write := by
    intro s t a v h hQ
    have remaps : ∀ (l : List Nat) (u : State), Q u → Q (l.foldl State.remap u) := by
      intro l
      induction l with
      | nil => exact fun u hu => hu
      | cons i l ih =>
        intro u hu
        refine ih _ ?_
        rcases remap_cases u i with hi | ⟨⟨g, hg⟩, hi⟩ <;> rw [hi]
        · exact hu
        · exact remap hg hu
    obtain ⟨g, hg, ⟨m, hb, hs⟩ | ⟨m, -, hs⟩ | ⟨hist, hb, hs⟩⟩ := memWrite_ok h <;> rw [hs]
    · exact ram a v hg hb hQ
    · exact hQ
    · exact remaps _ _ (io a _ hg hb hQ)

end Sys2Proof.Machine
end

