-- ==== Sys2Proof/Laws/Decode.lean ====
section
/-!
SUPPORT. Words and their two bytes, which every two-byte operand, pointer, vector and return address goes through.
-/

namespace Sys2Proof.Machine

theorem wordOf_toNat (h l : Byte) : (wordOf h l).toNat = h.toNat * 256 + l.toNat := by
  unfold wordOf
  rw [BitVec.toNat_append, ← Nat.shiftLeft_add_eq_or_of_lt l.isLt, Nat.shiftLeft_eq]

theorem lo_toNat (w : Addr) : (lo w).toNat = w.toNat % 256 := by
  unfold lo
  rw [BitVec.extractLsb'_toNat, Nat.shiftRight_zero]

theorem hi_toNat (w : Addr) : (hi w).toNat = w.toNat / 256 := by
  have := w.isLt
  unfold hi
  rw [BitVec.extractLsb'_toNat, Nat.shiftRight_eq_div_pow]
  omega

@[simp] theorem wordOf_hi_lo (w : Addr) : wordOf (hi w) (lo w) = w :=
  BitVec.eq_of_toNat_eq (by rw [wordOf_toNat, hi_toNat, lo_toNat]; omega)

@[simp] theorem lo_wordOf (h l : Byte) : lo (wordOf h l) = l :=
  BitVec.eq_of_toNat_eq (by have := l.isLt; rw [lo_toNat, wordOf_toNat]; omega)

@[simp] theorem hi_wordOf (h l : Byte) : hi (wordOf h l) = h :=
  BitVec.eq_of_toNat_eq (by have := l.isLt; rw [hi_toNat, wordOf_toNat]; omega)

theorem wordOf_inj {h l h' l' : Byte} : wordOf h l = wordOf h' l' ↔ h = h' ∧ l = l' := by
  constructor
  · intro e
    have e1 := congrArg hi e
    have e2 := congrArg lo e
    simp only [hi_wordOf, lo_wordOf] at e1 e2
    exact ⟨e1, e2⟩
  · rintro ⟨rfl, rfl⟩
    rfl

theorem zeroPage_toNat (b : Byte) : (zeroPage b).toNat = b.toNat := by
  unfold zeroPage
  rw [wordOf_toNat]
  simp

theorem zext16_toNat (b : Byte) : (zext16 b).toNat = b.toNat := by
  have := b.isLt
  unfold zext16
  rw [BitVec.toNat_setWidth]
  omega

end Sys2Proof.Machine
end

