-- ==== Sys2Proof/Laws/Ops.lean ====
section
/-!
SUPPORT. Each shared operation, said once: what it answers, the registers it changes, that it keeps every property the bus
accesses keep, and that it completes where every address is mapped.
-/

namespace Sys2Proof.Machine

/-! ### Sequencing -/

theorem bind_ok {α β : Type} {x : Except Fault α} {f : α → Except Fault β} {b : β} (h : (x >>= f) = .ok b) :
    ∃ a, x = .ok a ∧ f a = .ok b := by
  cases x with
  | ok a => exact ⟨a, rfl, h⟩
  | error e => cases h

theorem bind_of_ok {α β : Type} {x : Except Fault α} {f : α → Except Fault β} {a : α} (h : x = .ok a) :
    (x >>= f) = f a := by
  subst h; rfl

@[simp] theorem ok_bind {α β : Type} (a : α) (f : α → Except Fault β) : ((Except.ok a : Except Fault α) >>= f) = f a := rfl

@[simp] theorem pure_ok {α : Type} (a : α) : (pure a : Except Fault α) = .ok a := rfl

theorem finish_next {r : Except Fault State} {t : State} : finish r = .next t ↔ r = .ok t := by
  cases r <;> simp [finish]

theorem finish_fault {r : Except Fault State} {f : Fault} : finish r = .fault f ↔ r = .error f := by
  cases r <;> simp [finish]

theorem finish_not_refused {r : Except Fault State} {q : Refusal} : finish r ≠ .refused q := by
  cases r <;> simp [finish]

/-! ### `SameButBus` under register updates -/

theorem SameButBus.withSp {s t : State} (h : SameButBus s t) (v : Byte) : SameButBus { s with sp := v } { t with sp := v } := by
  unfold SameButBus at *
  rw [h]

theorem SameButBus.withPc {s t : State} (h : SameButBus s t) (v : Addr) : SameButBus { s with pc := v } { t with pc := v } := by
  unfold SameButBus at *
  rw [h]

theorem SameButBus.withFlags {s t : State} (h : SameButBus s t) (p : Flags) : SameButBus (s.withFlags p) (t.withFlags p) := by
  unfold SameButBus at *
  rw [h]
  rfl

theorem SameButBus.account {s t : State} (h : SameButBus s t) (n : Nat) : SameButBus (s.account n) (t.account n) := by
  unfold SameButBus at *
  rw [h]
  rfl

/-! ### Words and the stack -/

theorem memReadWord_ok {s : State} {a : Addr} {r : WordRead} (h : memReadWord s a = .ok r) :
    ∃ l h', memRead s a = .ok l ∧ memRead l.state (a + 1) = .ok h' ∧ r = { val := wordOf h'.val l.val, state := h'.state } := by
  obtain ⟨l, hl, h⟩ := bind_ok h
  obtain ⟨g, hg, h⟩ := bind_ok h
  cases h
  exact ⟨l, g, hl, hg, rfl⟩

theorem memReadWord_sameButBus {s : State} {a : Addr} {r : WordRead} (h : memReadWord s a = .ok r) :
    SameButBus s r.state := by
  obtain ⟨l, g, hl, hg, rfl⟩ := memReadWord_ok h
  exact (memRead_sameButBus hl).trans (memRead_sameButBus hg)

theorem push_ok {s t : State} {v : Byte} (h : push s v = .ok t) :
    ∃ u, memWrite s s.stackAddr v = .ok u ∧ t = { u with sp := u.sp - 1 } := by
  obtain ⟨u, hu, h⟩ := bind_ok h
  cases h
  exact ⟨u, hu, rfl⟩

/-- A push changes the bus and decrements `SP`. -/
theorem push_sameButBus {s t : State} {v : Byte} (h : push s v = .ok t) : SameButBus { s with sp := s.sp - 1 } t := by
  obtain ⟨u, hu, rfl⟩ := push_ok h
  have := memWrite_sameButBus hu
  rw [this.sp_eq]
  exact this.withSp _

theorem pushWord_ok {s t : State} {v : Addr} (h : pushWord s v = .ok t) :
    ∃ u, push s (hi v) = .ok u ∧ push u (lo v) = .ok t := bind_ok h

theorem pushWord_sameButBus {s t : State} {v : Addr} (h : pushWord s v = .ok t) :
    SameButBus { s with sp := s.sp - 2 } t := by
  obtain ⟨u, hu, ht⟩ := pushWord_ok h
  have h1 := push_sameButBus hu
  have h2 := push_sameButBus ht
  have : ({ s with sp := s.sp - 2 } : State) = { ({ s with sp := s.sp - 1 } : State) with sp := s.sp - 1 - 1 } := by
    have : s.sp - 2 = s.sp - 1 - 1 := by bv_omega
    rw [this]
  rw [this]
  have hsp : u.sp = s.sp - 1 := h1.sp_eq
  rw [hsp] at h2
  exact (h1.withSp _).trans h2

theorem pull_ok {s : State} {r : BusRead} (h : pull s = .ok r) :
    memRead { s with sp := s.sp + 1 } (wordOf s.params.stackPage (s.sp + 1)) = .ok r := h

theorem pull_sameButBus {s : State} {r : BusRead} (h : pull s = .ok r) : SameButBus { s with sp := s.sp + 1 } r.state :=
  memRead_sameButBus h

theorem pullWord_ok {s : State} {r : WordRead} (h : pullWord s = .ok r) :
    ∃ l h', pull s = .ok l ∧ pull l.state = .ok h' ∧ r = { val := wordOf h'.val l.val, state := h'.state } := by
  obtain ⟨l, hl, h⟩ := bind_ok h
  obtain ⟨g, hg, h⟩ := bind_ok h
  cases h
  exact ⟨l, g, hl, hg, rfl⟩

theorem pullWord_sameButBus {s : State} {r : WordRead} (h : pullWord s = .ok r) :
    SameButBus { s with sp := s.sp + 2 } r.state := by
  obtain ⟨l, g, hl, hg, rfl⟩ := pullWord_ok h
  have h1 := pull_sameButBus hl
  have h2 := pull_sameButBus hg
  have hsp : l.state.sp = s.sp + 1 := h1.sp_eq
  rw [hsp] at h2
  have : s.sp + 2 = s.sp + 1 + 1 := by bv_omega
  rw [this]
  exact (h1.withSp _).trans h2

/-! ### Taking an exception, returning from one, reset -/

/-- The steps of a trap entry. -/
theorem trap_ok {kind : TrapKind} {s t : State} (h : trap kind s = .ok t) :
    ∃ u w v, pushWord s (trapReturn s.pc kind) = .ok u ∧ push u (trapByte u.p kind) = .ok w ∧
      memReadWord (w.withFlags { w.p with i := true }) (vector w.params kind) = .ok v ∧
      t = { v.state with pc := v.val, cycles := v.state.cycles + BitVec.ofNat 64 (trapLatency kind) } := by
  obtain ⟨u, hu, h⟩ := bind_ok h
  obtain ⟨w, hw, h⟩ := bind_ok h
  obtain ⟨v, hv, h⟩ := bind_ok h
  cases h
  exact ⟨u, w, v, hu, hw, hv, rfl⟩

/-- What a trap entry changes: the bus, `SP` by 3, `I`, `PC` and `cycles`. -/
theorem trap_sameButBus {kind : TrapKind} {s t : State} (h : trap kind s = .ok t) :
    SameButBus
      { s with
        sp := s.sp - 3
        p := { s.p with i := true }
        pc := t.pc
        cycles := s.cycles + BitVec.ofNat 64 (trapLatency kind) } t := by
  obtain ⟨u, w, v, hu, hw, hv, rfl⟩ := trap_ok h
  have h1 := pushWord_sameButBus hu
  have h2 := push_sameButBus hw
  have h3 := memReadWord_sameButBus hv
  have hsp : u.sp - 1 = s.sp - 3 := by
    rw [h1.sp_eq]
    show s.sp - 2 - 1 = s.sp - 3
    bv_omega
  rw [hsp] at h2
  have h4 := ((h1.withSp (s.sp - 3)).trans h2).withFlags { w.p with i := true }
  have hp : w.p = s.p := h2.p_eq.trans h1.p_eq
  rw [hp] at h4 h3
  have h5 := h4.trans h3
  unfold SameButBus at h5 ⊢
  rw [h5]
  rfl

theorem returnFromTrap_ok {s t : State} (h : returnFromTrap s = .ok t) :
    ∃ f r, pull s = .ok f ∧ pullWord (f.state.withFlags (Flags.ofByte f.val)) = .ok r ∧ t = { r.state with pc := r.val } := by
  obtain ⟨f, hf, h⟩ := bind_ok h
  obtain ⟨r, hr, h⟩ := bind_ok h
  cases h
  exact ⟨f, r, hf, hr, rfl⟩

/-- What a return changes: the bus, `SP` by 3, the flags and `PC`. -/
theorem returnFromTrap_sameButBus {s t : State} (h : returnFromTrap s = .ok t) :
    SameButBus { s with sp := s.sp + 3, p := t.p, pc := t.pc } t := by
  obtain ⟨f, r, hf, hr, rfl⟩ := returnFromTrap_ok h
  have h1 := (pull_sameButBus hf).withFlags (Flags.ofByte f.val)
  have h2 := pullWord_sameButBus hr
  have hsp : (f.state.withFlags (Flags.ofByte f.val)).sp + 2 = s.sp + 3 := by
    rw [h1.sp_eq]
    show s.sp + 1 + 2 = s.sp + 3
    bv_omega
  rw [hsp] at h2
  have h3 := (h1.withSp (s.sp + 3)).trans h2
  have hp : r.state.p = Flags.ofByte f.val := h3.p_eq
  unfold SameButBus at h3 ⊢
  simp only [hp]
  rw [h3]
  rfl

theorem resetMachine_ok {s t : State} (h : resetMachine s = .ok t) :
    ∃ v, memReadWord s.resetRegisters s.params.vecReset = .ok v ∧ t = { v.state with pc := v.val } := by
  obtain ⟨v, hv, h⟩ := bind_ok h
  cases h
  exact ⟨v, hv, rfl⟩

/-- What a reset changes: the bus (an IO region's vector read), the registers, and `PC`. -/
theorem resetMachine_sameButBus {s t : State} (h : resetMachine s = .ok t) :
    SameButBus { s.resetRegisters with pc := t.pc } t := by
  obtain ⟨v, hv, rfl⟩ := resetMachine_ok h
  exact (memReadWord_sameButBus hv).withPc v.val

/-- What the check can do: nothing, drop a masked IRQ, reset, or one trap entry (R306). -/
theorem interruptCheck_ok {s t : State} (h : interruptCheck s = .ok t) :
    (s.pending.reset = true ∧ resetMachine (s.withPending { s.pending with reset := false }) = .ok t) ∨
      (s.pending.reset = false ∧ s.pending.nmi = true ∧ trap .nmi (s.withPending { s.pending with nmi := false }) = .ok t) ∨
      (s.pending.reset = false ∧ s.pending.nmi = false ∧ s.pending.irq = true ∧ s.p.i = false ∧
        trap .irq (s.withPending { s.pending with irq := false }) = .ok t) ∨
      (s.pending.reset = false ∧ s.pending.nmi = false ∧ s.pending.irq = true ∧ s.p.i = true ∧
        s.params.irqMasked = .drop ∧ t = s.withPending { s.pending with irq := false }) ∨
      (s.pending.reset = false ∧ s.pending.nmi = false ∧ (s.pending.irq = true → s.p.i = true ∧ s.params.irqMasked = .keep) ∧
        t = s) := by
  unfold interruptCheck at h
  split at h
  · rename_i h1; exact .inl ⟨h1, h⟩
  · rename_i h1
    have h1 : s.pending.reset = false := by simpa using h1
    split at h
    · rename_i h2; exact .inr (.inl ⟨h1, h2, h⟩)
    · rename_i h2
      have h2 : s.pending.nmi = false := by simpa using h2
      split at h
      · rename_i h3
        unfold checkIrq at h
        split at h
        · rename_i h4
          split at h <;> rename_i h5 <;> cases h
          · exact .inr (.inr (.inr (.inr ⟨h1, h2, fun _ => ⟨h4, h5⟩, rfl⟩)))
          · exact .inr (.inr (.inr (.inl ⟨h1, h2, h3, h4, h5, rfl⟩)))
        · rename_i h4
          exact .inr (.inr (.inl ⟨h1, h2, h3, by simpa using h4, h⟩))
      · rename_i h3
        cases h
        exact .inr (.inr (.inr (.inr ⟨h1, h2, fun h => absurd h h3, rfl⟩)))

/-- The check leaves every register defined. -/
theorem interruptCheck_defined {s t : State} (h : interruptCheck s = .ok t) (hd : s.defined = .all) : t.defined = .all := by
  rcases interruptCheck_ok h with ⟨-, h⟩ | ⟨-, -, h⟩ | ⟨-, -, -, -, h⟩ | ⟨-, -, -, -, -, rfl⟩ | ⟨-, -, -, rfl⟩
  · exact (resetMachine_sameButBus h).defined_eq
  · exact (trap_sameButBus h).defined_eq.trans hd
  · exact (trap_sameButBus h).defined_eq.trans hd
  · exact hd
  · exact hd

/-! ### Every operation keeps what the accesses keep -/

section
variable {Q : State → Prop}

theorem memReadWord_keeps (hQ : ReadInvariant Q) {s : State} {a : Addr} {r : WordRead} (h : memReadWord s a = .ok r)
    (q : Q s) : Q r.state := by
  obtain ⟨l, g, hl, hg, rfl⟩ := memReadWord_ok h
  exact hQ.read hg (hQ.read hl q)

theorem pull_keeps (hQ : ReadInvariant Q) {s : State} {r : BusRead} (h : pull s = .ok r) (q : Q s) : Q r.state :=
  hQ.read h (hQ.frame (s := s) rfl rfl q)

theorem pullWord_keeps (hQ : ReadInvariant Q) {s : State} {r : WordRead} (h : pullWord s = .ok r) (q : Q s) :
    Q r.state := by
  obtain ⟨l, g, hl, hg, rfl⟩ := pullWord_ok h
  exact pull_keeps hQ hg (pull_keeps hQ hl q)

theorem push_keeps (hQ : BusInvariant Q) {s t : State} {v : Byte} (h : push s v = .ok t) (q : Q s) : Q t := by
  obtain ⟨u, hu, rfl⟩ := push_ok h
  exact hQ.frame (s := u) rfl rfl (hQ.write hu q)

theorem pushWord_keeps (hQ : BusInvariant Q) {s t : State} {v : Addr} (h : pushWord s v = .ok t) (q : Q s) : Q t := by
  obtain ⟨u, hu, ht⟩ := pushWord_ok h
  exact push_keeps hQ ht (push_keeps hQ hu q)

theorem trap_keeps (hQ : BusInvariant Q) {kind : TrapKind} {s t : State} (h : trap kind s = .ok t) (q : Q s) : Q t := by
  obtain ⟨u, w, v, hu, hw, hv, rfl⟩ := trap_ok h
  have hw' := push_keeps hQ hw (pushWord_keeps hQ hu q)
  have hv' := memReadWord_keeps hQ.toReadInvariant hv (hQ.frame (s := w) rfl rfl hw')
  exact hQ.frame (s := v.state) rfl rfl hv'

theorem returnFromTrap_keeps (hQ : ReadInvariant Q) {s t : State} (h : returnFromTrap s = .ok t) (q : Q s) : Q t := by
  obtain ⟨f, r, hf, hr, rfl⟩ := returnFromTrap_ok h
  have h1 := pullWord_keeps hQ hr (hQ.frame (s := f.state) rfl rfl (pull_keeps hQ hf q))
  exact hQ.frame (s := r.state) rfl rfl h1

theorem resetMachine_keeps (hQ : ReadInvariant Q) {s t : State} (h : resetMachine s = .ok t) (q : Q s) : Q t := by
  obtain ⟨v, hv, rfl⟩ := resetMachine_ok h
  have h1 := memReadWord_keeps hQ hv (hQ.frame (s := s) rfl rfl q)
  exact hQ.frame (s := v.state) rfl rfl h1

theorem interruptCheck_keeps (hQ : BusInvariant Q) {s t : State} (h : interruptCheck s = .ok t) (q : Q s) : Q t := by
  rcases interruptCheck_ok h with ⟨-, h⟩ | ⟨-, -, h⟩ | ⟨-, -, -, -, h⟩ | ⟨-, -, -, -, -, rfl⟩ | ⟨-, -, -, rfl⟩
  · exact resetMachine_keeps hQ.toReadInvariant h (hQ.frame (s := s) rfl rfl q)
  · exact trap_keeps hQ h (hQ.frame (s := s) rfl rfl q)
  · exact trap_keeps hQ h (hQ.frame (s := s) rfl rfl q)
  · exact hQ.frame (s := s) rfl rfl q
  · exact q

end

/-! ### Every operation completes where every address is mapped -/

/-- Accesses keep every address mapped: a remap takes no address away (R56). -/
theorem fullyMapped_invariant : BusInvariant State.FullyMapped := by
  apply BusInvariant.of_parts
  · intro s t hr hm q a
    rw [responsible_congr hr hm]
    exact q a
  · intro s g m a v _ _ q b
    rw [responsible_setBacking]
    simpa using q b
  · intro s g hist a e _ _ q b
    rw [responsible_setBacking]
    simpa using q b
  · intro s i g _ q b
    have := (dispatchIn_isSome_iff s.regions s.mapOrder b).1 (q b)
    obtain ⟨j, hj, r, hr, hh⟩ := this
    exact (dispatchIn_isSome_iff s.regions (bringToFront i s.mapOrder) b).2
      ⟨j, (mem_bringToFront i j _).2 (.inr hj), r, hr, hh⟩

section
variable {s : State} (hs : s.FullyMapped)
include hs

theorem State.FullyMapped.of_eq {t : State} (hr : t.regions = s.regions) (hm : t.mapOrder = s.mapOrder) :
    t.FullyMapped :=
  fullyMapped_invariant.frame hr hm hs

theorem memRead_completes (a : Addr) : ∃ r, memRead s a = .ok r ∧ r.state.FullyMapped := by
  obtain ⟨r, h⟩ := memRead_of_responsible (hs a)
  exact ⟨r, h, fullyMapped_invariant.read h hs⟩

theorem memWrite_completes (a : Addr) (v : Byte) : ∃ t, memWrite s a v = .ok t ∧ t.FullyMapped := by
  obtain ⟨r, h⟩ := memWrite_of_responsible (v := v) (hs a)
  exact ⟨r, h, fullyMapped_invariant.write h hs⟩

theorem memReadWord_completes (a : Addr) : ∃ r, memReadWord s a = .ok r ∧ r.state.FullyMapped := by
  obtain ⟨l, hl, ml⟩ := memRead_completes hs a
  obtain ⟨g, hg, mg⟩ := memRead_completes ml (a + 1)
  exact ⟨_, (bind_of_ok hl).trans (bind_of_ok hg), mg⟩

theorem push_completes (v : Byte) : ∃ t, push s v = .ok t ∧ t.FullyMapped := by
  obtain ⟨u, hu, mu⟩ := memWrite_completes hs s.stackAddr v
  exact ⟨_, bind_of_ok hu, mu.of_eq rfl rfl⟩

theorem pushWord_completes (v : Addr) : ∃ t, pushWord s v = .ok t ∧ t.FullyMapped := by
  obtain ⟨u, hu, mu⟩ := push_completes hs (hi v)
  obtain ⟨t, ht, mt⟩ := push_completes mu (lo v)
  exact ⟨t, (bind_of_ok hu).trans ht, mt⟩

theorem pull_completes : ∃ r, pull s = .ok r ∧ r.state.FullyMapped :=
  memRead_completes (hs.of_eq (t := { s with sp := s.sp + 1 }) rfl rfl) _

theorem pullWord_completes : ∃ r, pullWord s = .ok r ∧ r.state.FullyMapped := by
  obtain ⟨l, hl, ml⟩ := pull_completes hs
  obtain ⟨g, hg, mg⟩ := pull_completes ml
  exact ⟨_, (bind_of_ok hl).trans (bind_of_ok hg), mg⟩

theorem trap_completes (kind : TrapKind) : ∃ t, trap kind s = .ok t ∧ t.FullyMapped := by
  obtain ⟨u, hu, mu⟩ := pushWord_completes hs (trapReturn s.pc kind)
  obtain ⟨w, hw, mw⟩ := push_completes mu (trapByte u.p kind)
  obtain ⟨v, hv, mv⟩ := memReadWord_completes (mw.of_eq (t := w.withFlags { w.p with i := true }) rfl rfl)
    (vector w.params kind)
  exact ⟨_, (bind_of_ok hu).trans ((bind_of_ok hw).trans (bind_of_ok hv)), mv.of_eq rfl rfl⟩

theorem returnFromTrap_completes : ∃ t, returnFromTrap s = .ok t ∧ t.FullyMapped := by
  obtain ⟨f, hf, mf⟩ := pull_completes hs
  obtain ⟨r, hr, mr⟩ := pullWord_completes (mf.of_eq (t := f.state.withFlags (Flags.ofByte f.val)) rfl rfl)
  exact ⟨_, (bind_of_ok hf).trans (bind_of_ok hr), mr.of_eq rfl rfl⟩

theorem resetMachine_completes : ∃ t, resetMachine s = .ok t ∧ t.FullyMapped := by
  obtain ⟨v, hv, mv⟩ := memReadWord_completes (hs.of_eq (t := s.resetRegisters) rfl rfl) s.params.vecReset
  exact ⟨_, bind_of_ok hv, mv.of_eq rfl rfl⟩

theorem interruptCheck_completes : ∃ t, interruptCheck s = .ok t ∧ t.FullyMapped := by
  unfold interruptCheck
  split
  · exact resetMachine_completes (hs.of_eq rfl rfl)
  · split
    · exact trap_completes (s := s.withPending { s.pending with nmi := false }) (hs.of_eq rfl rfl) .nmi
    · split
      · unfold checkIrq
        split
        · split
          · exact ⟨s, rfl, hs⟩
          · exact ⟨_, rfl, hs.of_eq rfl rfl⟩
        · exact trap_completes (s := s.withPending { s.pending with irq := false }) (hs.of_eq rfl rfl) .irq
      · exact ⟨s, rfl, hs⟩

end

end Sys2Proof.Machine
end

