-- ==== Sys2Proof/Laws/Operands.lean ====
section
/-!
SUPPORT. The resolver and each shape of an instruction, said once: what it answers, the registers it changes, that it keeps
what the accesses keep, and that it completes where every address is mapped.
-/

namespace Sys2Proof.Machine

/-! ### The resolver -/

theorem zeroPagePointer_ok {s : State} {b : Byte} {r : WordRead} (h : zeroPagePointer s b = .ok r) :
    ∃ l g, memRead s (zeroPage b) = .ok l ∧ memRead l.state (zeroPage (b + 1)) = .ok g ∧
      r = { val := wordOf g.val l.val, state := g.state } := by
  obtain ⟨l, hl, h⟩ := bind_ok h
  obtain ⟨g, hg, h⟩ := bind_ok h
  cases h
  exact ⟨l, g, hl, hg, rfl⟩

theorem indirectTarget_ok {s : State} {w : Addr} {r : WordRead} (h : indirectTarget s w = .ok r) :
    ∃ l g, memRead s w = .ok l ∧ memRead l.state (wordOf (hi w) (lo w + 1)) = .ok g ∧
      r = { val := wordOf g.val l.val, state := g.state } := by
  obtain ⟨l, hl, h⟩ := bind_ok h
  obtain ⟨g, hg, h⟩ := bind_ok h
  cases h
  exact ⟨l, g, hl, hg, rfl⟩

/-- The resolver reads nothing, or the two bytes of a pointer. -/
theorem effAddr_ok {o : MemOperand} {s : State} {r : Resolved} (h : effAddr o s = .ok r) :
    r.state = s ∨ ∃ b p, zeroPagePointer s b = .ok p ∧ r.state = p.state := by
  cases o with
  | izx b =>
    obtain ⟨p, hp, h⟩ := bind_ok h
    cases h
    exact .inr ⟨_, p, hp, rfl⟩
  | izy b =>
    obtain ⟨p, hp, h⟩ := bind_ok h
    cases h
    exact .inr ⟨_, p, hp, rfl⟩
  | _ => cases h; exact .inl rfl

theorem effAddr_sameButBus {o : MemOperand} {s : State} {r : Resolved} (h : effAddr o s = .ok r) :
    SameButBus s r.state := by
  obtain h | ⟨b, p, hp, h⟩ := effAddr_ok h
  · rw [h]; exact .refl s
  · obtain ⟨l, g, hl, hg, rfl⟩ := zeroPagePointer_ok hp
    rw [h]
    exact (memRead_sameButBus hl).trans (memRead_sameButBus hg)

/-- The modes without an index report no page crossing (R110). -/
theorem readSrc_ok {src : Src} {s : State} {r : OperandRead} (h : readSrc src s = .ok r) :
    (∃ b, src = .imm b ∧ r = { val := b, crossed := false, state := s }) ∨
      ∃ o e b, src = .mem o ∧ effAddr o s = .ok e ∧ memRead e.state e.ea = .ok b ∧
        r = { val := b.val, crossed := e.crossed, state := b.state } := by
  cases src with
  | imm b => cases h; exact .inl ⟨b, rfl, rfl⟩
  | mem o =>
    obtain ⟨e, he, h⟩ := bind_ok h
    obtain ⟨b, hb, h⟩ := bind_ok h
    cases h
    exact .inr ⟨o, e, b, rfl, he, hb, rfl⟩

theorem readSrc_sameButBus {src : Src} {s : State} {r : OperandRead} (h : readSrc src s = .ok r) :
    SameButBus s r.state := by
  obtain ⟨b, -, rfl⟩ | ⟨o, e, b, -, he, hb, rfl⟩ := readSrc_ok h
  · exact .refl s
  · exact (effAddr_sameButBus he).trans (memRead_sameButBus hb)

theorem indirectTarget_sameButBus {s : State} {w : Addr} {r : WordRead} (h : indirectTarget s w = .ok r) :
    SameButBus s r.state := by
  obtain ⟨l, g, hl, hg, rfl⟩ := indirectTarget_ok h
  exact (memRead_sameButBus hl).trans (memRead_sameButBus hg)

theorem modifyMem_ok {f : Modify} {ea : Addr} {s t : State} (h : modifyMem f ea s = .ok t) :
    ∃ old v u, memRead s ea = .ok old ∧ memWrite old.state ea old.val = .ok v ∧
      memWrite v ea (f old.val s.p).1 = .ok u ∧ t = u.withFlags (f old.val s.p).2 := by
  obtain ⟨old, ho, h⟩ := bind_ok h
  obtain ⟨v, hv, h⟩ := bind_ok h
  obtain ⟨u, hu, h⟩ := bind_ok h
  cases h
  exact ⟨old, v, u, ho, hv, hu, rfl⟩

/-- A read-modify-write changes the bus and the flags. -/
theorem modifyMem_sameButBus {f : Modify} {ea : Addr} {s t : State} (h : modifyMem f ea s = .ok t) :
    SameButBus (s.withFlags t.p) t := by
  obtain ⟨old, v, u, ho, hv, hu, rfl⟩ := modifyMem_ok h
  exact (((memRead_sameButBus ho).trans (memWrite_sameButBus hv)).trans (memWrite_sameButBus hu)).withFlags _

/-! ### What each shape answers -/

section
variable {s t : State}

theorem runImplied_eq (cyc : Nat) (f : State → State) :
    runImplied cyc f s = .next ((f (s.advance 1)).account cyc) := rfl

theorem runStack_next {cyc : Nat} {f : State → Except Fault State} (h : runStack cyc f s = .next t) :
    ∃ u, f (s.advance 1) = .ok u ∧ t = u.account cyc := by
  obtain ⟨u, hu, h⟩ := bind_ok (finish_next.1 h)
  cases h
  exact ⟨u, hu, rfl⟩

theorem runRead_next {src : Src} {cyc : Nat} {pp : Bool} {op : Byte → State → State} (h : runRead src cyc pp op s = .next t) :
    ∃ r, readSrc src (s.advance src.len) = .ok r ∧ t = (op r.val r.state).account (cost cyc pp r.crossed) := by
  obtain ⟨r, hr, h⟩ := bind_ok (finish_next.1 h)
  cases h
  exact ⟨r, hr, rfl⟩

theorem runReadTwice_next {o : MemOperand} {cyc : Nat} {pp : Bool} {first second : Byte → State → State}
    (h : runReadTwice o cyc pp first second s = .next t) :
    ∃ r b c, effAddr o (s.advance o.len) = .ok r ∧ memRead r.state r.ea = .ok b ∧
      memRead (first b.val b.state) r.ea = .ok c ∧ t = (second c.val c.state).account (cost cyc pp r.crossed) := by
  obtain ⟨r, hr, h⟩ := bind_ok (finish_next.1 h)
  obtain ⟨b, hb, h⟩ := bind_ok h
  obtain ⟨c, hc, h⟩ := bind_ok h
  cases h
  exact ⟨r, b, c, hr, hb, hc, rfl⟩

theorem runStore_next {o : MemOperand} {cyc : Nat} {val : State → Byte} (h : runStore o cyc val s = .next t) :
    ∃ r u, effAddr o (s.advance o.len) = .ok r ∧ memWrite r.state r.ea (val r.state) = .ok u ∧ t = u.account cyc := by
  obtain ⟨r, hr, h⟩ := bind_ok (finish_next.1 h)
  obtain ⟨u, hu, h⟩ := bind_ok h
  cases h
  exact ⟨r, u, hr, hu, rfl⟩

theorem runModify_next {o : MemOperand} {cyc : Nat} {f : Modify} (h : runModify o cyc f s = .next t) :
    ∃ r u, effAddr o (s.advance o.len) = .ok r ∧ modifyMem f r.ea r.state = .ok u ∧ t = u.account cyc := by
  obtain ⟨r, hr, h⟩ := bind_ok (finish_next.1 h)
  obtain ⟨u, hu, h⟩ := bind_ok h
  cases h
  exact ⟨r, u, hr, hu, rfl⟩

theorem runModifyRead_next {o : MemOperand} {cyc : Nat} {f : Modify} {op : Byte → State → State}
    (h : runModifyRead o cyc f op s = .next t) :
    ∃ r u b, effAddr o (s.advance o.len) = .ok r ∧ modifyMem f r.ea r.state = .ok u ∧ memRead u r.ea = .ok b ∧
      t = (op b.val b.state).account cyc := by
  obtain ⟨r, hr, h⟩ := bind_ok (finish_next.1 h)
  obtain ⟨u, hu, h⟩ := bind_ok h
  obtain ⟨b, hb, h⟩ := bind_ok h
  cases h
  exact ⟨r, u, b, hr, hu, hb, rfl⟩

theorem runBranch_eq (cond : Flags → Bool) (off : Byte) :
    runBranch cond off s =
      .next (({ s with pc := if cond s.p then branchTarget (s.pc + 2) off else s.pc + 2 } : State).account
        (branchCost (cond s.p) (s.pc + 2) off)) := rfl

theorem runJump_eq (w : Addr) (cyc : Nat) : runJump w cyc s = .next (({ s with pc := w } : State).account cyc) := rfl

theorem runJumpIndirect_next {w : Addr} {cyc : Nat} (h : runJumpIndirect w cyc s = .next t) :
    ∃ r, indirectTarget (s.advance 3) w = .ok r ∧ t = ({ r.state with pc := r.val } : State).account cyc := by
  obtain ⟨r, hr, h⟩ := bind_ok (finish_next.1 h)
  cases h
  exact ⟨r, hr, rfl⟩

theorem runCall_next {w : Addr} {cyc : Nat} (h : runCall w cyc s = .next t) :
    ∃ u, pushWord (s.advance 3) (s.pc + 2) = .ok u ∧ t = ({ u with pc := w } : State).account cyc := by
  obtain ⟨u, hu, h⟩ := bind_ok (finish_next.1 h)
  cases h
  refine ⟨u, ?_, rfl⟩
  have : (s.advance 3).pc - 1 = s.pc + 2 := by
    show s.pc + 3 - 1 = s.pc + 2
    bv_omega
  rwa [this] at hu

theorem runUnstableStore_next {o : MemOperand} {cyc : Nat} {before : State → State} {val : State → Byte}
    (h : runUnstableStore o cyc before val s = .next t) :
    ∃ r u, effAddr o (s.advance o.len) = .ok r ∧
      memWrite (before r.state) (unstableStore (val (before r.state)) r.ea r.crossed).2
        (unstableStore (val (before r.state)) r.ea r.crossed).1 = .ok u ∧ t = u.account cyc := by
  obtain ⟨r, hr, h⟩ := bind_ok (finish_next.1 h)
  obtain ⟨u, hu, h⟩ := bind_ok h
  cases h
  exact ⟨r, u, hr, hu, by cases r.crossed <;> rfl⟩

theorem underPolicy_next {opcode : Byte} {run : State → Host.Outcome State Fault Refusal}
    (h : underPolicy opcode run s = .next t) : s.params.unstable = .execute ∧ run s = .next t := by
  unfold underPolicy at h
  split at h
  · cases h
  · exact ⟨by assumption, h⟩

end

/-! ### What the resolver and the read-modify-write keep -/

section
variable {Q : State → Prop} {s : State}

theorem effAddr_keeps (hQ : ReadInvariant Q) {o : MemOperand} {r : Resolved} (h : effAddr o s = .ok r) (q : Q s) :
    Q r.state := by
  obtain h | ⟨b, p, hp, h⟩ := effAddr_ok h
  · rw [h]; exact q
  · obtain ⟨l, g, hl, hg, rfl⟩ := zeroPagePointer_ok hp
    rw [h]
    exact hQ.read hg (hQ.read hl q)

theorem readSrc_keeps (hQ : ReadInvariant Q) {src : Src} {r : OperandRead} (h : readSrc src s = .ok r) (q : Q s) :
    Q r.state := by
  obtain ⟨b, -, rfl⟩ | ⟨o, e, b, -, he, hb, rfl⟩ := readSrc_ok h
  · exact q
  · exact hQ.read hb (effAddr_keeps hQ he q)

theorem indirectTarget_keeps (hQ : ReadInvariant Q) {w : Addr} {r : WordRead} (h : indirectTarget s w = .ok r) (q : Q s) :
    Q r.state := by
  obtain ⟨l, g, hl, hg, rfl⟩ := indirectTarget_ok h
  exact hQ.read hg (hQ.read hl q)

theorem modifyMem_keeps (hQ : BusInvariant Q) {f : Modify} {ea : Addr} {t : State} (h : modifyMem f ea s = .ok t)
    (q : Q s) : Q t := by
  obtain ⟨old, v, u, ho, hv, hu, rfl⟩ := modifyMem_ok h
  exact hQ.frame (s := u) rfl rfl (hQ.write hu (hQ.write hv (hQ.read ho q)))

end

/-! ### Completion -/

section
variable {s : State} (hs : s.FullyMapped)
include hs

theorem zeroPagePointer_completes (b : Byte) : ∃ r, zeroPagePointer s b = .ok r ∧ r.state.FullyMapped := by
  obtain ⟨l, hl, ml⟩ := memRead_completes hs (zeroPage b)
  obtain ⟨g, hg, mg⟩ := memRead_completes ml (zeroPage (b + 1))
  exact ⟨_, (bind_of_ok hl).trans (bind_of_ok hg), mg⟩

theorem effAddr_completes (o : MemOperand) : ∃ r, effAddr o s = .ok r ∧ r.state.FullyMapped := by
  cases o with
  | izx b =>
    obtain ⟨p, hp, mp⟩ := zeroPagePointer_completes hs (b + s.x)
    exact ⟨_, bind_of_ok hp, mp⟩
  | izy b =>
    obtain ⟨p, hp, mp⟩ := zeroPagePointer_completes hs b
    exact ⟨_, bind_of_ok hp, mp⟩
  | _ => exact ⟨_, rfl, hs⟩

theorem readSrc_completes (src : Src) : ∃ r, readSrc src s = .ok r ∧ r.state.FullyMapped := by
  cases src with
  | imm b => exact ⟨_, rfl, hs⟩
  | mem o =>
    obtain ⟨e, he, me⟩ := effAddr_completes hs o
    obtain ⟨b, hb, mb⟩ := memRead_completes me e.ea
    exact ⟨_, (bind_of_ok he).trans (bind_of_ok hb), mb⟩

theorem indirectTarget_completes (w : Addr) : ∃ r, indirectTarget s w = .ok r ∧ r.state.FullyMapped := by
  obtain ⟨l, hl, ml⟩ := memRead_completes hs w
  obtain ⟨g, hg, mg⟩ := memRead_completes ml (wordOf (hi w) (lo w + 1))
  exact ⟨_, (bind_of_ok hl).trans (bind_of_ok hg), mg⟩

theorem modifyMem_completes (f : Modify) (ea : Addr) : ∃ t, modifyMem f ea s = .ok t ∧ t.FullyMapped := by
  obtain ⟨old, ho, mo⟩ := memRead_completes hs ea
  obtain ⟨v, hv, mv⟩ := memWrite_completes mo ea old.val
  obtain ⟨u, hu, mu⟩ := memWrite_completes mv ea (f old.val s.p).1
  exact ⟨_, (bind_of_ok ho).trans ((bind_of_ok hv).trans (bind_of_ok hu)), mu.of_eq rfl rfl⟩

end

end Sys2Proof.Machine
end

