-- ==== Sys2Proof/Laws/Exec.lean ====
section
/-!
SUPPORT. `exec` said once, by mnemonic: every instruction is one of fourteen shapes over the operand the matrix gives it.
-/

namespace Sys2Proof.Machine

/-- The shapes of an instruction, with what fills each. -/
inductive Shape where
  | implied (cyc : Nat) (f : State → State)
  | stack (cyc : Nat) (f : State → Except Fault State)
  | read (src : Src) (cyc : Nat) (pp : Bool) (op : Byte → State → State)
  | readTwice (o : MemOperand) (cyc : Nat) (pp : Bool) (first second : Byte → State → State)
  | store (o : MemOperand) (cyc : Nat) (val : State → Byte)
  | modify (o : MemOperand) (cyc : Nat) (f : Modify)
  | modifyRead (o : MemOperand) (cyc : Nat) (f : Modify) (op : Byte → State → State)
  | branch (cond : Flags → Bool) (off : Byte)
  | jump (w : Addr) (cyc : Nat)
  | jumpIndirect (w : Addr) (cyc : Nat)
  | call (w : Addr) (cyc : Nat)
  | unstableRead (opcode : Byte) (src : Src) (cyc : Nat) (op : Byte → State → State)
  | unstableStore (opcode : Byte) (o : MemOperand) (cyc : Nat) (before : State → State) (val : State → Byte)
  | halt (opcode : Byte)

/-- The outcome of an instruction of a shape. -/
def Shape.run : Shape → State → Host.Outcome State Fault Refusal
  | .implied cyc f => runImplied cyc f
  | .stack cyc f => runStack cyc f
  | .read src cyc pp op => runRead src cyc pp op
  | .readTwice o cyc pp first second => runReadTwice o cyc pp first second
  | .store o cyc val => runStore o cyc val
  | .modify o cyc f => runModify o cyc f
  | .modifyRead o cyc f op => runModifyRead o cyc f op
  | .branch cond off => runBranch cond off
  | .jump w cyc => runJump w cyc
  | .jumpIndirect w cyc => runJumpIndirect w cyc
  | .call w cyc => runCall w cyc
  | .unstableRead opcode src cyc op => underPolicy opcode (runRead src cyc false op)
  | .unstableStore opcode o cyc before val => underPolicy opcode (runUnstableStore o cyc before val)
  | .halt opcode => runHalt opcode

/-! ### An instruction's shape, from the operand the matrix gives it -/

def readShape (i : Instr) (op : Byte → State → State) : Shape :=
  match i.src with
  | some src => .read src i.row.cyc i.row.pp op
  | none => .implied i.row.cyc (op 0)

def readTwiceShape (i : Instr) (first second : Byte → State → State) : Shape :=
  match i.memOperand with
  | some o => .readTwice o i.row.cyc i.row.pp first second
  | none => .halt i.opcode

def storeShape (i : Instr) (val : State → Byte) : Shape :=
  match i.memOperand with
  | some o => .store o i.row.cyc val
  | none => .halt i.opcode

def modifyShape (i : Instr) (f : Modify) : Shape :=
  match i.memOperand with
  | some o => .modify o i.row.cyc f
  | none => .implied i.row.cyc (modifyAcc f)

def modifyReadShape (i : Instr) (f : Modify) (op : Byte → State → State) : Shape :=
  match i.memOperand with
  | some o => .modifyRead o i.row.cyc f op
  | none => .halt i.opcode

def branchShape (i : Instr) (cond : Flags → Bool) : Shape :=
  match i.offset with
  | some off => .branch cond off
  | none => .halt i.opcode

def jumpShape (i : Instr) : Shape :=
  match i.target with
  | some w => if i.row.mode = .ind then .jumpIndirect w i.row.cyc else .jump w i.row.cyc
  | none => .halt i.opcode

def callShape (i : Instr) : Shape :=
  match i.target with
  | some w => .call w i.row.cyc
  | none => .halt i.opcode

def unstableReadShape (i : Instr) (op : Byte → State → State) : Shape :=
  match i.src with
  | some src => .unstableRead i.opcode src i.row.cyc op
  | none => .halt i.opcode

def unstableStoreShape (i : Instr) (before : State → State) (val : State → Byte) : Shape :=
  match i.memOperand with
  | some o => .unstableStore i.opcode o i.row.cyc before val
  | none => .halt i.opcode

/-- The shape of every instruction, by mnemonic. -/
def shapeOf (i : Instr) : Mnemonic → Shape
  | .ADC => readShape i opAdc
  | .ALR => readShape i opAlr
  | .ANC => readShape i opAnc
  | .AND => readShape i opAnd
  | .ANE => unstableReadShape i opAne
  | .ARR => readShape i opArr
  | .ASL => modifyShape i modAsl
  | .BCC => branchShape i fun p => !p.c
  | .BCS => branchShape i fun p => p.c
  | .BEQ => branchShape i fun p => p.z
  | .BIT => readShape i opBit
  | .BMI => branchShape i fun p => p.n
  | .BNE => branchShape i fun p => !p.z
  | .BPL => branchShape i fun p => !p.n
  | .BRK => .stack i.row.cyc (trap .brk)
  | .BVC => branchShape i fun p => !p.v
  | .BVS => branchShape i fun p => p.v
  | .CLC => .implied i.row.cyc opClc
  | .CLD => .implied i.row.cyc opCld
  | .CLI => .implied i.row.cyc opCli
  | .CLV => .implied i.row.cyc opClv
  | .CMP => readShape i opCmp
  | .CPX => readShape i opCpx
  | .CPY => readShape i opCpy
  | .DCP => modifyReadShape i modDec opCmp
  | .DEC => modifyShape i modDec
  | .DEX => .implied i.row.cyc opDex
  | .DEY => .implied i.row.cyc opDey
  | .EOR => readShape i opEor
  | .INC => modifyShape i modInc
  | .INX => .implied i.row.cyc opInx
  | .INY => .implied i.row.cyc opIny
  | .ISB => modifyReadShape i modInc opSbc
  | .JAM => .halt i.opcode
  | .JMP => jumpShape i
  | .JSR => callShape i
  | .LAS => readShape i opLas
  | .LAX => readTwiceShape i opLda opLdx
  | .LDA => readShape i opLda
  | .LDX => readShape i opLdx
  | .LDY => readShape i opLdy
  | .LSR => modifyShape i modLsr
  | .LXA => unstableReadShape i opLxa
  | .NOP => readShape i opSkip
  | .ORA => readShape i opOra
  | .PHA => .stack i.row.cyc stPha
  | .PHP => .stack i.row.cyc stPhp
  | .PLA => .stack i.row.cyc stPla
  | .PLP => .stack i.row.cyc stPlp
  | .RLA => modifyReadShape i modRol opAnd
  | .ROL => modifyShape i modRol
  | .ROR => modifyShape i modRor
  | .RRA => modifyReadShape i modRor opAdc
  | .RTI => .stack i.row.cyc returnFromTrap
  | .RTS => .stack i.row.cyc stRts
  | .SAX => storeShape i valSax
  | .SBC => readShape i opSbc
  | .SBX => readShape i opSbx
  | .SEC => .implied i.row.cyc opSec
  | .SED => .implied i.row.cyc opSed
  | .SEI => .implied i.row.cyc opSei
  | .SHA => unstableStoreShape i id valSax
  | .SHX => unstableStoreShape i id valStx
  | .SHY => unstableStoreShape i id valSty
  | .SLO => modifyReadShape i modAsl opOra
  | .SRE => modifyReadShape i modLsr opEor
  | .STA => storeShape i valSta
  | .STX => storeShape i valStx
  | .STY => storeShape i valSty
  | .TAS => unstableStoreShape i opTas State.sp
  | .TAX => .implied i.row.cyc opTax
  | .TAY => .implied i.row.cyc opTay
  | .TSX => .implied i.row.cyc opTsx
  | .TXA => .implied i.row.cyc opTxa
  | .TXS => .implied i.row.cyc opTxs
  | .TYA => .implied i.row.cyc opTya

/-- Every arm of `exec` is its instruction's shape. -/
theorem exec_eq_shape (i : Instr) (s : State) : exec i s = (shapeOf i i.mnemonic).run s := by
  cases i <;> rfl

/-! ### What a handler may do beside the bus -/

/-- Only `A`, `X`, `Y`, `SP`, the flags and the draw counter may differ. -/
def RegistersOnly (s t : State) : Prop :=
  t = { s with a := t.a, x := t.x, y := t.y, sp := t.sp, p := t.p, draws := t.draws }

section
variable {s t : State} (h : RegistersOnly s t)
include h

theorem RegistersOnly.pc_eq : t.pc = s.pc := by rw [h]
theorem RegistersOnly.regions_eq : t.regions = s.regions := by rw [h]
theorem RegistersOnly.mapOrder_eq : t.mapOrder = s.mapOrder := by rw [h]

end

/-- What no handler writes: the parameters, the pending set, `cycles`, and which registers are defined. -/
def Untouched (s t : State) : Prop :=
  t.params = s.params ∧ t.pending = s.pending ∧ t.cycles = s.cycles ∧ t.defined = s.defined

theorem Untouched.trans {s t u : State} (h : Untouched s t) (k : Untouched t u) : Untouched s u :=
  ⟨k.1.trans h.1, k.2.1.trans h.2.1, k.2.2.1.trans h.2.2.1, k.2.2.2.trans h.2.2.2⟩

theorem SameButBus.untouched {s t : State} (h : SameButBus s t) : Untouched s t :=
  ⟨h.params_eq, h.pending_eq, h.cycles_eq, h.defined_eq⟩

theorem RegistersOnly.untouched {s t : State} (h : RegistersOnly s t) : Untouched s t := by
  unfold RegistersOnly at h
  rw [h]
  exact ⟨rfl, rfl, rfl, rfl⟩

theorem opAdc_registersOnly (v : Byte) (s : State) : RegistersOnly s (opAdc v s) := by
  unfold opAdc; split <;> rfl

theorem opSbc_registersOnly (v : Byte) (s : State) : RegistersOnly s (opSbc v s) := by
  unfold opSbc; split <;> rfl

theorem opArr_registersOnly (v : Byte) (s : State) : RegistersOnly s (opArr v s) := by
  unfold opArr; dsimp only; split <;> rfl

/-- A stack handler: what it keeps, what it leaves untouched, and that it completes where every address is mapped. -/
structure StackHandler (f : State → Except Fault State) : Prop where
  keeps : ∀ {Q : State → Prop} {s t : State}, BusInvariant Q → f s = .ok t → Q s → Q t
  frame : ∀ {s t : State}, f s = .ok t → Untouched s t
  completes : ∀ {s : State}, s.FullyMapped → ∃ t, f s = .ok t

theorem push_handler (v : State → Byte) : StackHandler fun s => push s (v s) where
  keeps := fun hQ h q => push_keeps hQ h q
  frame := fun h =>
    have := push_sameButBus h
    ⟨this.params_eq, this.pending_eq, this.cycles_eq, this.defined_eq⟩
  completes := fun hs =>
    have ⟨t, ht, _⟩ := push_completes hs _
    ⟨t, ht⟩

theorem stPla_ok {s t : State} (h : stPla s = .ok t) :
    ∃ v, pull s = .ok v ∧ t = ({ v.state with a := v.val } : State).setNZ v.val := by
  obtain ⟨v, hv, h⟩ := bind_ok h
  cases h
  exact ⟨v, hv, rfl⟩

theorem stPlp_ok {s t : State} (h : stPlp s = .ok t) :
    ∃ v, pull s = .ok v ∧ t = v.state.withFlags (Flags.ofByte v.val) := by
  obtain ⟨v, hv, h⟩ := bind_ok h
  cases h
  exact ⟨v, hv, rfl⟩

theorem stRts_ok {s t : State} (h : stRts s = .ok t) :
    ∃ r, pullWord s = .ok r ∧ t = { r.state with pc := r.val + 1 } := by
  obtain ⟨v, hv, h⟩ := bind_ok h
  cases h
  exact ⟨v, hv, rfl⟩

theorem stPla_handler : StackHandler stPla where
  keeps := by
    intro Q s t hQ h q
    obtain ⟨v, hv, rfl⟩ := stPla_ok h
    exact hQ.frame (s := v.state) rfl rfl (pull_keeps hQ.toReadInvariant hv q)
  frame := by
    intro s t h
    obtain ⟨v, hv, rfl⟩ := stPla_ok h
    have := pull_sameButBus hv
    exact ⟨this.params_eq, this.pending_eq, this.cycles_eq, this.defined_eq⟩
  completes := by
    intro s hs
    obtain ⟨v, hv, -⟩ := pull_completes hs
    exact ⟨_, bind_of_ok hv⟩

theorem stPlp_handler : StackHandler stPlp where
  keeps := by
    intro Q s t hQ h q
    obtain ⟨v, hv, rfl⟩ := stPlp_ok h
    exact hQ.frame (s := v.state) rfl rfl (pull_keeps hQ.toReadInvariant hv q)
  frame := by
    intro s t h
    obtain ⟨v, hv, rfl⟩ := stPlp_ok h
    have := pull_sameButBus hv
    exact ⟨this.params_eq, this.pending_eq, this.cycles_eq, this.defined_eq⟩
  completes := by
    intro s hs
    obtain ⟨v, hv, -⟩ := pull_completes hs
    exact ⟨_, bind_of_ok hv⟩

theorem stRts_handler : StackHandler stRts where
  keeps := by
    intro Q s t hQ h q
    obtain ⟨v, hv, rfl⟩ := stRts_ok h
    exact hQ.frame (s := v.state) rfl rfl (pullWord_keeps hQ.toReadInvariant hv q)
  frame := by
    intro s t h
    obtain ⟨v, hv, rfl⟩ := stRts_ok h
    have := pullWord_sameButBus hv
    exact ⟨this.params_eq, this.pending_eq, this.cycles_eq, this.defined_eq⟩
  completes := by
    intro s hs
    obtain ⟨v, hv, -⟩ := pullWord_completes hs
    exact ⟨_, bind_of_ok hv⟩

theorem brk_handler : StackHandler (trap .brk) where
  keeps := fun hQ h q => trap_keeps hQ h q
  frame := fun h =>
    have := trap_sameButBus h
    ⟨this.params_eq, this.pending_eq, this.cycles_eq.trans (BitVec.add_zero _), this.defined_eq⟩
  completes := fun hs =>
    have ⟨t, ht, _⟩ := trap_completes hs .brk
    ⟨t, ht⟩

theorem rti_handler : StackHandler returnFromTrap where
  keeps := fun hQ h q => returnFromTrap_keeps hQ.toReadInvariant h q
  frame := fun h =>
    have := returnFromTrap_sameButBus h
    ⟨this.params_eq, this.pending_eq, this.cycles_eq, this.defined_eq⟩
  completes := fun hs =>
    have ⟨t, ht, _⟩ := returnFromTrap_completes hs
    ⟨t, ht⟩

/-- What the fillers of a shape do not do. -/
def Shape.Sound : Shape → Prop
  | .implied _ f => ∀ s, RegistersOnly s (f s)
  | .stack _ f => StackHandler f
  | .read _ _ _ op => ∀ v s, RegistersOnly s (op v s)
  | .readTwice _ _ _ first second => (∀ v s, RegistersOnly s (first v s)) ∧ ∀ v s, RegistersOnly s (second v s)
  | .modifyRead _ _ _ op => ∀ v s, RegistersOnly s (op v s)
  | .unstableRead _ _ _ op => ∀ v s, RegistersOnly s (op v s)
  | .unstableStore _ _ _ before _ => ∀ s, RegistersOnly s (before s)
  | .store _ _ _ => True
  | .modify _ _ _ => True
  | .branch _ _ => True
  | .jump _ _ => True
  | .jumpIndirect _ _ => True
  | .call _ _ => True
  | .halt _ => True

section
variable (i : Instr)

theorem readShape_sound {op : Byte → State → State} (h : ∀ v s, RegistersOnly s (op v s)) : (readShape i op).Sound := by
  unfold readShape; split
  · exact h
  · exact h 0

theorem readTwiceShape_sound {first second : Byte → State → State} (h : ∀ v s, RegistersOnly s (first v s))
    (k : ∀ v s, RegistersOnly s (second v s)) : (readTwiceShape i first second).Sound := by
  unfold readTwiceShape; split
  · exact ⟨h, k⟩
  · trivial

theorem storeShape_sound (val : State → Byte) : (storeShape i val).Sound := by
  unfold storeShape; split <;> trivial

theorem modifyShape_sound (f : Modify) : (modifyShape i f).Sound := by
  unfold modifyShape; split
  · trivial
  · intro s; rfl

theorem modifyReadShape_sound (f : Modify) {op : Byte → State → State} (h : ∀ v s, RegistersOnly s (op v s)) :
    (modifyReadShape i f op).Sound := by
  unfold modifyReadShape; split
  · exact h
  · trivial

theorem branchShape_sound (cond : Flags → Bool) : (branchShape i cond).Sound := by
  unfold branchShape; split <;> trivial

theorem jumpShape_sound : (jumpShape i).Sound := by
  unfold jumpShape; split
  · split <;> trivial
  · trivial

theorem callShape_sound : (callShape i).Sound := by
  unfold callShape; split <;> trivial

theorem unstableReadShape_sound {op : Byte → State → State} (h : ∀ v s, RegistersOnly s (op v s)) :
    (unstableReadShape i op).Sound := by
  unfold unstableReadShape; split
  · exact h
  · trivial

theorem unstableStoreShape_sound {before : State → State} (h : ∀ s, RegistersOnly s (before s)) (val : State → Byte) :
    (unstableStoreShape i before val).Sound := by
  unfold unstableStoreShape; split
  · exact h
  · trivial

/-- Every shape's fillers are sound. -/
theorem shapeOf_sound (m : Mnemonic) : (shapeOf i m).Sound := by
  cases m
  case ADC => exact readShape_sound i opAdc_registersOnly
  case ALR => exact readShape_sound i fun _ _ => rfl
  case ANC => exact readShape_sound i fun _ _ => rfl
  case AND => exact readShape_sound i fun _ _ => rfl
  case ANE => exact unstableReadShape_sound i fun _ _ => rfl
  case ARR => exact readShape_sound i opArr_registersOnly
  case ASL => exact modifyShape_sound i _
  case BCC => exact branchShape_sound i _
  case BCS => exact branchShape_sound i _
  case BEQ => exact branchShape_sound i _
  case BIT => exact readShape_sound i fun _ _ => rfl
  case BMI => exact branchShape_sound i _
  case BNE => exact branchShape_sound i _
  case BPL => exact branchShape_sound i _
  case BRK => exact brk_handler
  case BVC => exact branchShape_sound i _
  case BVS => exact branchShape_sound i _
  case CLC => exact fun _ => rfl
  case CLD => exact fun _ => rfl
  case CLI => exact fun _ => rfl
  case CLV => exact fun _ => rfl
  case CMP => exact readShape_sound i fun _ _ => rfl
  case CPX => exact readShape_sound i fun _ _ => rfl
  case CPY => exact readShape_sound i fun _ _ => rfl
  case DCP => exact modifyReadShape_sound i _ fun _ _ => rfl
  case DEC => exact modifyShape_sound i _
  case DEX => exact fun _ => rfl
  case DEY => exact fun _ => rfl
  case EOR => exact readShape_sound i fun _ _ => rfl
  case INC => exact modifyShape_sound i _
  case INX => exact fun _ => rfl
  case INY => exact fun _ => rfl
  case ISB => exact modifyReadShape_sound i _ opSbc_registersOnly
  case JAM => exact trivial
  case JMP => exact jumpShape_sound i
  case JSR => exact callShape_sound i
  case LAS => exact readShape_sound i fun _ _ => rfl
  case LAX => exact readTwiceShape_sound i (fun _ _ => rfl) fun _ _ => rfl
  case LDA => exact readShape_sound i fun _ _ => rfl
  case LDX => exact readShape_sound i fun _ _ => rfl
  case LDY => exact readShape_sound i fun _ _ => rfl
  case LSR => exact modifyShape_sound i _
  case LXA => exact unstableReadShape_sound i fun _ _ => rfl
  case NOP => exact readShape_sound i fun _ _ => rfl
  case ORA => exact readShape_sound i fun _ _ => rfl
  case PHA => exact push_handler State.a
  case PHP => exact push_handler fun s => s.p.softwareByte
  case PLA => exact stPla_handler
  case PLP => exact stPlp_handler
  case RLA => exact modifyReadShape_sound i _ fun _ _ => rfl
  case ROL => exact modifyShape_sound i _
  case ROR => exact modifyShape_sound i _
  case RRA => exact modifyReadShape_sound i _ opAdc_registersOnly
  case RTI => exact rti_handler
  case RTS => exact stRts_handler
  case SAX => exact storeShape_sound i _
  case SBC => exact readShape_sound i opSbc_registersOnly
  case SBX => exact readShape_sound i fun _ _ => rfl
  case SEC => exact fun _ => rfl
  case SED => exact fun _ => rfl
  case SEI => exact fun _ => rfl
  case SHA => exact unstableStoreShape_sound i (before := id) (fun _ => rfl) valSax
  case SHX => exact unstableStoreShape_sound i (before := id) (fun _ => rfl) valStx
  case SHY => exact unstableStoreShape_sound i (before := id) (fun _ => rfl) valSty
  case SLO => exact modifyReadShape_sound i _ fun _ _ => rfl
  case SRE => exact modifyReadShape_sound i _ fun _ _ => rfl
  case STA => exact storeShape_sound i _
  case STX => exact storeShape_sound i _
  case STY => exact storeShape_sound i _
  case TAS => exact unstableStoreShape_sound i (before := opTas) (fun _ => rfl) State.sp
  case TAX => exact fun _ => rfl
  case TAY => exact fun _ => rfl
  case TSX => exact fun _ => rfl
  case TXA => exact fun _ => rfl
  case TXS => exact fun _ => rfl
  case TYA => exact fun _ => rfl

end

/-! ### What the accesses keep, every instruction keeps -/

section
variable {Q : State → Prop} {s t : State}

theorem ReadInvariant.registers (hQ : ReadInvariant Q) (h : RegistersOnly s t) (q : Q s) : Q t :=
  hQ.frame h.regions_eq h.mapOrder_eq q

theorem ReadInvariant.advance (hQ : ReadInvariant Q) (q : Q s) (n : Nat) : Q (s.advance n) := hQ.frame (s := s) rfl rfl q

theorem ReadInvariant.account (hQ : ReadInvariant Q) (q : Q s) (n : Nat) : Q (s.account n) := hQ.frame (s := s) rfl rfl q

theorem runRead_keeps (hQ : ReadInvariant Q) {src : Src} {cyc : Nat} {pp : Bool} {op : Byte → State → State}
    (hop : ∀ v s, RegistersOnly s (op v s)) (h : runRead src cyc pp op s = .next t) (q : Q s) : Q t := by
  obtain ⟨r, hr, rfl⟩ := runRead_next h
  exact hQ.account (hQ.registers (hop _ _) (readSrc_keeps hQ hr (hQ.advance q _))) _

theorem runReadTwice_keeps (hQ : ReadInvariant Q) {o : MemOperand} {cyc : Nat} {pp : Bool}
    {first second : Byte → State → State} (hf : ∀ v s, RegistersOnly s (first v s))
    (hg : ∀ v s, RegistersOnly s (second v s)) (h : runReadTwice o cyc pp first second s = .next t) (q : Q s) : Q t := by
  obtain ⟨r, b, c, hr, hb, hc, rfl⟩ := runReadTwice_next h
  have h1 := hQ.read hb (effAddr_keeps hQ hr (hQ.advance q _))
  exact hQ.account (hQ.registers (hg _ _) (hQ.read hc (hQ.registers (hf _ _) h1))) _

theorem runJumpIndirect_keeps (hQ : ReadInvariant Q) {w : Addr} {cyc : Nat} (h : runJumpIndirect w cyc s = .next t)
    (q : Q s) : Q t := by
  obtain ⟨r, hr, rfl⟩ := runJumpIndirect_next h
  exact hQ.frame (s := r.state) rfl rfl (indirectTarget_keeps hQ hr (hQ.advance q _))

theorem runUnstableStore_keeps (hQ : BusInvariant Q) {o : MemOperand} {cyc : Nat} {before : State → State}
    {val : State → Byte} (hb : ∀ s, RegistersOnly s (before s)) (h : runUnstableStore o cyc before val s = .next t)
    (q : Q s) : Q t := by
  obtain ⟨r, u, hr, hu, rfl⟩ := runUnstableStore_next h
  have h1 := effAddr_keeps hQ.toReadInvariant hr (hQ.advance q _)
  exact hQ.account (hQ.write hu (hQ.registers (hb _) h1)) _

theorem Shape.run_keeps (hQ : BusInvariant Q) {sh : Shape} (hsh : sh.Sound) (h : sh.run s = .next t) (q : Q s) : Q t := by
  have hR := hQ.toReadInvariant
  cases sh with
  | implied cyc f =>
    cases (runImplied_eq cyc f).symm.trans h
    exact hR.account (hR.registers (hsh _) (hR.advance q _)) _
  | stack cyc f =>
    obtain ⟨u, hu, rfl⟩ := runStack_next h
    exact hR.account (hsh.keeps hQ hu (hR.advance q _)) _
  | read => exact runRead_keeps hR hsh h q
  | readTwice => exact runReadTwice_keeps hR hsh.1 hsh.2 h q
  | store =>
    obtain ⟨r, u, hr, hu, rfl⟩ := runStore_next h
    exact hR.account (hQ.write hu (effAddr_keeps hR hr (hR.advance q _))) _
  | modify =>
    obtain ⟨r, u, hr, hu, rfl⟩ := runModify_next h
    exact hR.account (modifyMem_keeps hQ hu (effAddr_keeps hR hr (hR.advance q _))) _
  | modifyRead =>
    obtain ⟨r, u, b, hr, hu, hb, rfl⟩ := runModifyRead_next h
    have h1 := modifyMem_keeps hQ hu (effAddr_keeps hR hr (hR.advance q _))
    exact hR.account (hR.registers (hsh _ _) (hR.read hb h1)) _
  | branch cond off =>
    cases (runBranch_eq cond off).symm.trans h
    exact hR.frame (s := s) rfl rfl q
  | jump w cyc =>
    cases (runJump_eq w cyc).symm.trans h
    exact hR.frame (s := s) rfl rfl q
  | jumpIndirect => exact runJumpIndirect_keeps hR h q
  | call =>
    obtain ⟨u, hu, rfl⟩ := runCall_next h
    exact hR.frame (s := u) rfl rfl (pushWord_keeps hQ hu (hR.advance q _))
  | unstableRead => exact runRead_keeps hR hsh (underPolicy_next h).2 q
  | unstableStore => exact runUnstableStore_keeps hQ hsh (underPolicy_next h).2 q
  | halt => cases h

/-- Every instruction keeps what bus-level reads and writes keep. -/
theorem exec_keeps (hQ : BusInvariant Q) {i : Instr} (h : exec i s = .next t) (q : Q s) : Q t :=
  Shape.run_keeps hQ (shapeOf_sound i _) (exec_eq_shape i s ▸ h) q

theorem fetch_keeps (hQ : ReadInvariant Q) {f : Fetched} (h : fetch s = .ok f) (q : Q s) : Q f.state := by
  obtain ⟨op, ho, h⟩ := bind_ok h
  have h0 := hQ.read ho q
  split at h
  · cases h; exact h0
  · obtain ⟨b1, h1, h⟩ := bind_ok h
    cases h
    exact hQ.read h1 h0
  · obtain ⟨b1, h1, h⟩ := bind_ok h
    obtain ⟨b2, h2, h⟩ := bind_ok h
    cases h
    exact hQ.read h2 (hQ.read h1 h0)

theorem fetch_sameButBus {f : Fetched} (h : fetch s = .ok f) : SameButBus s f.state := by
  obtain ⟨op, ho, h⟩ := bind_ok h
  have h0 := memRead_sameButBus ho
  split at h
  · cases h; exact h0
  · obtain ⟨b1, h1, h⟩ := bind_ok h
    cases h
    exact h0.trans (memRead_sameButBus h1)
  · obtain ⟨b1, h1, h⟩ := bind_ok h
    obtain ⟨b2, h2, h⟩ := bind_ok h
    cases h
    exact (h0.trans (memRead_sameButBus h1)).trans (memRead_sameButBus h2)

/-- The fetch of a step answers when every register holds a defined value and the fetch of R97 answers. -/
theorem stepFetch_ok {f : Fetched} : stepFetch s = .ok f ↔ s.defined = .all ∧ fetch s = .ok f := by
  unfold stepFetch
  split
  · rename_i h
    exact ⟨fun e => ⟨h, e⟩, fun e => e.2⟩
  · rename_i h
    exact ⟨nofun, fun e => absurd e.1 h⟩

/-- Once every register holds a defined value, the fetch of a step is the fetch of R97. -/
theorem stepFetch_eq (h : s.defined = .all) : stepFetch s = fetch s := if_pos h

/-- A step that answers a next state: every register held a defined value, and the fetch, the instruction and the check all
answered. -/
theorem step_next (h : step s = .next t) :
    s.defined = .all ∧ ∃ f u, fetch s = .ok f ∧ exec f.instr f.state = .next u ∧ interruptCheck u = .ok t := by
  unfold step at h
  split at h
  · cases h
  · rename_i f hf
    obtain ⟨hd, hf⟩ := stepFetch_ok.1 hf
    unfold thenCheck at h
    split at h
    · rename_i u hu
      exact ⟨hd, f, u, hf, hu, finish_next.1 h⟩
    · cases h
    · cases h

/-- A step keeps what bus-level reads and writes keep. -/
theorem step_keeps (hQ : BusInvariant Q) (h : step s = .next t) (q : Q s) : Q t := by
  obtain ⟨-, f, u, hf, hu, ht⟩ := step_next h
  exact interruptCheck_keeps hQ ht (exec_keeps hQ hu (fetch_keeps hQ.toReadInvariant hf q))

end

/-! ### What an instruction leaves untouched, and that it adds what it returns to `cycles` -/

/-- The parameters, the pending set and which registers are defined are the same, and `cycles` is up by the cost returned. -/
def Accounted (s t : State) : Prop :=
  t.params = s.params ∧ t.pending = s.pending ∧ t.defined = s.defined ∧
    t.cycles = s.cycles + BitVec.ofNat 64 t.consumed

/-- The costs a shape can have. -/
def Shape.MayCost : Shape → Nat → Prop
  | .implied cyc _, n => n = cyc
  | .stack cyc _, n => n = cyc
  | .read _ cyc pp _, n => ∃ crossed, n = Machine.cost cyc pp crossed
  | .readTwice _ cyc pp _ _, n => ∃ crossed, n = Machine.cost cyc pp crossed
  | .store _ cyc _, n => n = cyc
  | .modify _ cyc _, n => n = cyc
  | .modifyRead _ cyc _ _, n => n = cyc
  | .branch _ _, n => 2 ≤ n ∧ n ≤ 4
  | .jump _ cyc, n => n = cyc
  | .jumpIndirect _ cyc, n => n = cyc
  | .call _ cyc, n => n = cyc
  | .unstableRead _ _ cyc _, n => n = cyc
  | .unstableStore _ _ cyc _ _, n => n = cyc
  | .halt _, _ => False

theorem branchCost_bounds (taken : Bool) (e : Addr) (off : Byte) :
    2 ≤ branchCost taken e off ∧ branchCost taken e off ≤ 4 := by
  unfold branchCost
  cases taken <;> cases (hi (branchTarget e off) != hi e) <;> decide

theorem Untouched.accounted {s u : State} (h : Untouched s u) (n : Nat) : Accounted s (u.account n) := by
  refine ⟨h.1, h.2.1, h.2.2.2, ?_⟩
  show u.cycles + _ = _
  rw [h.2.2.1]; rfl

theorem runRead_accounted {s t : State} {src : Src} {cyc : Nat} {pp : Bool} {op : Byte → State → State}
    (hop : ∀ v s, RegistersOnly s (op v s)) (h : runRead src cyc pp op s = .next t) :
    Accounted s t ∧ ∃ crossed, t.consumed = cost cyc pp crossed := by
  obtain ⟨r, hr, rfl⟩ := runRead_next h
  exact ⟨((readSrc_sameButBus hr).untouched.trans (hop _ _).untouched).accounted _, r.crossed, rfl⟩

theorem Shape.run_accounted {s t : State} {sh : Shape} (hsh : sh.Sound) (h : sh.run s = .next t) :
    Accounted s t ∧ sh.MayCost t.consumed := by
  cases sh with
  | implied cyc f =>
    cases (runImplied_eq cyc f).symm.trans h
    exact ⟨(hsh (s.advance 1)).untouched.accounted _, rfl⟩
  | stack cyc f =>
    obtain ⟨u, hu, rfl⟩ := runStack_next h
    exact ⟨(hsh.frame hu).accounted _, rfl⟩
  | read => exact runRead_accounted hsh h
  | readTwice =>
    obtain ⟨r, b, c, hr, hb, hc, rfl⟩ := runReadTwice_next h
    have h1 := ((effAddr_sameButBus hr).trans (memRead_sameButBus hb)).untouched.trans (hsh.1 b.val b.state).untouched
    have h2 := (memRead_sameButBus hc).untouched.trans (hsh.2 c.val c.state).untouched
    exact ⟨(h1.trans h2).accounted _, r.crossed, rfl⟩
  | store =>
    obtain ⟨r, u, hr, hu, rfl⟩ := runStore_next h
    exact ⟨((effAddr_sameButBus hr).trans (memWrite_sameButBus hu)).untouched.accounted _, rfl⟩
  | modify =>
    obtain ⟨r, u, hr, hu, rfl⟩ := runModify_next h
    exact ⟨((effAddr_sameButBus hr).untouched.trans (modifyMem_sameButBus hu).untouched).accounted _, rfl⟩
  | modifyRead =>
    obtain ⟨r, u, b, hr, hu, hb, rfl⟩ := runModifyRead_next h
    have h1 := (effAddr_sameButBus hr).untouched.trans (modifyMem_sameButBus hu).untouched
    have h2 := (memRead_sameButBus hb).untouched.trans (hsh b.val b.state).untouched
    exact ⟨(h1.trans h2).accounted _, rfl⟩
  | branch cond off =>
    cases (runBranch_eq cond off).symm.trans h
    exact ⟨Untouched.accounted (s := s) ⟨rfl, rfl, rfl, rfl⟩ _, branchCost_bounds _ _ _⟩
  | jump w cyc =>
    cases (runJump_eq w cyc).symm.trans h
    exact ⟨Untouched.accounted (s := s) ⟨rfl, rfl, rfl, rfl⟩ _, rfl⟩
  | jumpIndirect =>
    obtain ⟨r, hr, rfl⟩ := runJumpIndirect_next h
    exact ⟨Untouched.accounted (s := s) (indirectTarget_sameButBus hr).untouched _, rfl⟩
  | call =>
    obtain ⟨u, hu, rfl⟩ := runCall_next h
    exact ⟨Untouched.accounted (s := s) (pushWord_sameButBus hu).untouched _, rfl⟩
  | unstableRead =>
    obtain ⟨h1, c, hc⟩ := runRead_accounted hsh (underPolicy_next h).2
    exact ⟨h1, by cases c <;> exact hc⟩
  | unstableStore =>
    obtain ⟨r, u, hr, hu, rfl⟩ := runUnstableStore_next (underPolicy_next h).2
    have h1 := (effAddr_sameButBus hr).untouched.trans (hsh r.state).untouched
    exact ⟨(h1.trans (memWrite_sameButBus hu).untouched).accounted _, rfl⟩
  | halt => cases h

/-- An instruction changes neither the parameters nor the pending set nor which registers are defined, and adds its cost to
`cycles`. -/
theorem exec_accounted {i : Instr} {s t : State} (h : exec i s = .next t) :
    Accounted s t ∧ (shapeOf i i.mnemonic).MayCost t.consumed :=
  Shape.run_accounted (shapeOf_sound i _) (exec_eq_shape i s ▸ h)

/-- A step runs only where every register holds a defined value, and leaves it so. -/
theorem step_defined {s t : State} (h : step s = .next t) : s.defined = .all ∧ t.defined = .all := by
  obtain ⟨hd, f, u, hf, hu, ht⟩ := step_next h
  exact ⟨hd, interruptCheck_defined ht ((exec_accounted hu).1.2.2.1.trans ((fetch_sameButBus hf).defined_eq.trans hd))⟩

end Sys2Proof.Machine
end

