-- ==== Sys2Proof/Laws/Families.lean ====
section
/-!
SUPPORT. From the shape of an instruction to the terms of Sys2Proof/Safety.lean: the operand the matrix gives an instruction,
and one lemma per term.
-/

namespace Sys2Proof.Machine

/-! ### The operand of an instruction -/

theorem mode_memOperand_len {m : Mode} {op : Operand} {o : MemOperand} (h : m.memOperand op = some o) :
    o.len = 1 + m.operandBytes := by
  cases m <;> cases op <;> first | (cases h; rfl) | cases h

theorem memOperand_len {i : Instr} {o : MemOperand} (h : i.memOperand = some o) : o.len = i.row.len :=
  mode_memOperand_len h

theorem src_len {i : Instr} {src : Src} (h : i.src = some src) : src.len = i.row.len := by
  unfold Instr.src at h
  unfold Row.len
  generalize i.row.mode = m at h ⊢
  generalize i.operand = op at h
  cases m <;> cases op <;> first | (cases h; rfl) | cases h

theorem operand_bytes (i : Instr) : i.operand.bytes.length = i.row.mode.operandBytes := by
  cases i <;> rfl

theorem memOperand_isSome {i : Instr} (h : i.row.mode ∉ [.imp, .acc, .imm, .rel, .ind]) : ∃ o, i.memOperand = some o := by
  have hb := operand_bytes i
  unfold Instr.memOperand
  generalize i.row.mode = m at h hb ⊢
  generalize i.operand = op at hb ⊢
  cases m <;> first | (exfalso; revert h; decide) | (cases op <;> first | exact ⟨_, rfl⟩ | cases hb)

theorem src_isSome {i : Instr} (h : i.row.mode ∉ [.imp, .acc, .rel, .ind]) : ∃ src, i.src = some src := by
  have hb := operand_bytes i
  unfold Instr.src
  generalize i.row.mode = m at h hb ⊢
  generalize i.operand = op at hb ⊢
  cases m <;> first | (exfalso; revert h; decide) | (cases op <;> first | exact ⟨_, rfl⟩ | cases hb)

theorem src_eq_none {i : Instr} (h : i.row.mode = .imp) : i.src = none := by
  unfold Instr.src Mode.memOperand
  rw [h]
  rfl

theorem memOperand_eq_none {i : Instr} (h : i.row.mode = .acc) : i.memOperand = none := by
  unfold Instr.memOperand Mode.memOperand
  rw [h]

theorem offset_isSome {i : Instr} (h : i.row.mode = .rel) : ∃ off, i.offset = some off := by
  have hb := operand_bytes i
  unfold Instr.offset
  rw [h] at hb ⊢
  cases hop : i.operand <;> rw [hop] at hb <;> first | exact ⟨_, rfl⟩ | cases hb

/-! ### Each term, from the shape -/

section
variable {m : Mnemonic}

theorem actsImplied_of {op op' : State → State}
    (hsh : ∀ i : Instr, i.row.mode = .imp → shapeOf i m = .implied i.row.cyc op) (hop : ∀ s, op s = op' s) :
    ActsImplied m op' := by
  intro i s hi hmode
  rw [exec_eq_shape, hi, hsh i hmode, ← hop]
  rfl

theorem actsOnOperand_of {op op' : Byte → State → State}
    (hm : ∀ b : Byte, (rowOf b).mnemonic = m → (rowOf b).mode ∉ [.acc, .rel, .ind])
    (hsh : ∀ i : Instr, shapeOf i m = readShape i op) (hop : ∀ v s, op v s = op' v s) : ActsOnOperand m op' := by
  intro i s hi hmode hs
  have hmem := hm i.opcode hi
  obtain ⟨src, hsrc⟩ := src_isSome (i := i) (by
    intro h
    rcases List.mem_cons.1 h with h | h
    · exact hmode h
    · exact hmem h)
  obtain ⟨r, hr, -⟩ := readSrc_completes (s := s.advance i.row.len) (hs.of_eq rfl rfl) src
  refine ⟨src, r, hsrc, hr, ?_⟩
  rw [exec_eq_shape, hi, hsh, readShape, hsrc, ← hop]
  simp only [Shape.run, runRead, src_len hsrc, hr, ok_bind]
  rfl

theorem endsOnOperand_of {op : Byte → State → State} {outcome : Byte → State → State → Prop}
    (hm : ∀ b : Byte, (rowOf b).mnemonic = m → (rowOf b).mode ∉ [.imp, .acc, .rel, .ind])
    (hsh : ∀ i : Instr, shapeOf i m = readShape i op) (hop : ∀ v s, outcome v s (op v s)) : EndsOnOperand m outcome := by
  intro i s hi hs
  obtain ⟨src, hsrc⟩ := src_isSome (hm i.opcode hi)
  obtain ⟨r, hr, -⟩ := readSrc_completes (s := s.advance i.row.len) (hs.of_eq rfl rfl) src
  refine ⟨src, r, _, hsrc, hr, hop _ _, ?_⟩
  rw [exec_eq_shape, hi, hsh, readShape, hsrc]
  simp only [Shape.run, runRead, src_len hsrc, hr, ok_bind]
  rfl

theorem actsByStoring_of {val val' : State → Byte}
    (hm : ∀ b : Byte, (rowOf b).mnemonic = m → (rowOf b).mode ∉ [.imp, .acc, .imm, .rel, .ind])
    (hsh : ∀ i : Instr, shapeOf i m = storeShape i val)
    (hv : ∀ {s t : State} (n : Nat), SameButBus (s.advance n) t → val t = val' s) : ActsByStoring m val' := by
  intro i s hi hs
  obtain ⟨o, ho⟩ := memOperand_isSome (hm i.opcode hi)
  obtain ⟨r, hr, mr⟩ := effAddr_completes (s := s.advance i.row.len) (hs.of_eq rfl rfl) o
  have h1 := effAddr_sameButBus hr
  obtain ⟨t, ht, -⟩ := memWrite_completes mr r.ea (val r.state)
  refine ⟨o, r, t, ho, hr, hv _ h1 ▸ ht, h1.trans (memWrite_sameButBus ht), ?_⟩
  rw [exec_eq_shape, hi, hsh, storeShape, ho]
  simp only [Shape.run, runStore, memOperand_len ho, hr, ok_bind, ht]
  rfl

theorem modifiesAccumulator_of {f f' : Modify} (hsh : ∀ i : Instr, shapeOf i m = modifyShape i f)
    (hf : ∀ v p, f v p = f' v p) : ModifiesAccumulator m f' := by
  intro i s hi hmode
  rw [exec_eq_shape, hi, hsh, modifyShape, memOperand_eq_none hmode, ← hf]
  rfl

/-- What a read-modify-write does where every address is mapped. -/
theorem modifyMem_steps {f : Modify} {ea : Addr} {s : State} (hs : s.FullyMapped) :
    ∃ old t u, memRead s ea = .ok old ∧ memWrite old.state ea old.val = .ok t ∧
      memWrite t ea (f old.val s.p).1 = .ok u ∧ modifyMem f ea s = .ok (u.withFlags (f old.val s.p).2) ∧ u.FullyMapped := by
  obtain ⟨old, ho, mo⟩ := memRead_completes hs ea
  obtain ⟨t, ht, mt⟩ := memWrite_completes mo ea old.val
  obtain ⟨u, hu, mu⟩ := memWrite_completes mt ea (f old.val s.p).1
  exact ⟨old, t, u, ho, ht, hu, (bind_of_ok ho).trans ((bind_of_ok ht).trans (bind_of_ok hu)), mu⟩

theorem modifiesMemory_of {f f' : Modify}
    (hm : ∀ b : Byte, (rowOf b).mnemonic = m → (rowOf b).mode ∉ [.imp, .imm, .rel, .ind])
    (hsh : ∀ i : Instr, shapeOf i m = modifyShape i f) (hf : ∀ v p, f v p = f' v p) : ModifiesMemory m f' := by
  intro i s hi hmode hs
  have hmem := hm i.opcode hi
  obtain ⟨o, ho⟩ := memOperand_isSome (i := i) (by
    change i.row.mode ∉ _ at hmem
    intro h
    simp only [List.mem_cons, List.not_mem_nil, or_false] at h hmem
    tauto)
  obtain ⟨r, hr, mr⟩ := effAddr_completes (s := s.advance i.row.len) (hs.of_eq rfl rfl) o
  obtain ⟨old, t, u, h1, h2, h3, h4, -⟩ := modifyMem_steps (f := f) (ea := r.ea) mr
  have hp : r.state.p = s.p := (effAddr_sameButBus hr).p_eq
  rw [hp, hf] at h3 h4
  refine ⟨o, r, old, t, u, ho, hr, h1, h2, h3, ?_⟩
  rw [exec_eq_shape, hi, hsh, modifyShape, ho]
  simp only [Shape.run, runModify, memOperand_len ho, hr, ok_bind, h4]
  rfl

theorem modifiesThenActs_of {f f' : Modify} {op : Byte → State → State} {outcome : Byte → State → State → Prop}
    (hm : ∀ b : Byte, (rowOf b).mnemonic = m → (rowOf b).mode ∉ [.imp, .acc, .imm, .rel, .ind])
    (hsh : ∀ i : Instr, shapeOf i m = modifyReadShape i f op) (hf : ∀ v p, f v p = f' v p)
    (hop : ∀ v s, outcome v s (op v s)) : ModifiesThenActs m f' outcome := by
  intro i s hi hs
  obtain ⟨o, ho⟩ := memOperand_isSome (hm i.opcode hi)
  obtain ⟨r, hr, mr⟩ := effAddr_completes (s := s.advance i.row.len) (hs.of_eq rfl rfl) o
  obtain ⟨old, t, u, h1, h2, h3, h4, mu⟩ := modifyMem_steps (f := f) (ea := r.ea) mr
  have hp : r.state.p = s.p := (effAddr_sameButBus hr).p_eq
  rw [hp, hf] at h3 h4
  obtain ⟨again, ha, -⟩ := memRead_completes (s := u.withFlags (f' old.val s.p).2) (mu.of_eq rfl rfl) r.ea
  refine ⟨o, r, old, t, u, again, _, ho, hr, h1, h2, h3, ha, hop _ _, ?_⟩
  rw [exec_eq_shape, hi, hsh, modifyReadShape, ho]
  simp only [Shape.run, runModifyRead, memOperand_len ho, hr, ok_bind, h4, ha]
  rfl

theorem branchesOn_of {cond : Flags → Bool} (hm : ∀ b : Byte, (rowOf b).mnemonic = m → (rowOf b).mode = .rel)
    (hsh : ∀ i : Instr, shapeOf i m = branchShape i cond) : BranchesOn m cond := by
  intro i s him
  obtain ⟨off, ho⟩ := offset_isSome (hm i.opcode him)
  have h : exec i s = .next (({ s with pc := if cond s.p then branchTarget (s.pc + 2) off else s.pc + 2 } : State).account
        (branchCost (cond s.p) (s.pc + 2) off)) := by
    rw [exec_eq_shape, him, hsh, branchShape, ho]
    rfl
  refine ⟨off, ho, ?_, ?_, ?_⟩
  · intro hc
    rw [h, hc]
    rfl
  · intro hc hpage
    have : branchCost true (s.pc + 2) off = 3 := by
      show 2 + 1 + bit (hi (branchTarget (s.pc + 2) off) != hi (s.pc + 2)) = 3
      rw [show hi (branchTarget (s.pc + 2) off) = hi (s.pc + 2) from hpage]
      simp [bit]
    rw [h, hc, this]
    rfl
  · intro hc hpage
    have : branchCost true (s.pc + 2) off = 4 := by
      show 2 + 1 + bit (hi (branchTarget (s.pc + 2) off) != hi (s.pc + 2)) = 4
      rw [bne_iff_ne.2 (show hi (branchTarget (s.pc + 2) off) ≠ hi (s.pc + 2) from hpage)]
      rfl
    rw [h, hc, this]
    rfl

theorem actsByUnstableStore_of {before : State → State} {reg : State → Byte}
    (hm : ∀ b : Byte, (rowOf b).mnemonic = m → (rowOf b).mode ∉ [.imp, .acc, .imm, .rel, .ind])
    (hsh : ∀ i : Instr, shapeOf i m = unstableStoreShape i before reg)
    (hbus : ∀ s, RegistersOnly s (before s))
    (hreg : ∀ {s t : State} (n : Nat), SameButBus (s.advance n) t → reg (before t) = reg (before s)) :
    ActsByUnstableStore m before reg := by
  intro i s hi hx hs
  obtain ⟨o, ho⟩ := memOperand_isSome (hm i.opcode hi)
  obtain ⟨r, hr, mr⟩ := effAddr_completes (s := s.advance i.row.len) (hs.of_eq rfl rfl) o
  have h1 := effAddr_sameButBus hr
  obtain ⟨t, ht, -⟩ := memWrite_completes (s := before r.state) (mr.of_eq (hbus _).regions_eq (hbus _).mapOrder_eq)
    (unstableStore (reg (before r.state)) r.ea r.crossed).2 (unstableStore (reg (before r.state)) r.ea r.crossed).1
  refine ⟨o, r, t, ho, hr, ?_, ?_⟩
  · rw [hreg _ h1] at ht
    rw [← ht]
    cases r.crossed <;> simp [unstableStore, bit]
  · rw [exec_eq_shape, hi, hsh, unstableStoreShape, ho]
    simp only [Shape.run, underPolicy, hx, runUnstableStore, memOperand_len ho, hr, ok_bind, ht]
    cases r.crossed <;> rfl

end

end Sys2Proof.Machine
end

