-- ==== Sys2Proof/Laws/Frame.lean ====
section
/-!
SUPPORT. What accesses leave alone: the bytes of RAM and ROM outside the address written, the kinds, the dispatch order; and
that every bus operation keeps the bus well formed.
-/

namespace Sys2Proof.Machine

/-! ### Regions and addresses -/

/-- Two regions that answer, with one identifier, are one region. -/
theorem responsible_inj {s : State} {a b : Addr} {r g : Region} (hr : s.responsible a = some r)
    (hg : s.responsible b = some g) (h : r.id = g.id) : r = g := by
  have h1 := (responsible_some hr).1
  have h2 := (responsible_some hg).1
  rw [h] at h1
  exact Option.some.inj (h1.symm.trans h2)

theorem holds_iff {q : AddressRange} {a : Addr} :
    q.holds a = true ↔ q.start ≤ a.toNat ∧ a.toNat < q.start + q.size := by
  simp [AddressRange.holds]

/-- In one region two addresses have two offsets. -/
theorem offset_inj {g : Region} {a b : Addr} (ha : g.range.holds a = true) (hb : g.range.holds b = true)
    (h : g.offset a = g.offset b) : a = b := by
  have ha := holds_iff.1 ha
  have hb := holds_iff.1 hb
  unfold Region.offset at h
  exact BitVec.eq_of_toNat_eq (by omega)

theorem responsible_setBacking_eq {s : State} {a : Addr} {g r : Region} {b : Backing}
    (hr : s.responsible a = some r) :
    (s.setBacking g.id b).responsible a = some (if r.id = g.id then { r with backing := b } else r) := by
  rw [responsible_setBacking, hr]
  rfl

theorem kindAt_of_responsible {s : State} {a : Addr} {r : Region} (h : s.responsible a = some r) :
    s.kindAt a = some r.kind := by
  unfold State.kindAt
  rw [h]
  rfl

theorem kindAt_congr {s t : State} (hr : t.regions = s.regions) (hm : t.mapOrder = s.mapOrder) (a : Addr) :
    t.kindAt a = s.kindAt a := by
  unfold State.kindAt
  rw [responsible_congr hr hm]

theorem diagRead_congr {s t : State} (hr : t.regions = s.regions) (hm : t.mapOrder = s.mapOrder) (a : Addr) :
    diagRead t a = diagRead s a := by
  unfold diagRead
  rw [responsible_congr hr hm]

/-- Replacing storage by storage of its kind changes no kind. -/
theorem kindAt_setBacking {s : State} {w : Addr} {g : Region} {b : Backing} (hg : s.responsible w = some g)
    (hb : b.kind = g.kind) (a : Addr) : (s.setBacking g.id b).kindAt a = s.kindAt a := by
  cases hr : s.responsible a with
  | none =>
    have : (s.setBacking g.id b).responsible a = none := by rw [responsible_setBacking, hr]; rfl
    simp [State.kindAt, this, hr]
  | some r =>
    rw [kindAt_of_responsible hr, kindAt_of_responsible (responsible_setBacking_eq (g := g) (b := b) hr)]
    split
    · rename_i h
      rw [responsible_inj hr hg h]
      exact congrArg some hb
    · rfl

/-- A diagnostic read through another region's storage. -/
theorem diagRead_setBacking_other {s : State} {a : Addr} {g : Region} {b : Backing}
    (h : ∀ r, s.responsible a = some r → r.id ≠ g.id) : diagRead (s.setBacking g.id b) a = diagRead s a := by
  cases hr : s.responsible a with
  | none =>
    have : (s.setBacking g.id b).responsible a = none := by rw [responsible_setBacking, hr]; rfl
    unfold diagRead
    rw [this, hr]
  | some r =>
    have := responsible_setBacking_eq (g := g) (b := b) hr
    rw [if_neg (h r hr)] at this
    unfold diagRead
    rw [this, hr]

theorem plainAt_congr {s t : State} {a : Addr} (h : t.kindAt a = s.kindAt a) : t.PlainAt a ↔ s.PlainAt a := by
  unfold State.PlainAt
  rw [h]

theorem plainAt_kind {s : State} {a : Addr} {r : Region} (h : s.responsible a = some r) : s.PlainAt a ↔ r.kind ≠ .io := by
  unfold State.PlainAt
  rw [kindAt_of_responsible h]
  cases r.kind <;> simp

theorem plainAt_responsible {s : State} {a : Addr} (h : s.PlainAt a) : ∃ r, s.responsible a = some r := by
  unfold State.PlainAt State.kindAt at h
  cases hr : s.responsible a with
  | none => rw [hr] at h; simp at h
  | some r => exact ⟨r, rfl⟩

/-- A bus-level read of RAM or ROM is a diagnostic read, and changes nothing. -/
theorem memRead_plain {s : State} {a : Addr} {r : BusRead} (hp : s.PlainAt a) (h : memRead s a = .ok r) :
    r.state = s ∧ diagRead s a = .ok r.val := by
  obtain ⟨g, hg, ⟨-, hs, hd⟩ | ⟨hist, hb, -, -⟩⟩ := memRead_ok h
  · exact ⟨hs, hd⟩
  · exact absurd (by simp [Region.kind, Backing.kind, hb]) ((plainAt_kind hg).1 hp)

theorem memRead_of_diagRead {s : State} {a : Addr} {v : Byte} (hp : s.PlainAt a) (h : diagRead s a = .ok v) :
    memRead s a = .ok { val := v, state := s } := by
  obtain ⟨g, hg⟩ := plainAt_responsible hp
  obtain ⟨r, hr⟩ := memRead_of_responsible (s := s) (a := a) (by rw [hg]; rfl)
  obtain ⟨h1, h2⟩ := memRead_plain hp hr
  rw [h] at h2
  cases r
  cases h1
  cases h2
  exact hr

/-! ### Frames -/

/-- From `s` to `t` the dispatch order and every kind are the same, and so is every byte of RAM and ROM outside `slots`. -/
def FrameOutside (slots : List Addr) (s t : State) : Prop :=
  t.mapOrder = s.mapOrder ∧
    ∀ a : Addr, t.kindAt a = s.kindAt a ∧ (a ∉ slots → s.PlainAt a → diagRead t a = diagRead s a)

theorem FrameOutside.of_bus_eq {slots : List Addr} {s t : State} (hr : t.regions = s.regions)
    (hm : t.mapOrder = s.mapOrder) : FrameOutside slots s t :=
  ⟨hm, fun a => ⟨kindAt_congr hr hm a, fun _ _ => diagRead_congr hr hm a⟩⟩

theorem FrameOutside.trans {slots : List Addr} {s t u : State} (h : FrameOutside slots s t) (k : FrameOutside slots t u) :
    FrameOutside slots s u := by
  refine ⟨k.1.trans h.1, fun a => ⟨(k.2 a).1.trans (h.2 a).1, fun ha hp => ?_⟩⟩
  rw [(k.2 a).2 ha ((plainAt_congr (h.2 a).1).2 hp), (h.2 a).2 ha hp]

theorem FrameOutside.mono {slots more : List Addr} {s t : State} (h : FrameOutside slots s t) (hs : ∀ a ∈ slots, a ∈ more) :
    FrameOutside more s t :=
  ⟨h.1, fun a => ⟨(h.2 a).1, fun ha hp => (h.2 a).2 (fun hm => ha (hs a hm)) hp⟩⟩

theorem FrameOutside.plain {slots : List Addr} {s t : State} (h : FrameOutside slots s t) {a : Addr} (ha : a ∉ slots)
    (hp : s.PlainAt a) : t.PlainAt a ∧ diagRead t a = diagRead s a :=
  ⟨(plainAt_congr (h.2 a).1).2 hp, (h.2 a).2 ha hp⟩

/-- A bus-level read changes no byte of RAM or ROM. -/
theorem memRead_frame {s : State} {a : Addr} {r : BusRead} (h : memRead s a = .ok r) (slots : List Addr) :
    FrameOutside slots s r.state := by
  obtain ⟨g, hg, ⟨-, hs, -⟩ | ⟨hist, hb, -, hs⟩⟩ := memRead_ok h <;> rw [hs]
  · exact .of_bus_eq rfl rfl
  · have hk : (Backing.io (.read (g.offset a) :: hist)).kind = g.kind := by simp [Region.kind, Backing.kind, hb]
    refine ⟨rfl, fun b => ⟨kindAt_setBacking hg hk b, fun _ hp => diagRead_setBacking_other fun r hr hid => ?_⟩⟩
    have := responsible_inj hr hg hid
    subst this
    exact (plainAt_kind hr).1 hp (by simp [Region.kind, Backing.kind, hb])

/-- What a bus-level write to RAM or ROM leaves alone: every other byte. -/
theorem memWrite_frame {s t : State} {w : Addr} {v : Byte} (h : memWrite s w v = .ok t) (hk : s.kindAt w ≠ some .io) :
    FrameOutside [w] s t := by
  obtain ⟨g, hg, ⟨m, hb, rfl⟩ | ⟨m, -, rfl⟩ | ⟨hist, hb, -⟩⟩ := memWrite_ok h
  · have hkind : (Backing.ram (Memory.write m (g.offset w) v)).kind = g.kind := by simp [Region.kind, Backing.kind, hb]
    refine ⟨rfl, fun a => ⟨kindAt_setBacking hg hkind a, fun ha _ => ?_⟩⟩
    cases hr : s.responsible a with
    | none =>
      refine diagRead_setBacking_other fun r h => ?_
      rw [hr] at h
      cases h
    | some r =>
      by_cases hid : r.id = g.id
      · have := responsible_inj hr hg hid
        subst this
        have e := responsible_setBacking_eq (g := r) (b := .ram (Memory.write m (r.offset w) v)) hr
        rw [if_pos rfl] at e
        have hne : r.offset a ≠ r.offset w := fun he =>
          ha (List.mem_singleton.2 (offset_inj (responsible_some hr).2.2 (responsible_some hg).2.2 he))
        unfold diagRead
        rw [e, hr]
        simp only [hb]
        exact congrArg Except.ok (Memory.read_write_other m _ _ v hne)
      · exact diagRead_setBacking_other fun r' h => by rw [hr] at h; cases h; exact hid
  · exact .of_bus_eq rfl rfl
  · exact absurd (by rw [kindAt_of_responsible hg]; simp [Region.kind, Backing.kind, hb]) hk

theorem memReadWord_frame {s : State} {a : Addr} {r : WordRead} (h : memReadWord s a = .ok r) (slots : List Addr) :
    FrameOutside slots s r.state := by
  obtain ⟨l, g, hl, hg, rfl⟩ := memReadWord_ok h
  exact (memRead_frame hl slots).trans (memRead_frame hg slots)

/-- A push to a slot of RAM or ROM changes that slot at most. -/
theorem push_frame {s t : State} {v : Byte} (h : push s v = .ok t) (hk : s.kindAt s.stackAddr ≠ some .io) :
    FrameOutside [s.stackAddr] s t := by
  obtain ⟨u, hu, rfl⟩ := push_ok h
  exact (memWrite_frame hu hk).trans (.of_bus_eq rfl rfl)

theorem pull_frame {s : State} {r : BusRead} (h : pull s = .ok r) (slots : List Addr) : FrameOutside slots s r.state :=
  (FrameOutside.of_bus_eq (s := s) (t := { s with sp := s.sp + 1 }) rfl rfl).trans (memRead_frame h slots)

theorem effAddr_frame {o : MemOperand} {s : State} {r : Resolved} (h : effAddr o s = .ok r) (slots : List Addr) :
    FrameOutside slots s r.state := by
  obtain h | ⟨b, p, hp, h⟩ := effAddr_ok h
  · rw [h]; exact .of_bus_eq rfl rfl
  · obtain ⟨l, g, hl, hg, rfl⟩ := zeroPagePointer_ok hp
    rw [h]
    exact (memRead_frame hl slots).trans (memRead_frame hg slots)

/-- A read-modify-write of RAM or ROM changes that byte at most. -/
theorem modifyMem_frame {f : Modify} {ea : Addr} {s t : State} (h : modifyMem f ea s = .ok t) (hk : s.kindAt ea ≠ some .io) :
    FrameOutside [ea] s t := by
  obtain ⟨old, v, u, ho, hv, hu, rfl⟩ := modifyMem_ok h
  have h1 := memRead_frame ho [ea]
  have h2 := memWrite_frame hv (by rw [(h1.2 ea).1]; exact hk)
  have h3 := memWrite_frame hu (by rw [(h2.2 ea).1, (h1.2 ea).1]; exact hk)
  exact (((h1.trans h2).trans h3)).trans (.of_bus_eq rfl rfl)

/-- To be framed from a state is kept by bus-level reads. -/
theorem frame_readInvariant (s : State) (slots : List Addr) : ReadInvariant (FrameOutside slots s) where
  frame := fun hr hm h => h.trans (.of_bus_eq hr hm)
  read := fun h q => q.trans (memRead_frame h slots)

/-! ### A write is read back -/

/-- What the write to RAM puts there: on a well-formed bus the byte is read back. -/
theorem memWrite_ram {s : State} {a : Addr} (v : Byte) (hw : s.busWf = true) (hk : s.kindAt a = some .ram) :
    ∃ t, memWrite s a v = .ok t ∧ t.kindAt a = some .ram ∧ diagRead t a = .ok v := by
  obtain ⟨g, hg⟩ := plainAt_responsible (.inl hk)
  have hgk := kindAt_of_responsible hg
  rw [hk] at hgk
  cases hb : g.backing with
  | ram m =>
    have hwf : m.wf = true := by
      simp only [State.busWf, Bool.and_eq_true, List.all_eq_true] at hw
      have := hw.1.1.2 g (lookupRegion_mem (responsible_some hg).1)
      simp only [Region.wf, Backing.wf, hb, Bool.and_eq_true] at this
      exact this.2.1
    refine ⟨s.setBacking g.id (.ram (m.write (g.offset a) v)), ?_, ?_, ?_⟩
    · simp [memWrite, hg, hb]
    · rw [kindAt_setBacking hg (by simp [Region.kind, Backing.kind, hb]) a]
      exact hk
    · have e := responsible_setBacking_eq (g := g) (b := .ram (m.write (g.offset a) v)) hg
      rw [if_pos rfl] at e
      unfold diagRead
      rw [e]
      exact congrArg Except.ok (Memory.read_write_same hwf _ v)
  | rom m => simp [Region.kind, Backing.kind, hb] at hgk
  | io h => simp [Region.kind, Backing.kind, hb] at hgk

/-! ### The bus stays well formed -/

theorem replaceBacking_ids (rs : List Region) (i : Nat) (b : Backing) :
    (replaceBacking rs i b).map Region.id = rs.map Region.id := by
  unfold replaceBacking
  rw [List.map_map]
  exact List.map_congr_left fun r _ => Region.replaced_id i b r

theorem busWf_iff (s : State) :
    s.busWf = true ↔
      (s.regions.map Region.id).Nodup ∧ (∀ r ∈ s.regions, r.wf = true) ∧ s.mapOrder.Nodup ∧
        ∀ i ∈ s.mapOrder, (lookupRegion s.regions i).isSome = true := by
  simp [State.busWf, List.all_eq_true, and_assoc]

/-- Replacing one region's storage by well-formed storage keeps the bus well formed. -/
theorem busWf_setBacking {s : State} {g : Region} {b : Backing} (hw : s.busWf = true)
    (hg : lookupRegion s.regions g.id = some g) (hb : b.wf g.range.size = true) : (s.setBacking g.id b).busWf = true := by
  rw [busWf_iff] at hw ⊢
  obtain ⟨h1, h2, h3, h4⟩ := hw
  refine ⟨?_, ?_, h3, ?_⟩
  · show ((replaceBacking s.regions g.id b).map Region.id).Nodup
    rw [replaceBacking_ids]
    exact h1
  · intro r hr
    obtain ⟨q, hq, rfl⟩ := List.mem_map.1 hr
    unfold Region.replaced
    split
    · rename_i hid
      have : q = g := List.inj_on_of_nodup_map h1 hq (lookupRegion_mem hg) hid
      subst this
      have := h2 q hq
      simp only [Region.wf, Bool.and_eq_true] at this ⊢
      exact ⟨this.1, hb⟩
    · exact h2 q hq
  · intro i hi
    show (lookupRegion (replaceBacking s.regions g.id b) i).isSome = true
    rw [lookupRegion_replace, Option.isSome_map]
    exact h4 i hi

/-- Every bus-level read and write, and every remap, keeps the bus well formed. -/
theorem busWf_invariant : BusInvariant fun s => s.busWf = true := by
  apply BusInvariant.of_parts
  · intro s t hr hm h
    unfold State.busWf at *
    rw [hr, hm]
    exact h
  · intro s g m a v hg hb hw
    have hl := (responsible_some hg).1
    have hr := ((busWf_iff s).1 hw).2.1 g (lookupRegion_mem hl)
    simp only [Region.wf, Backing.wf, hb, Bool.and_eq_true] at hr
    refine busWf_setBacking hw hl ?_
    simp only [Backing.wf, Bool.and_eq_true]
    have hh := holds_iff.1 (responsible_some hg).2.2
    exact ⟨Memory.write_wf hr.2.1, Memory.write_within (by unfold Region.offset; omega) hr.2.2⟩
  · intro s g hist a e hg hb hw
    exact busWf_setBacking hw (responsible_some hg).1 rfl
  · intro s i g hg hw
    rw [busWf_iff] at hw ⊢
    obtain ⟨h1, h2, h3, h4⟩ := hw
    refine ⟨h1, h2, ?_, ?_⟩
    · show (bringToFront i s.mapOrder).Nodup
      unfold bringToFront
      refine List.nodup_cons.2 ⟨?_, h3.filter _⟩
      simp
    · intro j hj
      rcases (mem_bringToFront i j _).1 hj with rfl | hj
      · show (lookupRegion s.regions j).isSome = true
        rw [hg]; rfl
      · exact h4 j hj

/-- The memory of the state after reset is in canonical form. -/
theorem reset_busWf : State.reset.busWf = true := by decide

end Sys2Proof.Machine
end

