-- ==== Sys2Proof/Laws/PerInstr.lean ====
section
/-!
SUPPORT. One statement about each instruction as syntax: it is well formed, its encoding has the length the matrix gives its
row (R90, R95), and its opcode with its operand bytes builds it again (R91, R93, R94).
-/

namespace Sys2Proof.Laws.OpcodeRow

/-- An instruction is well formed, as long as its row says, and is what its own bytes stand for. -/
def Statement (i : Instr) : Prop :=
  i.wf = true ∧ (encode i).length = i.row.len ∧
    instrOf i.opcode (i.operand.bytes.getD 0 0) (i.operand.bytes.getD 1 0) = i

theorem brk : Statement .brk := ⟨rfl, rfl, rfl⟩

theorem oraIzx (b : Byte) : Statement (.oraIzx b) := ⟨rfl, rfl, rfl⟩

theorem jam02 : Statement .jam02 := ⟨rfl, rfl, rfl⟩

theorem sloIzx (b : Byte) : Statement (.sloIzx b) := ⟨rfl, rfl, rfl⟩

theorem nopZp04 (b : Byte) : Statement (.nopZp04 b) := ⟨rfl, rfl, rfl⟩

theorem oraZp (b : Byte) : Statement (.oraZp b) := ⟨rfl, rfl, rfl⟩

theorem aslZp (b : Byte) : Statement (.aslZp b) := ⟨rfl, rfl, rfl⟩

theorem sloZp (b : Byte) : Statement (.sloZp b) := ⟨rfl, rfl, rfl⟩

theorem php : Statement .php := ⟨rfl, rfl, rfl⟩

theorem oraImm (b : Byte) : Statement (.oraImm b) := ⟨rfl, rfl, rfl⟩

theorem aslAcc : Statement .aslAcc := ⟨rfl, rfl, rfl⟩

theorem ancImm0B (b : Byte) : Statement (.ancImm0B b) := ⟨rfl, rfl, rfl⟩

theorem nopAbs (w : Addr) : Statement (.nopAbs w) := ⟨rfl, rfl, congrArg Instr.nopAbs (Machine.wordOf_hi_lo w)⟩

theorem oraAbs (w : Addr) : Statement (.oraAbs w) := ⟨rfl, rfl, congrArg Instr.oraAbs (Machine.wordOf_hi_lo w)⟩

theorem aslAbs (w : Addr) : Statement (.aslAbs w) := ⟨rfl, rfl, congrArg Instr.aslAbs (Machine.wordOf_hi_lo w)⟩

theorem sloAbs (w : Addr) : Statement (.sloAbs w) := ⟨rfl, rfl, congrArg Instr.sloAbs (Machine.wordOf_hi_lo w)⟩

theorem bpl (b : Byte) : Statement (.bpl b) := ⟨rfl, rfl, rfl⟩

theorem oraIzy (b : Byte) : Statement (.oraIzy b) := ⟨rfl, rfl, rfl⟩

theorem jam12 : Statement .jam12 := ⟨rfl, rfl, rfl⟩

theorem sloIzy (b : Byte) : Statement (.sloIzy b) := ⟨rfl, rfl, rfl⟩

theorem nopZpx14 (b : Byte) : Statement (.nopZpx14 b) := ⟨rfl, rfl, rfl⟩

theorem oraZpx (b : Byte) : Statement (.oraZpx b) := ⟨rfl, rfl, rfl⟩

theorem aslZpx (b : Byte) : Statement (.aslZpx b) := ⟨rfl, rfl, rfl⟩

theorem sloZpx (b : Byte) : Statement (.sloZpx b) := ⟨rfl, rfl, rfl⟩

theorem clc : Statement .clc := ⟨rfl, rfl, rfl⟩

theorem oraAby (w : Addr) : Statement (.oraAby w) := ⟨rfl, rfl, congrArg Instr.oraAby (Machine.wordOf_hi_lo w)⟩

theorem nop1A : Statement .nop1A := ⟨rfl, rfl, rfl⟩

theorem sloAby (w : Addr) : Statement (.sloAby w) := ⟨rfl, rfl, congrArg Instr.sloAby (Machine.wordOf_hi_lo w)⟩

theorem nopAbx1C (w : Addr) : Statement (.nopAbx1C w) := ⟨rfl, rfl, congrArg Instr.nopAbx1C (Machine.wordOf_hi_lo w)⟩

theorem oraAbx (w : Addr) : Statement (.oraAbx w) := ⟨rfl, rfl, congrArg Instr.oraAbx (Machine.wordOf_hi_lo w)⟩

theorem aslAbx (w : Addr) : Statement (.aslAbx w) := ⟨rfl, rfl, congrArg Instr.aslAbx (Machine.wordOf_hi_lo w)⟩

theorem sloAbx (w : Addr) : Statement (.sloAbx w) := ⟨rfl, rfl, congrArg Instr.sloAbx (Machine.wordOf_hi_lo w)⟩

theorem jsrAbs (w : Addr) : Statement (.jsrAbs w) := ⟨rfl, rfl, congrArg Instr.jsrAbs (Machine.wordOf_hi_lo w)⟩

theorem andIzx (b : Byte) : Statement (.andIzx b) := ⟨rfl, rfl, rfl⟩

theorem jam22 : Statement .jam22 := ⟨rfl, rfl, rfl⟩

theorem rlaIzx (b : Byte) : Statement (.rlaIzx b) := ⟨rfl, rfl, rfl⟩

theorem bitZp (b : Byte) : Statement (.bitZp b) := ⟨rfl, rfl, rfl⟩

theorem andZp (b : Byte) : Statement (.andZp b) := ⟨rfl, rfl, rfl⟩

theorem rolZp (b : Byte) : Statement (.rolZp b) := ⟨rfl, rfl, rfl⟩

theorem rlaZp (b : Byte) : Statement (.rlaZp b) := ⟨rfl, rfl, rfl⟩

theorem plp : Statement .plp := ⟨rfl, rfl, rfl⟩

theorem andImm (b : Byte) : Statement (.andImm b) := ⟨rfl, rfl, rfl⟩

theorem rolAcc : Statement .rolAcc := ⟨rfl, rfl, rfl⟩

theorem ancImm2B (b : Byte) : Statement (.ancImm2B b) := ⟨rfl, rfl, rfl⟩

theorem bitAbs (w : Addr) : Statement (.bitAbs w) := ⟨rfl, rfl, congrArg Instr.bitAbs (Machine.wordOf_hi_lo w)⟩

theorem andAbs (w : Addr) : Statement (.andAbs w) := ⟨rfl, rfl, congrArg Instr.andAbs (Machine.wordOf_hi_lo w)⟩

theorem rolAbs (w : Addr) : Statement (.rolAbs w) := ⟨rfl, rfl, congrArg Instr.rolAbs (Machine.wordOf_hi_lo w)⟩

theorem rlaAbs (w : Addr) : Statement (.rlaAbs w) := ⟨rfl, rfl, congrArg Instr.rlaAbs (Machine.wordOf_hi_lo w)⟩

theorem bmi (b : Byte) : Statement (.bmi b) := ⟨rfl, rfl, rfl⟩

theorem andIzy (b : Byte) : Statement (.andIzy b) := ⟨rfl, rfl, rfl⟩

theorem jam32 : Statement .jam32 := ⟨rfl, rfl, rfl⟩

theorem rlaIzy (b : Byte) : Statement (.rlaIzy b) := ⟨rfl, rfl, rfl⟩

theorem nopZpx34 (b : Byte) : Statement (.nopZpx34 b) := ⟨rfl, rfl, rfl⟩

theorem andZpx (b : Byte) : Statement (.andZpx b) := ⟨rfl, rfl, rfl⟩

theorem rolZpx (b : Byte) : Statement (.rolZpx b) := ⟨rfl, rfl, rfl⟩

theorem rlaZpx (b : Byte) : Statement (.rlaZpx b) := ⟨rfl, rfl, rfl⟩

theorem sec : Statement .sec := ⟨rfl, rfl, rfl⟩

theorem andAby (w : Addr) : Statement (.andAby w) := ⟨rfl, rfl, congrArg Instr.andAby (Machine.wordOf_hi_lo w)⟩

theorem nop3A : Statement .nop3A := ⟨rfl, rfl, rfl⟩

theorem rlaAby (w : Addr) : Statement (.rlaAby w) := ⟨rfl, rfl, congrArg Instr.rlaAby (Machine.wordOf_hi_lo w)⟩

theorem nopAbx3C (w : Addr) : Statement (.nopAbx3C w) := ⟨rfl, rfl, congrArg Instr.nopAbx3C (Machine.wordOf_hi_lo w)⟩

theorem andAbx (w : Addr) : Statement (.andAbx w) := ⟨rfl, rfl, congrArg Instr.andAbx (Machine.wordOf_hi_lo w)⟩

theorem rolAbx (w : Addr) : Statement (.rolAbx w) := ⟨rfl, rfl, congrArg Instr.rolAbx (Machine.wordOf_hi_lo w)⟩

theorem rlaAbx (w : Addr) : Statement (.rlaAbx w) := ⟨rfl, rfl, congrArg Instr.rlaAbx (Machine.wordOf_hi_lo w)⟩

theorem rti : Statement .rti := ⟨rfl, rfl, rfl⟩

theorem eorIzx (b : Byte) : Statement (.eorIzx b) := ⟨rfl, rfl, rfl⟩

theorem jam42 : Statement .jam42 := ⟨rfl, rfl, rfl⟩

theorem sreIzx (b : Byte) : Statement (.sreIzx b) := ⟨rfl, rfl, rfl⟩

theorem nopZp44 (b : Byte) : Statement (.nopZp44 b) := ⟨rfl, rfl, rfl⟩

theorem eorZp (b : Byte) : Statement (.eorZp b) := ⟨rfl, rfl, rfl⟩

theorem lsrZp (b : Byte) : Statement (.lsrZp b) := ⟨rfl, rfl, rfl⟩

theorem sreZp (b : Byte) : Statement (.sreZp b) := ⟨rfl, rfl, rfl⟩

theorem pha : Statement .pha := ⟨rfl, rfl, rfl⟩

theorem eorImm (b : Byte) : Statement (.eorImm b) := ⟨rfl, rfl, rfl⟩

theorem lsrAcc : Statement .lsrAcc := ⟨rfl, rfl, rfl⟩

theorem alrImm (b : Byte) : Statement (.alrImm b) := ⟨rfl, rfl, rfl⟩

theorem jmpAbs (w : Addr) : Statement (.jmpAbs w) := ⟨rfl, rfl, congrArg Instr.jmpAbs (Machine.wordOf_hi_lo w)⟩

theorem eorAbs (w : Addr) : Statement (.eorAbs w) := ⟨rfl, rfl, congrArg Instr.eorAbs (Machine.wordOf_hi_lo w)⟩

theorem lsrAbs (w : Addr) : Statement (.lsrAbs w) := ⟨rfl, rfl, congrArg Instr.lsrAbs (Machine.wordOf_hi_lo w)⟩

theorem sreAbs (w : Addr) : Statement (.sreAbs w) := ⟨rfl, rfl, congrArg Instr.sreAbs (Machine.wordOf_hi_lo w)⟩

theorem bvc (b : Byte) : Statement (.bvc b) := ⟨rfl, rfl, rfl⟩

theorem eorIzy (b : Byte) : Statement (.eorIzy b) := ⟨rfl, rfl, rfl⟩

theorem jam52 : Statement .jam52 := ⟨rfl, rfl, rfl⟩

theorem sreIzy (b : Byte) : Statement (.sreIzy b) := ⟨rfl, rfl, rfl⟩

theorem nopZpx54 (b : Byte) : Statement (.nopZpx54 b) := ⟨rfl, rfl, rfl⟩

theorem eorZpx (b : Byte) : Statement (.eorZpx b) := ⟨rfl, rfl, rfl⟩

theorem lsrZpx (b : Byte) : Statement (.lsrZpx b) := ⟨rfl, rfl, rfl⟩

theorem sreZpx (b : Byte) : Statement (.sreZpx b) := ⟨rfl, rfl, rfl⟩

theorem cli : Statement .cli := ⟨rfl, rfl, rfl⟩

theorem eorAby (w : Addr) : Statement (.eorAby w) := ⟨rfl, rfl, congrArg Instr.eorAby (Machine.wordOf_hi_lo w)⟩

theorem nop5A : Statement .nop5A := ⟨rfl, rfl, rfl⟩

theorem sreAby (w : Addr) : Statement (.sreAby w) := ⟨rfl, rfl, congrArg Instr.sreAby (Machine.wordOf_hi_lo w)⟩

theorem nopAbx5C (w : Addr) : Statement (.nopAbx5C w) := ⟨rfl, rfl, congrArg Instr.nopAbx5C (Machine.wordOf_hi_lo w)⟩

theorem eorAbx (w : Addr) : Statement (.eorAbx w) := ⟨rfl, rfl, congrArg Instr.eorAbx (Machine.wordOf_hi_lo w)⟩

theorem lsrAbx (w : Addr) : Statement (.lsrAbx w) := ⟨rfl, rfl, congrArg Instr.lsrAbx (Machine.wordOf_hi_lo w)⟩

theorem sreAbx (w : Addr) : Statement (.sreAbx w) := ⟨rfl, rfl, congrArg Instr.sreAbx (Machine.wordOf_hi_lo w)⟩

theorem rts : Statement .rts := ⟨rfl, rfl, rfl⟩

theorem adcIzx (b : Byte) : Statement (.adcIzx b) := ⟨rfl, rfl, rfl⟩

theorem jam62 : Statement .jam62 := ⟨rfl, rfl, rfl⟩

theorem rraIzx (b : Byte) : Statement (.rraIzx b) := ⟨rfl, rfl, rfl⟩

theorem nopZp64 (b : Byte) : Statement (.nopZp64 b) := ⟨rfl, rfl, rfl⟩

theorem adcZp (b : Byte) : Statement (.adcZp b) := ⟨rfl, rfl, rfl⟩

theorem rorZp (b : Byte) : Statement (.rorZp b) := ⟨rfl, rfl, rfl⟩

theorem rraZp (b : Byte) : Statement (.rraZp b) := ⟨rfl, rfl, rfl⟩

theorem pla : Statement .pla := ⟨rfl, rfl, rfl⟩

theorem adcImm (b : Byte) : Statement (.adcImm b) := ⟨rfl, rfl, rfl⟩

theorem rorAcc : Statement .rorAcc := ⟨rfl, rfl, rfl⟩

theorem arrImm (b : Byte) : Statement (.arrImm b) := ⟨rfl, rfl, rfl⟩

theorem jmpInd (w : Addr) : Statement (.jmpInd w) := ⟨rfl, rfl, congrArg Instr.jmpInd (Machine.wordOf_hi_lo w)⟩

theorem adcAbs (w : Addr) : Statement (.adcAbs w) := ⟨rfl, rfl, congrArg Instr.adcAbs (Machine.wordOf_hi_lo w)⟩

theorem rorAbs (w : Addr) : Statement (.rorAbs w) := ⟨rfl, rfl, congrArg Instr.rorAbs (Machine.wordOf_hi_lo w)⟩

theorem rraAbs (w : Addr) : Statement (.rraAbs w) := ⟨rfl, rfl, congrArg Instr.rraAbs (Machine.wordOf_hi_lo w)⟩

theorem bvs (b : Byte) : Statement (.bvs b) := ⟨rfl, rfl, rfl⟩

theorem adcIzy (b : Byte) : Statement (.adcIzy b) := ⟨rfl, rfl, rfl⟩

theorem jam72 : Statement .jam72 := ⟨rfl, rfl, rfl⟩

theorem rraIzy (b : Byte) : Statement (.rraIzy b) := ⟨rfl, rfl, rfl⟩

theorem nopZpx74 (b : Byte) : Statement (.nopZpx74 b) := ⟨rfl, rfl, rfl⟩

theorem adcZpx (b : Byte) : Statement (.adcZpx b) := ⟨rfl, rfl, rfl⟩

theorem rorZpx (b : Byte) : Statement (.rorZpx b) := ⟨rfl, rfl, rfl⟩

theorem rraZpx (b : Byte) : Statement (.rraZpx b) := ⟨rfl, rfl, rfl⟩

theorem sei : Statement .sei := ⟨rfl, rfl, rfl⟩

theorem adcAby (w : Addr) : Statement (.adcAby w) := ⟨rfl, rfl, congrArg Instr.adcAby (Machine.wordOf_hi_lo w)⟩

theorem nop7A : Statement .nop7A := ⟨rfl, rfl, rfl⟩

theorem rraAby (w : Addr) : Statement (.rraAby w) := ⟨rfl, rfl, congrArg Instr.rraAby (Machine.wordOf_hi_lo w)⟩

theorem nopAbx7C (w : Addr) : Statement (.nopAbx7C w) := ⟨rfl, rfl, congrArg Instr.nopAbx7C (Machine.wordOf_hi_lo w)⟩

theorem adcAbx (w : Addr) : Statement (.adcAbx w) := ⟨rfl, rfl, congrArg Instr.adcAbx (Machine.wordOf_hi_lo w)⟩

theorem rorAbx (w : Addr) : Statement (.rorAbx w) := ⟨rfl, rfl, congrArg Instr.rorAbx (Machine.wordOf_hi_lo w)⟩

theorem rraAbx (w : Addr) : Statement (.rraAbx w) := ⟨rfl, rfl, congrArg Instr.rraAbx (Machine.wordOf_hi_lo w)⟩

theorem nopImm80 (b : Byte) : Statement (.nopImm80 b) := ⟨rfl, rfl, rfl⟩

theorem staIzx (b : Byte) : Statement (.staIzx b) := ⟨rfl, rfl, rfl⟩

theorem nopImm82 (b : Byte) : Statement (.nopImm82 b) := ⟨rfl, rfl, rfl⟩

theorem saxIzx (b : Byte) : Statement (.saxIzx b) := ⟨rfl, rfl, rfl⟩

theorem styZp (b : Byte) : Statement (.styZp b) := ⟨rfl, rfl, rfl⟩

theorem staZp (b : Byte) : Statement (.staZp b) := ⟨rfl, rfl, rfl⟩

theorem stxZp (b : Byte) : Statement (.stxZp b) := ⟨rfl, rfl, rfl⟩

theorem saxZp (b : Byte) : Statement (.saxZp b) := ⟨rfl, rfl, rfl⟩

theorem dey : Statement .dey := ⟨rfl, rfl, rfl⟩

theorem nopImm89 (b : Byte) : Statement (.nopImm89 b) := ⟨rfl, rfl, rfl⟩

theorem txa : Statement .txa := ⟨rfl, rfl, rfl⟩

theorem aneImm (b : Byte) : Statement (.aneImm b) := ⟨rfl, rfl, rfl⟩

theorem styAbs (w : Addr) : Statement (.styAbs w) := ⟨rfl, rfl, congrArg Instr.styAbs (Machine.wordOf_hi_lo w)⟩

theorem staAbs (w : Addr) : Statement (.staAbs w) := ⟨rfl, rfl, congrArg Instr.staAbs (Machine.wordOf_hi_lo w)⟩

theorem stxAbs (w : Addr) : Statement (.stxAbs w) := ⟨rfl, rfl, congrArg Instr.stxAbs (Machine.wordOf_hi_lo w)⟩

theorem saxAbs (w : Addr) : Statement (.saxAbs w) := ⟨rfl, rfl, congrArg Instr.saxAbs (Machine.wordOf_hi_lo w)⟩

theorem bcc (b : Byte) : Statement (.bcc b) := ⟨rfl, rfl, rfl⟩

theorem staIzy (b : Byte) : Statement (.staIzy b) := ⟨rfl, rfl, rfl⟩

theorem jam92 : Statement .jam92 := ⟨rfl, rfl, rfl⟩

theorem shaIzy (b : Byte) : Statement (.shaIzy b) := ⟨rfl, rfl, rfl⟩

theorem styZpx (b : Byte) : Statement (.styZpx b) := ⟨rfl, rfl, rfl⟩

theorem staZpx (b : Byte) : Statement (.staZpx b) := ⟨rfl, rfl, rfl⟩

theorem stxZpy (b : Byte) : Statement (.stxZpy b) := ⟨rfl, rfl, rfl⟩

theorem saxZpy (b : Byte) : Statement (.saxZpy b) := ⟨rfl, rfl, rfl⟩

theorem tya : Statement .tya := ⟨rfl, rfl, rfl⟩

theorem staAby (w : Addr) : Statement (.staAby w) := ⟨rfl, rfl, congrArg Instr.staAby (Machine.wordOf_hi_lo w)⟩

theorem txs : Statement .txs := ⟨rfl, rfl, rfl⟩

theorem tasAby (w : Addr) : Statement (.tasAby w) := ⟨rfl, rfl, congrArg Instr.tasAby (Machine.wordOf_hi_lo w)⟩

theorem shyAbx (w : Addr) : Statement (.shyAbx w) := ⟨rfl, rfl, congrArg Instr.shyAbx (Machine.wordOf_hi_lo w)⟩

theorem staAbx (w : Addr) : Statement (.staAbx w) := ⟨rfl, rfl, congrArg Instr.staAbx (Machine.wordOf_hi_lo w)⟩

theorem shxAby (w : Addr) : Statement (.shxAby w) := ⟨rfl, rfl, congrArg Instr.shxAby (Machine.wordOf_hi_lo w)⟩

theorem shaAby (w : Addr) : Statement (.shaAby w) := ⟨rfl, rfl, congrArg Instr.shaAby (Machine.wordOf_hi_lo w)⟩

theorem ldyImm (b : Byte) : Statement (.ldyImm b) := ⟨rfl, rfl, rfl⟩

theorem ldaIzx (b : Byte) : Statement (.ldaIzx b) := ⟨rfl, rfl, rfl⟩

theorem ldxImm (b : Byte) : Statement (.ldxImm b) := ⟨rfl, rfl, rfl⟩

theorem laxIzx (b : Byte) : Statement (.laxIzx b) := ⟨rfl, rfl, rfl⟩

theorem ldyZp (b : Byte) : Statement (.ldyZp b) := ⟨rfl, rfl, rfl⟩

theorem ldaZp (b : Byte) : Statement (.ldaZp b) := ⟨rfl, rfl, rfl⟩

theorem ldxZp (b : Byte) : Statement (.ldxZp b) := ⟨rfl, rfl, rfl⟩

theorem laxZp (b : Byte) : Statement (.laxZp b) := ⟨rfl, rfl, rfl⟩

theorem tay : Statement .tay := ⟨rfl, rfl, rfl⟩

theorem ldaImm (b : Byte) : Statement (.ldaImm b) := ⟨rfl, rfl, rfl⟩

theorem tax : Statement .tax := ⟨rfl, rfl, rfl⟩

theorem lxaImm (b : Byte) : Statement (.lxaImm b) := ⟨rfl, rfl, rfl⟩

theorem ldyAbs (w : Addr) : Statement (.ldyAbs w) := ⟨rfl, rfl, congrArg Instr.ldyAbs (Machine.wordOf_hi_lo w)⟩

theorem ldaAbs (w : Addr) : Statement (.ldaAbs w) := ⟨rfl, rfl, congrArg Instr.ldaAbs (Machine.wordOf_hi_lo w)⟩

theorem ldxAbs (w : Addr) : Statement (.ldxAbs w) := ⟨rfl, rfl, congrArg Instr.ldxAbs (Machine.wordOf_hi_lo w)⟩

theorem laxAbs (w : Addr) : Statement (.laxAbs w) := ⟨rfl, rfl, congrArg Instr.laxAbs (Machine.wordOf_hi_lo w)⟩

theorem bcs (b : Byte) : Statement (.bcs b) := ⟨rfl, rfl, rfl⟩

theorem ldaIzy (b : Byte) : Statement (.ldaIzy b) := ⟨rfl, rfl, rfl⟩

theorem jamB2 : Statement .jamB2 := ⟨rfl, rfl, rfl⟩

theorem laxIzy (b : Byte) : Statement (.laxIzy b) := ⟨rfl, rfl, rfl⟩

theorem ldyZpx (b : Byte) : Statement (.ldyZpx b) := ⟨rfl, rfl, rfl⟩

theorem ldaZpx (b : Byte) : Statement (.ldaZpx b) := ⟨rfl, rfl, rfl⟩

theorem ldxZpy (b : Byte) : Statement (.ldxZpy b) := ⟨rfl, rfl, rfl⟩

theorem laxZpy (b : Byte) : Statement (.laxZpy b) := ⟨rfl, rfl, rfl⟩

theorem clv : Statement .clv := ⟨rfl, rfl, rfl⟩

theorem ldaAby (w : Addr) : Statement (.ldaAby w) := ⟨rfl, rfl, congrArg Instr.ldaAby (Machine.wordOf_hi_lo w)⟩

theorem tsx : Statement .tsx := ⟨rfl, rfl, rfl⟩

theorem lasAby (w : Addr) : Statement (.lasAby w) := ⟨rfl, rfl, congrArg Instr.lasAby (Machine.wordOf_hi_lo w)⟩

theorem ldyAbx (w : Addr) : Statement (.ldyAbx w) := ⟨rfl, rfl, congrArg Instr.ldyAbx (Machine.wordOf_hi_lo w)⟩

theorem ldaAbx (w : Addr) : Statement (.ldaAbx w) := ⟨rfl, rfl, congrArg Instr.ldaAbx (Machine.wordOf_hi_lo w)⟩

theorem ldxAby (w : Addr) : Statement (.ldxAby w) := ⟨rfl, rfl, congrArg Instr.ldxAby (Machine.wordOf_hi_lo w)⟩

theorem laxAby (w : Addr) : Statement (.laxAby w) := ⟨rfl, rfl, congrArg Instr.laxAby (Machine.wordOf_hi_lo w)⟩

theorem cpyImm (b : Byte) : Statement (.cpyImm b) := ⟨rfl, rfl, rfl⟩

theorem cmpIzx (b : Byte) : Statement (.cmpIzx b) := ⟨rfl, rfl, rfl⟩

theorem nopImmC2 (b : Byte) : Statement (.nopImmC2 b) := ⟨rfl, rfl, rfl⟩

theorem dcpIzx (b : Byte) : Statement (.dcpIzx b) := ⟨rfl, rfl, rfl⟩

theorem cpyZp (b : Byte) : Statement (.cpyZp b) := ⟨rfl, rfl, rfl⟩

theorem cmpZp (b : Byte) : Statement (.cmpZp b) := ⟨rfl, rfl, rfl⟩

theorem decZp (b : Byte) : Statement (.decZp b) := ⟨rfl, rfl, rfl⟩

theorem dcpZp (b : Byte) : Statement (.dcpZp b) := ⟨rfl, rfl, rfl⟩

theorem iny : Statement .iny := ⟨rfl, rfl, rfl⟩

theorem cmpImm (b : Byte) : Statement (.cmpImm b) := ⟨rfl, rfl, rfl⟩

theorem dex : Statement .dex := ⟨rfl, rfl, rfl⟩

theorem sbxImm (b : Byte) : Statement (.sbxImm b) := ⟨rfl, rfl, rfl⟩

theorem cpyAbs (w : Addr) : Statement (.cpyAbs w) := ⟨rfl, rfl, congrArg Instr.cpyAbs (Machine.wordOf_hi_lo w)⟩

theorem cmpAbs (w : Addr) : Statement (.cmpAbs w) := ⟨rfl, rfl, congrArg Instr.cmpAbs (Machine.wordOf_hi_lo w)⟩

theorem decAbs (w : Addr) : Statement (.decAbs w) := ⟨rfl, rfl, congrArg Instr.decAbs (Machine.wordOf_hi_lo w)⟩

theorem dcpAbs (w : Addr) : Statement (.dcpAbs w) := ⟨rfl, rfl, congrArg Instr.dcpAbs (Machine.wordOf_hi_lo w)⟩

theorem bne (b : Byte) : Statement (.bne b) := ⟨rfl, rfl, rfl⟩

theorem cmpIzy (b : Byte) : Statement (.cmpIzy b) := ⟨rfl, rfl, rfl⟩

theorem jamD2 : Statement .jamD2 := ⟨rfl, rfl, rfl⟩

theorem dcpIzy (b : Byte) : Statement (.dcpIzy b) := ⟨rfl, rfl, rfl⟩

theorem nopZpxD4 (b : Byte) : Statement (.nopZpxD4 b) := ⟨rfl, rfl, rfl⟩

theorem cmpZpx (b : Byte) : Statement (.cmpZpx b) := ⟨rfl, rfl, rfl⟩

theorem decZpx (b : Byte) : Statement (.decZpx b) := ⟨rfl, rfl, rfl⟩

theorem dcpZpx (b : Byte) : Statement (.dcpZpx b) := ⟨rfl, rfl, rfl⟩

theorem cld : Statement .cld := ⟨rfl, rfl, rfl⟩

theorem cmpAby (w : Addr) : Statement (.cmpAby w) := ⟨rfl, rfl, congrArg Instr.cmpAby (Machine.wordOf_hi_lo w)⟩

theorem nopDA : Statement .nopDA := ⟨rfl, rfl, rfl⟩

theorem dcpAby (w : Addr) : Statement (.dcpAby w) := ⟨rfl, rfl, congrArg Instr.dcpAby (Machine.wordOf_hi_lo w)⟩

theorem nopAbxDC (w : Addr) : Statement (.nopAbxDC w) := ⟨rfl, rfl, congrArg Instr.nopAbxDC (Machine.wordOf_hi_lo w)⟩

theorem cmpAbx (w : Addr) : Statement (.cmpAbx w) := ⟨rfl, rfl, congrArg Instr.cmpAbx (Machine.wordOf_hi_lo w)⟩

theorem decAbx (w : Addr) : Statement (.decAbx w) := ⟨rfl, rfl, congrArg Instr.decAbx (Machine.wordOf_hi_lo w)⟩

theorem dcpAbx (w : Addr) : Statement (.dcpAbx w) := ⟨rfl, rfl, congrArg Instr.dcpAbx (Machine.wordOf_hi_lo w)⟩

theorem cpxImm (b : Byte) : Statement (.cpxImm b) := ⟨rfl, rfl, rfl⟩

theorem sbcIzx (b : Byte) : Statement (.sbcIzx b) := ⟨rfl, rfl, rfl⟩

theorem nopImmE2 (b : Byte) : Statement (.nopImmE2 b) := ⟨rfl, rfl, rfl⟩

theorem isbIzx (b : Byte) : Statement (.isbIzx b) := ⟨rfl, rfl, rfl⟩

theorem cpxZp (b : Byte) : Statement (.cpxZp b) := ⟨rfl, rfl, rfl⟩

theorem sbcZp (b : Byte) : Statement (.sbcZp b) := ⟨rfl, rfl, rfl⟩

theorem incZp (b : Byte) : Statement (.incZp b) := ⟨rfl, rfl, rfl⟩

theorem isbZp (b : Byte) : Statement (.isbZp b) := ⟨rfl, rfl, rfl⟩

theorem inx : Statement .inx := ⟨rfl, rfl, rfl⟩

theorem sbcImm (b : Byte) : Statement (.sbcImm b) := ⟨rfl, rfl, rfl⟩

theorem nop : Statement .nop := ⟨rfl, rfl, rfl⟩

theorem sbcImmEB (b : Byte) : Statement (.sbcImmEB b) := ⟨rfl, rfl, rfl⟩

theorem cpxAbs (w : Addr) : Statement (.cpxAbs w) := ⟨rfl, rfl, congrArg Instr.cpxAbs (Machine.wordOf_hi_lo w)⟩

theorem sbcAbs (w : Addr) : Statement (.sbcAbs w) := ⟨rfl, rfl, congrArg Instr.sbcAbs (Machine.wordOf_hi_lo w)⟩

theorem incAbs (w : Addr) : Statement (.incAbs w) := ⟨rfl, rfl, congrArg Instr.incAbs (Machine.wordOf_hi_lo w)⟩

theorem isbAbs (w : Addr) : Statement (.isbAbs w) := ⟨rfl, rfl, congrArg Instr.isbAbs (Machine.wordOf_hi_lo w)⟩

theorem beq (b : Byte) : Statement (.beq b) := ⟨rfl, rfl, rfl⟩

theorem sbcIzy (b : Byte) : Statement (.sbcIzy b) := ⟨rfl, rfl, rfl⟩

theorem jamF2 : Statement .jamF2 := ⟨rfl, rfl, rfl⟩

theorem isbIzy (b : Byte) : Statement (.isbIzy b) := ⟨rfl, rfl, rfl⟩

theorem nopZpxF4 (b : Byte) : Statement (.nopZpxF4 b) := ⟨rfl, rfl, rfl⟩

theorem sbcZpx (b : Byte) : Statement (.sbcZpx b) := ⟨rfl, rfl, rfl⟩

theorem incZpx (b : Byte) : Statement (.incZpx b) := ⟨rfl, rfl, rfl⟩

theorem isbZpx (b : Byte) : Statement (.isbZpx b) := ⟨rfl, rfl, rfl⟩

theorem sed : Statement .sed := ⟨rfl, rfl, rfl⟩

theorem sbcAby (w : Addr) : Statement (.sbcAby w) := ⟨rfl, rfl, congrArg Instr.sbcAby (Machine.wordOf_hi_lo w)⟩

theorem nopFA : Statement .nopFA := ⟨rfl, rfl, rfl⟩

theorem isbAby (w : Addr) : Statement (.isbAby w) := ⟨rfl, rfl, congrArg Instr.isbAby (Machine.wordOf_hi_lo w)⟩

theorem nopAbxFC (w : Addr) : Statement (.nopAbxFC w) := ⟨rfl, rfl, congrArg Instr.nopAbxFC (Machine.wordOf_hi_lo w)⟩

theorem sbcAbx (w : Addr) : Statement (.sbcAbx w) := ⟨rfl, rfl, congrArg Instr.sbcAbx (Machine.wordOf_hi_lo w)⟩

theorem incAbx (w : Addr) : Statement (.incAbx w) := ⟨rfl, rfl, congrArg Instr.incAbx (Machine.wordOf_hi_lo w)⟩

theorem isbAbx (w : Addr) : Statement (.isbAbx w) := ⟨rfl, rfl, congrArg Instr.isbAbx (Machine.wordOf_hi_lo w)⟩

end Sys2Proof.Laws.OpcodeRow
end

