-- ==== Sys2Proof/Laws/Runs.lean ====
section
/-!
SUPPORT. What a fetch answers over code in RAM or ROM, what a jump to itself does, and what a boot leaves as it was.
-/

namespace Sys2Proof.Machine

/-- The fetch of bytes that stand in RAM or ROM: the state is unchanged, and the instruction is the one they decode to, but
that a refused unstable opcode is fetched without its operand bytes (R97). -/
theorem fetch_code {s : State} {op : Byte} {ops rest : List Byte} {i : Instr} (hd : decode (op :: ops) = .ok (i, rest))
    (hc : s.CodeAt (op :: ops)) :
    ∃ f, fetch s = .ok f ∧ f.state = s ∧
      (f.instr = i ∨ ((rowOf op).cls = .unst ∧ s.params.unstable = .refuse ∧ f.instr = instrOf op 0 0)) := by
  have rd : ∀ k b, (op :: ops)[k]? = some b →
      memRead s (s.pc + BitVec.ofNat 16 k) = .ok { val := b, state := s } := fun k b h =>
    memRead_of_diagRead (hc k b h).1 (hc k b h).2
  have r0 : memRead s s.pc = .ok { val := op, state := s } := by simpa using rd 0 op rfl
  unfold fetch
  rw [r0]
  simp only [ok_bind]
  by_cases hu : (decide ((rowOf op).cls = .unst) && decide (s.params.unstable = .refuse)) = true
  · simp only [operandCount, hu, if_true]
    simp only [Bool.and_eq_true, decide_eq_true_eq] at hu
    exact ⟨_, rfl, rfl, .inr ⟨hu.1, hu.2, rfl⟩⟩
  · simp only [operandCount, hu, Bool.false_eq_true, if_false]
    refine ⟨{ instr := i, state := s }, ?_, rfl, .inl rfl⟩
    simp only [decode] at hd
    split at hd
    · rename_i h0
      cases hd
      simp only [h0]
      rfl
    · rename_i h0
      cases hd
      have h1 := rd 1 _ rfl
      simp only [h0]
      rw [show s.pc + 1 = s.pc + BitVec.ofNat 16 1 from rfl, h1]
      rfl
    · rename_i h0
      cases hd
      have h1 := rd 1 _ rfl
      have h2 := rd 2 _ rfl
      simp only [h0]
      rw [show s.pc + 1 = s.pc + BitVec.ofNat 16 1 from rfl, show s.pc + 2 = s.pc + BitVec.ofNat 16 2 from rfl, h1]
      simp only [ok_bind]
      rw [h2]
      rfl
    · cases hd

/-! ### A read that changes nothing -/

/-- How many events the history of the region with an identifier holds. -/
def State.eventsOf (s : State) (i : Nat) : Nat :=
  match (lookupRegion s.regions i).map Region.backing with
  | some (.io h) => h.length
  | _ => 0

/-- A read takes no event out of any history, and puts one into that of an IO region that answers it. -/
theorem memRead_eventsOf {s : State} {a : Addr} {r : BusRead} (h : memRead s a = .ok r) :
    (∀ i, s.eventsOf i ≤ r.state.eventsOf i) ∧ (s.PlainAt a ∨ ∃ i, s.eventsOf i < r.state.eventsOf i) := by
  obtain ⟨g, hg, ⟨hk, hs, -⟩ | ⟨hist, hb, -, hs⟩⟩ := memRead_ok h
  · rw [hs]
    exact ⟨fun _ => Nat.le_refl _, .inl ((plainAt_kind hg).2 hk)⟩
  · have hl := (responsible_some hg).1
    have new : ∀ i, r.state.eventsOf i = if i = g.id then hist.length + 1 else s.eventsOf i := by
      intro i
      rw [hs]
      unfold State.eventsOf State.setBacking
      simp only [lookupRegion_replace]
      by_cases e : i = g.id
      · simp [e, hl, Region.replaced]
      · rw [if_neg e]
        cases hi : lookupRegion s.regions i with
        | none => rfl
        | some q =>
          have : q.id ≠ g.id := fun e' => e ((lookupRegion_id hi).symm.trans e')
          simp [Region.replaced, this]
    have old : s.eventsOf g.id = hist.length := by
      unfold State.eventsOf
      simp [hl, hb]
    refine ⟨fun i => ?_, .inr ⟨g.id, ?_⟩⟩
    · rw [new]
      split
      · rename_i e
        rw [e, old]
        exact Nat.le_succ _
      · exact Nat.le_refl _
    · rw [new, if_pos rfl, old]
      exact Nat.lt_succ_self _

/-- Two reads in a row that end in the state they began in read RAM or ROM, and each leaves the state as it was. -/
theorem memRead_twice_unchanged {s : State} {a b : Addr} {l h : BusRead} (hl : memRead s a = .ok l)
    (hh : memRead l.state b = .ok h) (he : h.state = s) : s.PlainAt a ∧ s.PlainAt b ∧ l.state = s := by
  have el := memRead_eventsOf hl
  have eh := memRead_eventsOf hh
  rw [he] at eh
  have pa : s.PlainAt a := el.2.resolve_right fun ⟨i, hi⟩ => absurd (Nat.lt_of_lt_of_le hi (eh.1 i)) (Nat.lt_irrefl _)
  have ls := (memRead_plain pa hl).1
  rw [ls] at eh
  exact ⟨pa, eh.2.resolve_right fun ⟨i, hi⟩ => absurd hi (Nat.lt_irrefl _), ls⟩

/-- A jump through a pointer goes to itself exactly when the pointer's two bytes are in RAM or ROM and hold its address. -/
theorem pointsToItself_iff {w : Addr} {s : State} :
    pointsToItself w s = true ↔
      s.PlainAt w ∧ s.PlainAt (wordOf (hi w) (lo w + 1)) ∧ diagRead s w = .ok (lo s.pc) ∧
        diagRead s (wordOf (hi w) (lo w + 1)) = .ok (hi s.pc) := by
  constructor
  · intro h
    unfold pointsToItself at h
    split at h
    · rename_i r hr
      obtain ⟨l, hl, hr⟩ := bind_ok hr
      obtain ⟨g, hg, hr⟩ := bind_ok hr
      cases hr
      simp only [Bool.and_eq_true, decide_eq_true_eq] at h
      obtain ⟨pa, pb, ls⟩ := memRead_twice_unchanged hl hg h.2
      rw [ls] at hg
      rw [← h.1, lo_wordOf, hi_wordOf]
      exact ⟨pa, pb, (memRead_plain pa hl).2, (memRead_plain pb hg).2⟩
    · cases h
  · rintro ⟨pa, pb, da, db⟩
    have : indirectTarget s w = .ok { val := s.pc, state := s } := by
      refine (bind_of_ok (memRead_of_diagRead pa da)).trans ((bind_of_ok (memRead_of_diagRead pb db)).trans ?_)
      show Except.ok ({ val := wordOf (hi s.pc) (lo s.pc), state := s } : WordRead) = _
      rw [wordOf_hi_lo]
    unfold pointsToItself
    rw [this]
    simp

/-! ### A branch with offset `0xFE` -/

/-- Offset `0xFE` from the next instruction is the branch itself. -/
theorem branchTarget_self (pc : Addr) : branchTarget (pc + 2) 0xFE = pc := by
  have : sext16 (0xFE : Byte) = 0xFFFE := by decide
  unfold branchTarget
  rw [this]
  bv_omega

/-- A taken branch costs 3 or 4. -/
theorem branchCost_taken (e : Addr) (off : Byte) : branchCost true e off = 3 ∨ branchCost true e off = 4 := by
  unfold branchCost
  cases hi (branchTarget e off) != hi e
  · exact .inl rfl
  · exact .inr rfl

/-- A taken branch with offset `0xFE` changes the account only. -/
theorem runBranch_self {cond : Flags → Bool} {s : State} (h : cond s.p = true) :
    runBranch cond 0xFE s = .next (s.account (branchCost true (s.pc + 2) 0xFE)) := by
  rw [runBranch_eq, h, branchTarget_self]
  rfl

/-! ### What the host does before the first step -/

theorem mapRegion_params (s : State) (r : Region) : (s.mapRegion r).params = s.params := by
  unfold State.mapRegion
  split
  · simp
  · split <;> rfl

theorem mapRegions_params (rs : List Region) (s : State) : (rs.foldl State.mapRegion s).params = s.params := by
  induction rs generalizing s with
  | nil => rfl
  | cons r rs ih => rw [List.foldl_cons, ih, mapRegion_params]

section
variable {Q : State → Prop} (hQ : ∀ s i b, Q s → Q (s.setBacking i b))
include hQ

/-- Copies into RAM keep what a change of a region's storage keeps. -/
theorem bulkWrites_keeps {bytes : List Byte} {a : Addr} {s t : State} (h : bulkWrites a bytes s = .next t) (q : Q s) :
    Q t := by
  induction bytes generalizing a s with
  | nil => cases h; exact q
  | cons b bs ih =>
    unfold bulkWrites at h
    split at h
    · cases h
    · split at h
      · exact ih h (hQ _ _ _ q)
      · cases h
      · cases h

theorem loadAll_keeps {loads : List (Addr × List Byte)} {s t : State} (h : loadAll loads s = .next t) (q : Q s) : Q t := by
  induction loads generalizing s with
  | nil => cases h; exact q
  | cons p rest ih =>
    obtain ⟨a, bytes⟩ := p
    unfold loadAll at h
    split at h
    · rename_i u hu
      unfold bulkCopy at hu
      split at hu
      · exact ih h (bulkWrites_keeps hQ hu q)
      · cases hu
    · cases h
    · cases h

end

/-- The end of a boot is a reset of a state with the parameters it had. -/
theorem enterAt_next {entry : Addr} {s t : State} (h : enterAt entry s = .next t) :
    ∃ u, memWriteWord s s.params.vecReset entry = .ok u ∧ u.params = s.params ∧ resetMachine u = .ok t := by
  unfold enterAt at h
  split at h
  · cases h
  · rename_i u hu
    obtain ⟨v, hv, hu'⟩ := bind_ok hu
    exact ⟨u, hu, (memWrite_sameButBus hu').params_eq.trans (memWrite_sameButBus hv).params_eq, finish_next.1 h⟩

/-- A boot that answers a state ends in a reset under the parameters it was given. -/
theorem boot_next {q : Config.Params} {regions : List Region} {loads : List (Addr × List Byte)} {entry : Addr} {t : State}
    (h : boot q regions loads entry = .next t) : ∃ u, u.params = q ∧ resetMachine u = .ok t := by
  unfold boot at h
  split at h
  · rename_i s hs
    obtain ⟨u, -, hp, hr⟩ := enterAt_next h
    exact ⟨u, hp.trans (loadAll_keeps (Q := fun s => s.params = q) (fun _ _ _ h => h) hs (mapRegions_params _ _)), hr⟩
  · cases h
  · cases h

end Sys2Proof.Machine
end

