-- ==== Sys2Proof/Tests/Slice0.lean ====
section
/-!
SUPPORT. Tests: what the checks refuse, words written out from the spec's encodings, single steps whose results are the spec's
own examples, and for every statement with hypotheses a state and operands that meet them.
-/

namespace Sys2Proof.Tests

open Sys2Proof.Machine

/-! ### Small states -/

/-- Bytes written in ascending order from an offset. -/
def load (o : Nat) (bytes : List Byte) (m : Memory) : Memory :=
  match bytes with
  | [] => m
  | b :: bs => load (o + 1) bs (m.write o b)

/-- The state after reset, over one RAM region with these bytes, `PC` at `0x0800`. -/
def ram (m : Memory) : State :=
  { State.reset with pc := 0x0800, regions := [{ id := 0, range := { start := 0, size := 65536 }, backing := .ram m }] }

/-- That state with these bytes of code at `PC`, and a byte of data. -/
def code (bytes : List Byte) (dataAt : Nat := 0x0010) (data : Byte := 0) : State := ram (load dataAt [data] (load 0x0800 bytes []))

/-- A part of the state after one step, if it answers one. -/
def after {α : Type} (s : State) (f : State → α) : Option α :=
  match step s with
  | .next t => some (f t)
  | .fault _ => none
  | .refused _ => none

/-- The byte of RAM or ROM at an address. -/
def byteAt (s : State) (a : Addr) : Option Byte :=
  match diagRead s a with
  | .ok v => some v
  | .error _ => none

/-- RAM below `0x8000`, IO from `0x8000`, ROM from `0xC000`. -/
def mixed : State :=
  { State.reset with
    pc := 0x0800
    regions :=
      [ { id := 0, range := { start := 0, size := 0x8000 }, backing := .ram (load 0x0800 [0xE8] []) },
        { id := 1, range := { start := 0x8000, size := 0x4000 }, backing := .io [] },
        { id := 2, range := { start := 0xC000, size := 0x4000 }, backing := .rom [(0x10, 0x5A)] } ]
    mapOrder := [2, 1, 0] }

/-- RAM at the addresses below a bound only. -/
def ramBelow (n : Nat) : State :=
  { State.reset with pc := 0x0800, regions := [{ id := 0, range := { start := 0, size := n }, backing := .ram [] }] }

/-! ### WellFormed -/

theorem test_wf_range_ok : ({ start := 0x8000, size := 0x8000 } : AddressRange).wf = true := by decide
theorem test_wf_range_empty_ok : ({ start := 0xFFFF, size := 0 } : AddressRange).wf = true := by decide
theorem test_wf_range_bad_start : ({ start := 65536, size := 0 } : AddressRange).wf = false := by decide
theorem test_wf_range_bad_size : ({ start := 0, size := 65537 } : AddressRange).wf = false := by decide
theorem test_wf_range_bad_end : ({ start := 0xFFFF, size := 2 } : AddressRange).wf = false := by decide
theorem test_wf_memory_order : Memory.wf [(2, 1), (1, 1)] = false := by decide
theorem test_wf_memory_unlisted_byte : Memory.wf [(1, 0)] = false := by decide
theorem test_wf_region_outside :
    ({ id := 0, range := { start := 0, size := 4 }, backing := .ram [(4, 1)] } : Region).wf = false := by decide
theorem test_wf_bus_order_unknown : { State.reset with mapOrder := [0, 7] }.busWf = false := by decide
theorem test_wf_bus_order_repeats : { State.reset with mapOrder := [0, 0] }.busWf = false := by decide
theorem test_wf_bus_id_repeats : { State.reset with regions := [ramEverywhere, ramEverywhere] }.busWf = false := by decide
theorem test_wf_instr : (Instr.ldaImm 0x05).wf = true := by decide
theorem test_wf_mixed : mixed.busWf = true := by decide

/-! ### Decoding and encoding: words written out bit by bit from the encodings of spec/30_encoding.md R91 and R95 -/

/-- LDA ($nn),Y: opcode 0xB1 = 1011 0001, operand 0x86. -/
theorem test_decode_load : decode [0b10110001, 0b10000110] = .ok (.ldaIzy 0x86, []) := by rfl
/-- TSX: 0xBA. -/
theorem test_decode_transfer : decode [0b10111010] = .ok (.tsx, []) := by rfl
/-- STX $nn,Y: 0x96. -/
theorem test_decode_store : decode [0b10010110, 0b00010000] = .ok (.stxZpy 0x10, []) := by rfl
/-- SBC $nnnn,X: 0xFD, low byte first. -/
theorem test_decode_arithmetic : decode [0b11111101, 0b00110100, 0b00010010] = .ok (.sbcAbx 0x1234, []) := by rfl
/-- BIT $nnnn: 0x2C. -/
theorem test_decode_logic : decode [0b00101100, 0b00000000, 0b11010000] = .ok (.bitAbs 0xD000, []) := by rfl
/-- ROR A: 0x6A. -/
theorem test_decode_shift : decode [0b01101010] = .ok (.rorAcc, []) := by rfl
/-- DEC $nn: 0xC6. -/
theorem test_decode_incdec : decode [0b11000110, 0b00010000] = .ok (.decZp 0x10, []) := by rfl
/-- CMP ($nn,X): 0xC1. -/
theorem test_decode_compare : decode [0b11000001, 0b00100000] = .ok (.cmpIzx 0x20, []) := by rfl
/-- BVS: 0x70. -/
theorem test_decode_branch : decode [0b01110000, 0b00000010] = .ok (.bvs 0x02, []) := by rfl
/-- JSR $nnnn: 0x20. -/
theorem test_decode_jump : decode [0b00100000, 0b00000000, 0b00001001] = .ok (.jsrAbs 0x0900, []) := by rfl
/-- PLP: 0x28. -/
theorem test_decode_stack : decode [0b00101000] = .ok (.plp, []) := by rfl
/-- SED: 0xF8. -/
theorem test_decode_flag : decode [0b11111000] = .ok (.sed, []) := by rfl
/-- ISB $nnnn,Y: 0xFB. -/
theorem test_decode_composite : decode [0b11111011, 0b11111111, 0b00000010] = .ok (.isbAby 0x02FF, []) := by rfl
/-- ANC # at 0x2B, not 0x0B. -/
theorem test_decode_undocumented : decode [0b00101011, 0b10000000] = .ok (.ancImm2B 0x80, []) := by rfl
/-- SBC # at 0xEB, not 0xE9. -/
theorem test_decode_twin : decode [0b11101011, 0b00000001] = .ok (.sbcImmEB 0x01, []) := by rfl
/-- JAM: 0xD2. -/
theorem test_decode_halt : decode [0b11010010] = .ok (.jamD2, []) := by rfl
/-- SHA ($nn),Y: 0x93. -/
theorem test_decode_unstable : decode [0b10010011, 0b01000000] = .ok (.shaIzy 0x40, []) := by rfl

theorem test_decode_truncated : decode [0xAD, 0x34] = .error (.truncated 0xAD) := by rfl
theorem test_decode_empty : decode [] = .error .noOpcode := by rfl
theorem test_encode_word : encode (.staAbx 0x1234) = [0x9D, 0x34, 0x12] := by decide
theorem test_encode_byte : encode (.bne 0xFB) = [0xD0, 0xFB] := by decide
theorem test_encode_none : encode .tax = [0xAA] := by decide
theorem test_table_word : decodeTableWord 24 0x12349D = some (.staAbx 0x1234) := by rfl
theorem test_table_word_short : decodeTableWord 8 0xFF9D = some (.staAbx 0x0000) := by rfl
theorem test_withFetchWord_runs :
    after (State.reset.withFetchWord 16 0x42A9) (fun s => (s.a, s.pc)) = some (0x42, 0x0002) := by rfl

/-! ### Single steps: the examples of the instructions' own rules -/

/-- R130. -/
theorem test_lda_imm : after (code [0xA9, 0x05]) (fun s => (s.a, s.p.z, s.p.n)) = some ((0x05, false, false)) := by
  rfl
/-- R122. -/
theorem test_lda_izy_crosses : after ({ code [0xB1, 0x86] 0x0086 0xFF with y := 0xF0 }) (fun s => (s.pc, s.consumed)) = some ((0x0802, 6)) := by
  rfl
/-- R131. -/
theorem test_ldx_imm : after (code [0xA2, 0xFF]) (fun s => (s.x, s.p.z, s.p.n)) = some ((0xFF, false, true)) := by
  rfl
/-- R132. -/
theorem test_ldy_imm : after (code [0xA0, 0x00]) (fun s => (s.y, s.p.z, s.p.n)) = some ((0x00, true, false)) := by
  rfl
/-- R114. -/
theorem test_lda_zpx_wraps : after ({ code [0xB5, 0xFF] 0x0001 0x77 with x := 0x02 }) (fun s => s.a) = some (0x77) := by
  rfl
/-- R133. -/
theorem test_tax : after ({ code [0xAA] with a := 0x05 }) (fun s => (s.x, s.p.z, s.p.n)) = some ((0x05, false, false)) := by
  rfl
/-- R134. -/
theorem test_tay : after ({ code [0xA8] with a := 0x80 }) (fun s => (s.y, s.p.n)) = some ((0x80, true)) := by
  rfl
/-- R135. -/
theorem test_txa : after ({ code [0x8A] with x := 0x05 }) (fun s => (s.a, s.p.z, s.p.n)) = some ((0x05, false, false)) := by
  rfl
/-- R136. -/
theorem test_tya : after ({ code [0x98] with y := 0x00, a := 0x33 }) (fun s => (s.a, s.p.z, s.p.n)) = some ((0x00, true, false)) := by
  rfl
/-- R137. -/
theorem test_tsx : after ({ code [0xBA] with sp := 0xFD }) (fun s => (s.x, s.p.n, s.p.z)) = some ((0xFD, true, false)) := by
  rfl
/-- R138. -/
theorem test_txs : after ({ code [0x9A] with x := 0xFF, p := { n := false, v := false, d := false, i := false, z := true, c := false } }) (fun s => (s.sp, s.p.z, s.p.n)) = some ((0xFF, true, false)) := by
  rfl
/-- R150. -/
theorem test_sta_abs : after ({ code [0x8D, 0x00, 0x02] with a := 0x42 }) (fun s => (byteAt s 0x0200, s.consumed)) = some ((some 0x42, 4)) := by
  rfl
/-- R151. -/
theorem test_stx_zpy_wraps : after ({ code [0x96, 0x10] with x := 0x07, y := 0xF8 }) (fun s => byteAt s 0x0008) = some (some 0x07) := by
  rfl
/-- R152. -/
theorem test_sty_zp : after ({ code [0x84, 0xFF] with y := 0x31 }) (fun s => byteAt s 0x00FF) = some (some 0x31) := by
  rfl
/-- R163. -/
theorem test_adc_imm : after ({ code [0x69, 0x10] with a := 0x20, p := { n := false, v := false, d := false, i := false, z := false, c := true } }) (fun s => (s.a, s.p.c, s.p.v, s.p.n, s.p.z)) = some ((0x31, false, false, false, false)) := by
  rfl
/-- R163. -/
theorem test_adc_overflows : after ({ code [0x69, 0x01] with a := 0x7F, p := { n := false, v := false, d := false, i := false, z := false, c := false } }) (fun s => (s.a, s.p.c, s.p.v, s.p.n)) = some ((0x80, false, true, true)) := by
  rfl
/-- R163. -/
theorem test_adc_decimal : after ({ code [0x69, 0x01] with a := 0x99, p := { n := false, v := false, d := true, i := false, z := false, c := false } }) (fun s => (s.a, s.p.c, s.p.z)) = some ((0x00, true, true)) := by
  rfl
/-- R164. -/
theorem test_sbc_imm : after ({ code [0xE9, 0x01] with a := 0x10, p := { n := false, v := false, d := false, i := false, z := false, c := true } }) (fun s => (s.a, s.p.c, s.p.v)) = some ((0x0F, true, false)) := by
  rfl
/-- R164. -/
theorem test_sbc_overflows : after ({ code [0xE9, 0x01] with a := 0x80, p := { n := false, v := false, d := false, i := false, z := false, c := true } }) (fun s => (s.a, s.p.c, s.p.v)) = some ((0x7F, true, true)) := by
  rfl
/-- R164. -/
theorem test_sbc_decimal : after ({ code [0xE9, 0x01] with a := 0x00, p := { n := false, v := false, d := true, i := false, z := false, c := true } }) (fun s => (s.a, s.p.c, s.p.n)) = some ((0x99, false, true)) := by
  rfl
/-- R273. -/
theorem test_sbc_twin : after ({ code [0xEB, 0x01] with a := 0x10, p := { n := false, v := false, d := false, i := false, z := false, c := true } }) (fun s => (s.a, s.p.c)) = some ((0x0F, true)) := by
  rfl
/-- R170. -/
theorem test_and_imm : after ({ code [0x29, 0x0F] with a := 0xF5 }) (fun s => (s.a, s.p.z, s.p.n)) = some ((0x05, false, false)) := by
  rfl
/-- R171. -/
theorem test_ora_imm : after ({ code [0x09, 0x80] with a := 0x01 }) (fun s => (s.a, s.p.z, s.p.n)) = some ((0x81, false, true)) := by
  rfl
/-- R172. -/
theorem test_eor_imm : after ({ code [0x49, 0xFF] with a := 0xFF }) (fun s => (s.a, s.p.z, s.p.n)) = some ((0x00, true, false)) := by
  rfl
/-- R173. -/
theorem test_bit_zp : after ({ code [0x24, 0x10] 0x0010 0xC0 with a := 0x3F }) (fun s => (s.a, s.p.z, s.p.n, s.p.v)) = some ((0x3F, true, true, true)) := by
  rfl
/-- R181. -/
theorem test_asl_acc : after ({ code [0x0A] with a := 0x81 }) (fun s => (s.a, s.p.c, s.p.z, s.p.n)) = some ((0x02, true, false, false)) := by
  rfl
/-- R182. -/
theorem test_lsr_acc : after ({ code [0x4A] with a := 0x03 }) (fun s => (s.a, s.p.c)) = some ((0x01, true)) := by
  rfl
/-- R183. -/
theorem test_rol_acc : after ({ code [0x2A] with a := 0x40, p := { n := false, v := false, d := false, i := false, z := false, c := true } }) (fun s => (s.a, s.p.c, s.p.n)) = some ((0x81, false, true)) := by
  rfl
/-- R184. -/
theorem test_ror_acc : after ({ code [0x6A] with a := 0x02, p := { n := false, v := false, d := false, i := false, z := false, c := true } }) (fun s => (s.a, s.p.c, s.p.n)) = some ((0x81, false, true)) := by
  rfl
/-- R185. -/
theorem test_inc_zp : after (code [0xE6, 0x10] 0x0010 0x09) (fun s => byteAt s 0x0010) = some (some 0x0A) := by
  rfl
/-- R186. -/
theorem test_dec_zp : after (code [0xC6, 0x10]) (fun s => (byteAt s 0x0010, s.p.n, s.p.z)) = some ((some 0xFF, true, false)) := by
  rfl
/-- R187. -/
theorem test_inx : after ({ code [0xE8] with x := 0x7F }) (fun s => (s.x, s.p.n)) = some ((0x80, true)) := by
  rfl
/-- R188. -/
theorem test_iny : after ({ code [0xC8] with y := 0xFF }) (fun s => (s.y, s.p.z)) = some ((0x00, true)) := by
  rfl
/-- R189. -/
theorem test_dex : after ({ code [0xCA] with x := 0x01 }) (fun s => (s.x, s.p.z)) = some ((0x00, true)) := by
  rfl
/-- R190. -/
theorem test_dey : after ({ code [0x88] with y := 0x00 }) (fun s => (s.y, s.p.n)) = some ((0xFF, true)) := by
  rfl
/-- R201. -/
theorem test_cmp_imm : after ({ code [0xC9, 0xFF] with a := 0x01 }) (fun s => (s.p.c, s.p.z, s.p.n)) = some ((false, false, false)) := by
  rfl
/-- R202. -/
theorem test_cpx_imm : after ({ code [0xE0, 0x05] with x := 0x05 }) (fun s => (s.p.c, s.p.z, s.p.n)) = some ((true, true, false)) := by
  rfl
/-- R203. -/
theorem test_cpy_imm : after ({ code [0xC0, 0x80] with y := 0x7F }) (fun s => (s.p.c, s.p.z, s.p.n)) = some ((false, false, true)) := by
  rfl
/-- R211. -/
theorem test_bpl : after ({ code [0x10, 0x05] with p := { n := false, v := false, d := false, i := false, z := false, c := false } }) (fun s => (s.pc, s.consumed)) = some ((0x0807, 3)) := by
  rfl
/-- R212. -/
theorem test_bmi : after ({ code [0x30, 0x05] with p := { n := false, v := false, d := false, i := false, z := false, c := false } }) (fun s => (s.pc, s.consumed)) = some ((0x0802, 2)) := by
  rfl
/-- R213. -/
theorem test_bvc : after ({ code [0x50, 0xFE] with p := { n := false, v := false, d := false, i := false, z := false, c := false } }) (fun s => (s.pc, s.consumed)) = some ((0x0800, 3)) := by
  rfl
/-- R214. -/
theorem test_bvs : after ({ code [0x70, 0x02] with p := { n := false, v := true, d := false, i := false, z := false, c := false } }) (fun s => (s.pc, s.consumed)) = some ((0x0804, 3)) := by
  rfl
/-- R215. -/
theorem test_bcc : after ({ code [0x90, 0x03] with p := { n := false, v := false, d := false, i := false, z := false, c := false } }) (fun s => (s.pc, s.consumed)) = some ((0x0805, 3)) := by
  rfl
/-- R216. -/
theorem test_bcs : after ({ code [0xB0, 0x7F] with p := { n := false, v := false, d := false, i := false, z := false, c := true } }) (fun s => (s.pc, s.consumed)) = some ((0x0881, 3)) := by
  rfl
/-- R217. -/
theorem test_bne : after ({ code [0xD0, 0xFB] with p := { n := false, v := false, d := false, i := false, z := false, c := false } }) (fun s => (s.pc, s.consumed)) = some ((0x07FD, 4)) := by
  rfl
/-- R218. -/
theorem test_beq : after ({ code [0xF0, 0x80] with p := { n := false, v := false, d := false, i := false, z := true, c := false } }) (fun s => (s.pc, s.consumed)) = some ((0x0782, 4)) := by
  rfl
/-- R230. -/
theorem test_pha_wraps : after ({ code [0x48] with a := 0x42, sp := 0x00 }) (fun s => (byteAt s 0x0100, s.sp)) = some ((some 0x42, 0xFF)) := by
  rfl
/-- R231. -/
theorem test_pla : after ({ code [0x68] with a := 0x55, sp := 0xFC }) (fun s => (s.a, s.sp, s.p.z, s.p.n)) = some ((0x00, 0xFD, true, false)) := by
  rfl
/-- R232. -/
theorem test_php : after ({ code [0x08] with sp := 0xFF, p := { n := true, v := false, d := false, i := false, z := false, c := true } }) (fun s => (byteAt s 0x01FF, s.sp)) = some ((some 0xB1, 0xFE)) := by
  rfl
/-- R233. -/
theorem test_plp : after ({ code [0x28] 0x01FF 0xFF with sp := 0xFE }) (fun s => (hostReadP s, s.sp)) = some ((0xEF, 0xFF)) := by
  rfl
/-- R234. -/
theorem test_jsr : after ({ code [0x20, 0x00, 0x09] with sp := 0xFF }) (fun s => (byteAt s 0x01FF, byteAt s 0x01FE, s.sp, s.pc)) = some ((some 0x08, some 0x02, 0xFD, 0x0900)) := by
  rfl
/-- R235. -/
theorem test_rts : after ({ code [0x60] 0x01FF 0x08 with sp := 0xFD }) (fun s => (s.pc, s.sp)) = some ((0x0801, 0xFF)) := by
  rfl
/-- R237. -/
theorem test_jmp_abs : after (code [0x4C, 0x00, 0x09]) (fun s => s.pc) = some (0x0900) := by
  rfl
/-- R120. -/
theorem test_jmp_ind_wraps : after (code [0x6C, 0xFF, 0x02] 0x0200 0x12) (fun s => s.pc) = some (0x1200) := by
  rfl
/-- R238. -/
theorem test_brk : after ({ code [0x00] 0xFFFF 0x90 with sp := 0xFD, p := { n := false, v := false, d := false, i := false, z := false, c := false } }) (fun s => (byteAt s 0x01FD, byteAt s 0x01FC, byteAt s 0x01FB, s.sp, s.p.i, s.pc)) = some ((some 0x08, some 0x02, some 0x30, 0xFA, true, 0x9000)) := by
  rfl
/-- R236. -/
theorem test_rti : after ({ code [0x40] 0x01FD 0x08 with sp := 0xFA }) (fun s => (hostReadP s, s.pc, s.sp)) = some ((0x20, 0x0800, 0xFD)) := by
  rfl
/-- R246. -/
theorem test_nop : after (code [0xEA]) (fun s => (s.pc, s.cycles)) = some ((0x0801, 2)) := by
  rfl
/-- R239 to R245. -/
theorem test_clc : after ({ code [0x18] with p := { n := true, v := true, d := true, i := true, z := true, c := true } }) (fun s => s.p) = some ({ n := true, v := true, d := true, i := true, z := true, c := false }) := by
  rfl
/-- R239 to R245. -/
theorem test_sec : after ({ code [0x38] with p := { n := false, v := false, d := false, i := false, z := false, c := false } }) (fun s => s.p) = some ({ n := false, v := false, d := false, i := false, z := false, c := true }) := by
  rfl
/-- R239 to R245. -/
theorem test_cli : after ({ code [0x58] with p := { n := true, v := true, d := true, i := true, z := true, c := true } }) (fun s => s.p) = some ({ n := true, v := true, d := true, i := false, z := true, c := true }) := by
  rfl
/-- R239 to R245. -/
theorem test_sei : after ({ code [0x78] with p := { n := false, v := false, d := false, i := false, z := false, c := false } }) (fun s => s.p) = some ({ n := false, v := false, d := false, i := true, z := false, c := false }) := by
  rfl
/-- R239 to R245. -/
theorem test_clv : after ({ code [0xB8] with p := { n := true, v := true, d := true, i := true, z := true, c := true } }) (fun s => s.p) = some ({ n := true, v := false, d := true, i := true, z := true, c := true }) := by
  rfl
/-- R239 to R245. -/
theorem test_cld : after ({ code [0xD8] with p := { n := true, v := true, d := true, i := true, z := true, c := true } }) (fun s => s.p) = some ({ n := true, v := true, d := false, i := true, z := true, c := true }) := by
  rfl
/-- R239 to R245. -/
theorem test_sed : after ({ code [0xF8] with p := { n := false, v := false, d := false, i := false, z := false, c := false } }) (fun s => s.p) = some ({ n := false, v := false, d := true, i := false, z := false, c := false }) := by
  rfl
/-- R261. -/
theorem test_slo : after ({ code [0x07, 0x10] 0x0010 0x81 with a := 0x01 }) (fun s => (byteAt s 0x0010, s.a, s.p.c, s.p.n, s.p.z)) = some ((some 0x02, 0x03, true, false, false)) := by
  rfl
/-- R262. -/
theorem test_rla : after ({ code [0x27, 0x10] 0x0010 0x40 with a := 0xFF, p := { n := false, v := false, d := false, i := false, z := false, c := true } }) (fun s => (byteAt s 0x0010, s.a, s.p.c, s.p.n)) = some ((some 0x81, 0x81, false, true)) := by
  rfl
/-- R263. -/
theorem test_sre : after ({ code [0x47, 0x10] 0x0010 0x03 with a := 0x01 }) (fun s => (byteAt s 0x0010, s.a, s.p.c, s.p.z)) = some ((some 0x01, 0x00, true, true)) := by
  rfl
/-- R264. -/
theorem test_rra : after ({ code [0x67, 0x10] 0x0010 0x03 with a := 0x10, p := { n := false, v := false, d := false, i := false, z := false, c := false } }) (fun s => (byteAt s 0x0010, s.a, s.p.c, s.p.v)) = some ((some 0x01, 0x12, false, false)) := by
  rfl
/-- R265. -/
theorem test_dcp : after ({ code [0xC7, 0x10] 0x0010 0x06 with a := 0x05 }) (fun s => (byteAt s 0x0010, s.p.c, s.p.z, s.p.n)) = some ((some 0x05, true, true, false)) := by
  rfl
/-- R266. -/
theorem test_isb : after ({ code [0xE7, 0x10] 0x0010 0x0F with a := 0x20, p := { n := false, v := false, d := false, i := false, z := false, c := true } }) (fun s => (byteAt s 0x0010, s.a, s.p.c, s.p.v)) = some ((some 0x10, 0x10, true, false)) := by
  rfl
/-- R267. -/
theorem test_lax : after (code [0xA7, 0x10] 0x0010 0x80) (fun s => (s.a, s.x, s.p.n, s.p.z)) = some ((0x80, 0x80, true, false)) := by
  rfl
/-- R268. -/
theorem test_sax : after ({ code [0x87, 0x10] with a := 0xF0, x := 0x3C }) (fun s => byteAt s 0x0010) = some (some 0x30) := by
  rfl
/-- R269. -/
theorem test_anc : after ({ code [0x0B, 0x80] with a := 0xFF }) (fun s => (s.a, s.p.n, s.p.c)) = some ((0x80, true, true)) := by
  rfl
/-- R270. -/
theorem test_alr : after ({ code [0x4B, 0x03] with a := 0xFF }) (fun s => (s.a, s.p.c)) = some ((0x01, true)) := by
  rfl
/-- R271. -/
theorem test_arr : after ({ code [0x6B, 0xFF] with a := 0xC0, p := { n := false, v := false, d := false, i := false, z := false, c := true } }) (fun s => (s.a, s.p.n, s.p.c, s.p.v)) = some ((0xE0, true, true, false)) := by
  rfl
/-- R271, by hand: t = 0x69, r = 0x34, low 0x9 + 1 > 5 gives 0x3A, high 0x60 > 0x50 gives 0x9A. -/
theorem test_arr_decimal : after ({ code [0x6B, 0x69] with a := 0xFF, p := { n := false, v := false, d := true, i := false, z := false, c := false } }) (fun s => (s.a, s.p.n, s.p.c, s.p.v)) = some ((0x9A, false, true, true)) := by
  rfl
/-- R272. -/
theorem test_sbx : after ({ code [0xCB, 0x01] with a := 0xFF, x := 0x10 }) (fun s => (s.x, s.p.c)) = some ((0x0F, true)) := by
  rfl
/-- R274. -/
theorem test_nop_abs : after (code [0x0C, 0x00, 0xD0]) (fun s => (s.pc, s.consumed)) = some ((0x0803, 4)) := by
  rfl
/-- R275. -/
theorem test_las : after ({ code [0xBB, 0x10, 0x00] 0x0010 0x3C with sp := 0xF0, y := 0x00 }) (fun s => (s.a, s.x, s.sp)) = some ((0x30, 0x30, 0x30)) := by
  rfl
/-- R277. -/
theorem test_ane : after ({ code [0x8B, 0x0F] with a := 0x00, x := 0xFF }) (fun s => s.a) = some (0x0E) := by
  rfl
/-- R278. -/
theorem test_lxa : after ({ code [0xAB, 0xFF] with a := 0x00 }) (fun s => (s.a, s.x)) = some ((0xEE, 0xEE)) := by
  rfl
/-- R279. -/
theorem test_sha : after ({ code [0x9F, 0x00, 0x20] with a := 0xFF, x := 0xFF, y := 0x01 }) (fun s => byteAt s 0x2001) = some (some 0x21) := by
  rfl
/-- R280. -/
theorem test_shx : after ({ code [0x9E, 0x00, 0x40] with x := 0xFF, y := 0x00 }) (fun s => byteAt s 0x4000) = some (some 0x41) := by
  rfl
/-- R281. -/
theorem test_shy : after ({ code [0x9C, 0x00, 0x40] with x := 0x00, y := 0x0F }) (fun s => byteAt s 0x4000) = some (some 0x01) := by
  rfl
/-- R282. -/
theorem test_tas : after ({ code [0x9B, 0x00, 0x10] with a := 0xF0, x := 0x3F, y := 0x00 }) (fun s => (s.sp, byteAt s 0x1000)) = some ((0x30, some 0x10)) := by
  rfl
/-- R241. -/
theorem test_irq_after_cli : after ({ code [0x58] with pending := { reset := false, nmi := false, irq := true } }) (fun s => (byteAt s 0x01FD, byteAt s 0x01FC, s.p.i, s.cycles, s.consumed)) = some ((some 0x08, some 0x01, true, 9, 2)) := by
  rfl
/-- R307. -/
theorem test_nmi_over_irq : after ({ code [0xEA] 0xFFFA 0x90 with pending := { reset := false, nmi := true, irq := true } }) (fun s => (s.pc, s.pending)) = some ((0x0090, { reset := false, nmi := false, irq := true })) := by
  rfl
/-- R276: `02` at `0x0800`. -/
theorem test_jam : step (code [0x02]) = .fault (.invalidOpcode 0x02 0x0800) := by rfl
/-- R283. -/
theorem test_unstable_refused :
    step { code [0x8B, 0x0F] with params := Config.defaultParams } =
      .refused (.unstableOpcode 0x8B 0x0800) := by rfl
/-- R301: the fetch itself. -/
theorem test_gap : step (ramBelow 0x0800) = .fault (.addressDispatchGap 0x0800) := by rfl
/-- R78: the bank switch of the rule's worked form, shortened. -/
theorem test_bank_switch :
    (byteAt (mixed.mapRegion { id := 7, range := { start := 0xA000, size := 0x2000 }, backing := .rom [(0, 0x22)] }) 0xA000) =
      some 0x22 := by decide

/-- Page 0 is an IO region, the rest RAM. -/
def ioZeroPage : State :=
  { State.reset with
    regions :=
      [ { id := 0, range := { start := 0, size := 0x100 }, backing := .io [] },
        { id := 1, range := { start := 0x100, size := 0xFF00 }, backing := .ram [] } ]
    mapOrder := [1, 0] }

/-- A `BNE` to itself at `PC`. -/
def loopCode : State := code [0xD0, 0xFE]

/-! ### Before the first reset (R343), the spec's default policy (R349), and the ends of a run (R351) -/

theorem test_step_before_reset_faults :
    step (State.constructed Config.defaultParams) = .fault .registersUndefined := by rfl

theorem test_one_host_write_does_not_define_the_rest :
    step (hostWritePc 0x0800 (State.constructed Config.defaultParams)) = .fault .registersUndefined := by rfl

theorem test_unstable_refused_by_default :
    step (((State.resetWith Config.defaultParams).place 0x0000 0x8B).place 0x0001 0x0F) =
      .refused (.unstableOpcode 0x8B 0x0000) := by rfl

theorem test_branch_to_itself_not_taken_does_not_loop : (code [0xF0, 0xFE]).loopsInPlace = false := by rfl

/-- `JMP ($6CFF)` at `0x6C00`: the pointer's low byte is at `0x6CFF`, its high byte at `0x6C00`, the opcode itself (R120). -/
def indirectLoop : State := { ram (load 0x6C00 [0x6C, 0xFF, 0x6C] [(0x6CFF, 0x00)]) with pc := 0x6C00 }

theorem test_jump_indirect_to_itself_loops : indirectLoop.loopsInPlace = true := by rfl

theorem test_jump_indirect_to_itself_stays : after indirectLoop (fun t => (t.pc, t.consumed)) = some (0x6C00, 5) := by rfl

theorem test_jump_indirect_elsewhere_does_not_loop : (code [0x6C, 0x10, 0x00]).loopsInPlace = false := by rfl

theorem test_jump_elsewhere_does_not_loop : (code [0x4C, 0x03, 0x08]).loopsInPlace = false := by rfl

/-! ### Witnesses: for every statement with hypotheses, a state and operands that meet them -/

theorem ram_responsible (m : Memory) (a : Addr) :
    (ram m).responsible a = some { id := 0, range := { start := 0, size := 65536 }, backing := .ram m } := by
  have := a.isLt
  have h : AddressRange.holds { start := 0, size := 65536 } a = true := by
    simp only [AddressRange.holds, Bool.and_eq_true, decide_eq_true_eq]
    omega
  show (if AddressRange.holds { start := 0, size := 65536 } a = true then _ else _) = _
  rw [if_pos h]

theorem ram_mapped (m : Memory) : (ram m).FullyMapped := fun a => by rw [ram_responsible]; rfl

theorem ram_kind (m : Memory) (a : Addr) : (ram m).kindAt a = some .ram := by
  unfold State.kindAt
  rw [ram_responsible]
  rfl

theorem ram_plain (m : Memory) (a : Addr) : (ram m).PlainAt a := .inl (ram_kind m a)

theorem ram_stack (m : Memory) : (ram m).StackInRam := fun _ => ram_kind m _

theorem ram_noIo (m : Memory) : (ram m).NoIo := by
  intro r hr
  rw [List.mem_singleton.1 hr]
  intro h
  cases h

/-- A register change leaves the bus as it is: the witnesses above for a state with other registers. -/
theorem mapped_of_bus {s t : State} (hs : s.FullyMapped) (hr : t.regions = s.regions) (hm : t.mapOrder = s.mapOrder) :
    t.FullyMapped := fun a => by rw [responsible_congr hr hm]; exact hs a

theorem witness_DecodeOfEncodeIsTheInstruction : (Instr.jmpInd 0xFFFF).wf = true := by decide

theorem witness_DecodeReadsExactlyOneEncoding : decode [0x6C, 0xFF, 0x02, 0x00] = .ok (.jmpInd 0x02FF, [0x00]) := by rfl

/-- The list that ends with the operand bytes, and the one a byte too short. -/
theorem witness_DecodeReadsExactlyOneEncoding_lengths :
    (rowOf 0xAD).mode.operandBytes ≤ [(0x34 : Byte), 0x12].length ∧ [(0x34 : Byte)].length < (rowOf 0xAD).mode.operandBytes := by
  decide

theorem codeAt_one (m : Memory) (b : Byte) (h : byteAt (ram m) 0x0800 = some b) : (ram m).CodeAt [b] := by
  intro k c hk
  refine ⟨ram_plain m _, ?_⟩
  cases k with
  | zero =>
    cases hk
    unfold byteAt at h
    split at h
    · rename_i v hv
      cases h
      exact hv
    · cases h
  | succ k => cases hk

theorem witness_StepRunsTheDecodedInstruction :
    decode [0xE8] = .ok (.inx, []) ∧ Instr.inx.wf = true ∧ (code [0xE8]).CodeAt [0xE8] ∧ (code [0xE8]).defined = .all :=
  ⟨rfl, rfl, codeAt_one _ _ (by rfl), rfl⟩

/-- The code of the last witness wraps from the top of the address space. -/
theorem witness_StepRunsTheDecodedInstruction_wraps :
    decode [0xA9, 0x05] = .ok (.ldaImm 0x05, []) ∧ (Instr.ldaImm 0x05).wf = true ∧
      { ram [(0, 0x05), (0xFFFF, 0xA9)] with pc := 0xFFFF }.CodeAt [0xA9, 0x05] := by
  refine ⟨rfl, rfl, fun k b hk => ⟨ram_plain [(0, 0x05), (0xFFFF, 0xA9)] _, ?_⟩⟩
  match k with
  | 0 => cases hk; rfl
  | 1 => cases hk; rfl
  | k + 2 => cases hk

theorem witness_ResetLoadsRegistersAndVector :
    (code []).FullyMapped ∧ (ramBelow 0x1000).responsible (ramBelow 0x1000).params.vecReset = none ∧
      ((ramBelow 0xFFFD).responsible (ramBelow 0xFFFD).params.vecReset).isSome = true ∧
      (ramBelow 0xFFFD).responsible ((ramBelow 0xFFFD).params.vecReset + 1) = none :=
  ⟨ram_mapped _, by decide, by decide, by decide⟩

/-- A machine as constructed, one step after reset, a reset, and a boot whose copy ends at the last address. -/
theorem witness_StepNeedsDefinedRegisters :
    (State.constructed Config.defaultParams).defined ≠ .all ∧ (∃ t, step (code [0xEA]) = .next t) ∧
      (∃ t, resetMachine (code []) = .ok t) ∧
      ∃ t, boot Config.defaultParams [ramEverywhere] [(0xFFFA, [0x00, 0x09, 0x00, 0x08, 0x00, 0x09])] 0x0800 = .next t :=
  ⟨by decide, ⟨_, rfl⟩, ⟨_, rfl⟩, _, rfl⟩

theorem witness_StepKeepsTheBusWellFormed :
    (code [0xE6, 0x10]).busWf = true ∧ ∃ t, step (code [0xE6, 0x10]) = .next t := ⟨by decide, _, rfl⟩

theorem witness_StepKeepsEveryAddressMapped :
    (code [0x00]).FullyMapped ∧ ∃ t, step (code [0x00]) = .next t := ⟨ram_mapped _, _, rfl⟩

/-- One state for each class of opcode. -/
theorem witness_MappedStepNeverHitsAGap :
    (code [0x02]).FullyMapped ∧ (code [0x02]).defined = .all ∧ (rowOf 0x02).cls = .halt ∧ (rowOf 0x8B).cls = .unst ∧
      { code [0x8B] with params := Config.defaultParams }.FullyMapped ∧
      (code [0x8B]).params.unstable = .execute ∧ (rowOf 0xEA).cls = .doc ∧ (rowOf 0x04).cls = .undoc ∧
      byteAt (code [0x02]) (code [0x02]).pc = some 0x02 ∧ byteAt (code [0x8B]) (code [0x8B]).pc = some 0x8B ∧
      byteAt (code [0xEA]) (code [0xEA]).pc = some 0xEA :=
  ⟨ram_mapped _, rfl, rfl, rfl, mapped_of_bus (ram_mapped _) rfl rfl, rfl, rfl, rfl, by rfl, by rfl, by rfl⟩

theorem witness_StepKeepsParametersAndRegionShapes : mixed.busWf = true ∧ ∃ t, step mixed = .next t := ⟨by decide, _, rfl⟩

theorem witness_RomNeverChanges :
    (∃ t, step mixed = .next t) ∧
      ∃ r m, lookupRegion mixed.regions 2 = some r ∧ r.backing = .rom m := ⟨⟨_, rfl⟩, _, _, rfl, rfl⟩

theorem witness_DispatchTableFixedWithoutIo :
    (code [0x8D, 0x00, 0x02]).NoIo ∧ ∃ t, step (code [0x8D, 0x00, 0x02]) = .next t := ⟨ram_noIo _, _, rfl⟩

/-- A cheapest instruction, a dearest one, and a branch. -/
theorem witness_CostIsTwoToEight :
    (∃ t, exec .nop (code []) = .next t) ∧ (∃ t, exec (.isbIzy 0x10) (code []) = .next t ∧ t.consumed = 8) ∧
      (Instr.beq 0x10).row.mode = .rel ∧ ∃ t, exec (.beq 0x10) (code []) = .next t :=
  ⟨⟨_, rfl⟩, ⟨_, rfl, rfl⟩, rfl, _, rfl⟩

theorem witness_InstructionAccounting :
    ∃ t, exec (.adcImm 0x01) { code [] with p := { (code []).p with d := true } } = .next t := ⟨_, rfl⟩

/-- One pending set and flag for each clause. -/
theorem witness_CheckServicesOneRequest :
    ∃ a b c d e f : State,
      a.pending.reset = true ∧ (b.pending.reset = false ∧ b.pending.nmi = true) ∧
        (c.pending.reset = false ∧ c.pending.nmi = false ∧ c.pending.irq = true ∧ c.p.i = false) ∧
        (d.pending.reset = false ∧ d.pending.nmi = false ∧ d.pending.irq = true ∧ d.p.i = true ∧ d.params.irqMasked = .drop) ∧
        (e.pending.reset = false ∧ e.pending.nmi = false ∧ e.pending.irq = true ∧ e.p.i = true ∧ e.params.irqMasked = .keep) ∧
        f.pending = { reset := false, nmi := false, irq := false } :=
  ⟨{ State.reset with pending := { reset := true, nmi := true, irq := true } },
    { State.reset with pending := { reset := false, nmi := true, irq := true } },
    { State.reset with
      pending := { reset := false, nmi := false, irq := true }, p := { State.reset.p with i := false } },
    { State.reset with
      pending := { reset := false, nmi := false, irq := true }, params := { Config.defaultParams with irqMasked := .drop } },
    { State.reset with pending := { reset := false, nmi := false, irq := true } }, State.reset,
    rfl, ⟨rfl, rfl⟩, ⟨rfl, rfl, rfl, rfl⟩, ⟨rfl, rfl, rfl, rfl, rfl⟩, ⟨rfl, rfl, rfl, rfl, rfl⟩, rfl⟩

theorem witness_StepTakesAtMostOneRequest :
    ∃ t, step { code [0x58] with pending := { reset := false, nmi := false, irq := true } } = .next t := ⟨_, rfl⟩

/-- At the `SP` where the three slots wrap. -/
theorem witness_TrapEntrySavesPcAndFlags :
    { code [] with sp := 0x01 }.busWf = true ∧ { code [] with sp := 0x01 }.FullyMapped ∧
      { code [] with sp := 0x01 }.StackInRam := ⟨by decide, mapped_of_bus (ram_mapped _) rfl rfl, ram_stack _⟩

theorem witness_ReturnAfterTrapRestores :
    (code []).busWf = true ∧ (code []).FullyMapped ∧ (code []).StackInRam := ⟨by decide, ram_mapped _, ram_stack _⟩

theorem witness_ReturnAfterCallRestores :
    { code [] with sp := 0x00 }.busWf = true ∧ { code [] with sp := 0x00 }.StackInRam := ⟨by decide, ram_stack _⟩

theorem witness_RamWriteIsReadBackRomWriteIsDiscarded :
    mixed.busWf = true ∧ mixed.kindAt 0x7FFF = some .ram ∧ mixed.kindAt 0xC000 = some .rom := by decide

/-- The first and the last address of an IO region, and a region that still answers after a write to it. -/
theorem witness_IoAccessesRunTheRegionsHooks :
    mixed.kindAt 0x8000 = some .io ∧ mixed.kindAt 0xBFFF = some .io ∧
      ((mixed.setBacking 1 (.io [.write 0 0x41])).responsible 0x8000).map Region.id = some 1 := by decide

theorem witness_UnmappedAccessRaisesTheGap :
    (ramBelow 0xFFFF).responsible 0xFFFF = none ∧ (0xFFFF : Addr).toNat + [(0x01 : Byte)].length ≤ 65536 := by decide

theorem witness_MostRecentMappingWins :
    lookupRegion mixed.regions 7 = none ∧
      ({ id := 7, range := { start := 0xFFFF, size := 1 }, backing := .rom [(0, 0x22)] } : Region).wf = true ∧
      (lookupRegion mixed.regions 1).isSome = true := by decide

/-- At the top of the address space, where the second address wraps. -/
theorem witness_WordAccessIsLittleEndian :
    (code []).PlainAt 0xFFFF ∧ (code []).PlainAt (0xFFFF + 1) ∧ diagRead (code []) 0xFFFF = .ok 0x00 ∧
      diagRead (code []) (0xFFFF + 1) = .ok 0x00 ∧ (code []).busWf = true ∧ (code []).kindAt 0xFFFF = some .ram ∧
      (code []).kindAt (0xFFFF + 1) = some .ram :=
  ⟨ram_plain _ _, ram_plain _ _, rfl, rfl, by decide, ram_kind _ _, ram_kind _ _⟩

/-- A copy that ends at the last address, one that would pass it, and copies that come to IO and to ROM. -/
theorem witness_BulkCopyStoresTheBytes :
    ((code []).busWf = true ∧ (0xFFFE : Addr).toNat + [(0x01 : Byte), 0x02].length ≤ 65536 ∧
        ∀ k : Nat, k < [(0x01 : Byte), 0x02].length → (code []).kindAt (0xFFFE + BitVec.ofNat 16 k) = some .ram) ∧
      65536 < (0xFFFF : Addr).toNat + [(0x01 : Byte), 0x02].length ∧
      (mixed.kindAt (0x7FFF + BitVec.ofNat 16 0) = some .ram ∧ mixed.kindAt (0x7FFF + BitVec.ofNat 16 1) = some .io) ∧
      mixed.kindAt (0xC000 + BitVec.ofNat 16 0) = some .rom :=
  ⟨⟨by decide, by decide, fun _ _ => ram_kind _ _⟩, by decide, by decide, by decide⟩

theorem witness_PushThenPullRestores :
    (∃ t, memWrite { code [] with sp := 0x00 } (wordOf 0x01 0x00) 0x42 = .ok t) ∧
      (∃ r, memRead { code [] with sp := 0xFF + 1 } (wordOf 0x01 (0xFF + 1)) = .ok r) ∧ (code []).busWf = true ∧
      (code []).kindAt (wordOf (code []).params.stackPage (code []).sp) = some .ram :=
  ⟨⟨_, rfl⟩, ⟨_, rfl⟩, by decide, ram_kind _ _⟩

/-- The bounds of packed BCD. -/
theorem witness_DecimalAdditionAndSubtraction : validBcd 0x99 = true ∧ validBcd 0x00 = true := by decide
theorem witness_BcdRoundTrip : validBcd 0x15 = true ∧ validBcd 0x27 = true := by decide

/-- A pointer whose second byte wraps to the start of page 0, in RAM, and one that an IO region answers. -/
theorem witness_EffectiveAddresses :
    (∃ l h, memRead (code [] 0x00FF 0x34) (BitVec.ofNat 16 ((0xF0 + 0x0F) % 256)) = .ok l ∧
        memRead l.state (BitVec.ofNat 16 ((0xF0 + 0x0F + 1) % 256)) = .ok h ∧ l.val = 0x34 ∧ h.val = 0x00) ∧
      ∃ l h, memRead ioZeroPage (BitVec.ofNat 16 0xFF) = .ok l ∧
        memRead l.state (BitVec.ofNat 16 ((0xFF + 1) % 256)) = .ok h :=
  ⟨⟨_, _, rfl, rfl, rfl, rfl⟩, _, _, rfl, rfl⟩

/-- A jump to itself, a taken branch to itself, and a run that has ended. -/
theorem witness_RunEndsInPlaceOrAtAStop :
    decode [0xD0, 0xFE] = .ok (.bne 0xFE, []) ∧ loopCode.CodeAt [0xD0, 0xFE] ∧
      jumpsToItself (.bne 0xFE) loopCode = true ∧ loopCode.defined = .all ∧
      loopCode.pending = { reset := false, nmi := false, irq := false } ∧ loopCode.ended 0x0900 = true ∧
      (∃ t, runTo 0x0802 3 (code [0xEA, 0xEA]) = .next t ∧ t.pc = 0x0802) ∧
      (code [0x4C, 0x00, 0x08]).loopsInPlace = true ∧ indirectLoop.PlainAt 0x6CFF ∧
      diagRead indirectLoop 0x6CFF = .ok (lo indirectLoop.pc) ∧ diagRead indirectLoop 0x6C00 = .ok (hi indirectLoop.pc) := by
  refine ⟨rfl, fun k b hk => ⟨ram_plain _ _, ?_⟩, rfl, rfl, rfl, rfl, ⟨_, rfl, rfl⟩, rfl, ram_plain _ _, rfl, rfl⟩
  match k with
  | 0 => cases hk; rfl
  | 1 => cases hk; rfl
  | k + 2 => cases hk

/-! The families: an instruction of each mnemonic, in a form the statement is about, on a state that is mapped. -/

theorem witness_Loads :
    (Instr.ldaIzx 0x10).mnemonic = .LDA ∧ (Instr.ldaIzx 0x10).row.mode ≠ .imp ∧
      (Instr.ldxImm 0x10).mnemonic = .LDX ∧ (Instr.ldxImm 0x10).row.mode ≠ .imp ∧
      (Instr.ldyImm 0x10).mnemonic = .LDY ∧ (Instr.ldyImm 0x10).row.mode ≠ .imp ∧ (code []).FullyMapped :=
  ⟨rfl, by decide, rfl, by decide, rfl, by decide, ram_mapped _⟩

theorem witness_Transfers :
    Instr.tax.mnemonic = .TAX ∧ Instr.tax.row.mode = .imp ∧ Instr.tay.mnemonic = .TAY ∧
      Instr.tay.row.mode = .imp ∧ Instr.txa.mnemonic = .TXA ∧ Instr.txa.row.mode = .imp ∧
      Instr.tya.mnemonic = .TYA ∧ Instr.tya.row.mode = .imp ∧ Instr.tsx.mnemonic = .TSX ∧
      Instr.tsx.row.mode = .imp ∧ Instr.txs.mnemonic = .TXS ∧ Instr.txs.row.mode = .imp :=
  ⟨rfl, rfl, rfl, rfl, rfl, rfl, rfl, rfl, rfl, rfl, rfl, rfl⟩

theorem witness_Stores :
    (Instr.staIzx 0x10).mnemonic = .STA ∧ (Instr.stxZp 0x10).mnemonic = .STX ∧
      (Instr.styZp 0x10).mnemonic = .STY ∧ (Instr.saxIzx 0x10).mnemonic = .SAX ∧ (code []).FullyMapped :=
  ⟨rfl, rfl, rfl, rfl, ram_mapped _⟩

theorem witness_AdcAddsWithCarry :
    (Instr.adcIzx 0x10).mnemonic = .ADC ∧ (code []).FullyMapped ∧ (code []).p.d = false ∧ { code [] with a := 0x99, p := { (code []).p with d := true } }.p.d = true ∧
      validBcd 0x99 = true :=
  ⟨rfl, ram_mapped _, rfl, rfl, rfl⟩

theorem witness_SbcSubtractsWithBorrow :
    (Instr.sbcIzx 0x10).mnemonic = .SBC ∧ (code []).FullyMapped ∧ (code []).p.d = false ∧ { code [] with a := 0x99, p := { (code []).p with d := true } }.p.d = true ∧
      validBcd 0x99 = true :=
  ⟨rfl, ram_mapped _, rfl, rfl, rfl⟩

theorem witness_LogicAndBitTest :
    (Instr.andIzx 0x10).mnemonic = .AND ∧ (Instr.andIzx 0x10).row.mode ≠ .imp ∧
      (Instr.oraIzx 0x10).mnemonic = .ORA ∧ (Instr.oraIzx 0x10).row.mode ≠ .imp ∧
      (Instr.eorIzx 0x10).mnemonic = .EOR ∧ (Instr.eorIzx 0x10).row.mode ≠ .imp ∧
      (Instr.bitZp 0x10).mnemonic = .BIT ∧ (Instr.bitZp 0x10).row.mode ≠ .imp ∧ (code []).FullyMapped :=
  ⟨rfl, by decide, rfl, by decide, rfl, by decide, rfl, by decide, ram_mapped _⟩

theorem witness_ShiftsAndRotates_memory :
    (Instr.aslZp 0x10).mnemonic = .ASL ∧ (Instr.aslZp 0x10).row.mode ≠ .acc ∧ (Instr.lsrZp 0x10).mnemonic = .LSR ∧
      (Instr.lsrZp 0x10).row.mode ≠ .acc ∧ (Instr.rolZp 0x10).mnemonic = .ROL ∧ (Instr.rolZp 0x10).row.mode ≠ .acc ∧
      (Instr.rorZp 0x10).mnemonic = .ROR ∧ (Instr.rorZp 0x10).row.mode ≠ .acc ∧ (code []).FullyMapped :=
  ⟨rfl, by decide, rfl, by decide, rfl, by decide, rfl, by decide, ram_mapped _⟩

theorem witness_ShiftsAndRotates_accumulator :
    Instr.aslAcc.mnemonic = .ASL ∧ Instr.aslAcc.row.mode = .acc ∧ Instr.lsrAcc.mnemonic = .LSR ∧
      Instr.lsrAcc.row.mode = .acc ∧ Instr.rolAcc.mnemonic = .ROL ∧ Instr.rolAcc.row.mode = .acc ∧
      Instr.rorAcc.mnemonic = .ROR ∧ Instr.rorAcc.row.mode = .acc :=
  ⟨rfl, rfl, rfl, rfl, rfl, rfl, rfl, rfl⟩

theorem witness_IncrementsAndDecrementsOfMemory :
    (Instr.incZp 0x10).mnemonic = .INC ∧ (Instr.incZp 0x10).row.mode ≠ .acc ∧ (Instr.decZp 0x10).mnemonic = .DEC ∧
      (Instr.decZp 0x10).row.mode ≠ .acc ∧ (code []).FullyMapped :=
  ⟨rfl, by decide, rfl, by decide, ram_mapped _⟩

theorem witness_IncrementsAndDecrementsOfRegisters :
    Instr.inx.mnemonic = .INX ∧ Instr.inx.row.mode = .imp ∧ Instr.iny.mnemonic = .INY ∧
      Instr.iny.row.mode = .imp ∧ Instr.dex.mnemonic = .DEX ∧ Instr.dex.row.mode = .imp ∧
      Instr.dey.mnemonic = .DEY ∧ Instr.dey.row.mode = .imp :=
  ⟨rfl, rfl, rfl, rfl, rfl, rfl, rfl, rfl⟩

theorem witness_Compares :
    (Instr.cmpIzx 0x10).mnemonic = .CMP ∧ (Instr.cmpIzx 0x10).row.mode ≠ .imp ∧
      (Instr.cpxImm 0x10).mnemonic = .CPX ∧ (Instr.cpxImm 0x10).row.mode ≠ .imp ∧
      (Instr.cpyImm 0x10).mnemonic = .CPY ∧ (Instr.cpyImm 0x10).row.mode ≠ .imp ∧ (code []).FullyMapped :=
  ⟨rfl, by decide, rfl, by decide, rfl, by decide, ram_mapped _⟩

theorem witness_Branches :
    (Instr.bpl 0x10).mnemonic = .BPL ∧ (Instr.bmi 0x10).mnemonic = .BMI ∧ (Instr.bvc 0x10).mnemonic = .BVC ∧
      (Instr.bvs 0x10).mnemonic = .BVS ∧ (Instr.bcc 0x10).mnemonic = .BCC ∧ (Instr.bcs 0x10).mnemonic = .BCS ∧
      (Instr.bne 0x10).mnemonic = .BNE ∧ (Instr.beq 0x10).mnemonic = .BEQ ∧ (!State.reset.p.z) = true ∧
      State.reset.p.z = false ∧ hi (0x0802 + (0x7F : Byte).signExtend 16) = hi 0x0802 ∧
      hi (0x0802 + (0x80 : Byte).signExtend 16) ≠ hi 0x0802 :=
  ⟨rfl, rfl, rfl, rfl, rfl, rfl, rfl, rfl, rfl, rfl, by decide, by decide⟩

theorem witness_PushesAndPulls : (code []).FullyMapped := ram_mapped _

theorem witness_JumpsAndSubroutines : (code []).FullyMapped := ram_mapped _

theorem witness_BreakAndReturnFromInterrupt : (code []).FullyMapped := ram_mapped _

theorem witness_FlagInstructionsAndNop :
    Instr.clc.mnemonic = .CLC ∧ Instr.clc.row.mode = .imp ∧ Instr.sec.mnemonic = .SEC ∧
      Instr.sec.row.mode = .imp ∧ Instr.cli.mnemonic = .CLI ∧ Instr.cli.row.mode = .imp ∧
      Instr.sei.mnemonic = .SEI ∧ Instr.sei.row.mode = .imp ∧ Instr.clv.mnemonic = .CLV ∧
      Instr.clv.row.mode = .imp ∧ Instr.cld.mnemonic = .CLD ∧ Instr.cld.row.mode = .imp ∧
      Instr.sed.mnemonic = .SED ∧ Instr.sed.row.mode = .imp :=
  ⟨rfl, rfl, rfl, rfl, rfl, rfl, rfl, rfl, rfl, rfl, rfl, rfl, rfl, rfl⟩

theorem witness_ReadModifyWriteComposites :
    (Instr.sloIzx 0x10).mnemonic = .SLO ∧ (Instr.rlaIzx 0x10).mnemonic = .RLA ∧
      (Instr.sreIzx 0x10).mnemonic = .SRE ∧ (Instr.rraIzx 0x10).mnemonic = .RRA ∧
      (Instr.dcpIzx 0x10).mnemonic = .DCP ∧ (Instr.isbIzx 0x10).mnemonic = .ISB ∧ (code []).FullyMapped ∧
      { code [] with a := 0x99, p := { (code []).p with d := true } }.p.d = true :=
  ⟨rfl, rfl, rfl, rfl, rfl, rfl, ram_mapped _, rfl⟩

theorem witness_LaxLoadsTwice :
    (Instr.laxIzx 0x10).mnemonic = .LAX ∧ (code []).FullyMapped :=
  ⟨rfl, ram_mapped _⟩

theorem witness_NopsReadAndForget_operand :
    (Instr.nopAbx1C 0x0210).mnemonic = .NOP ∧ (Instr.nopAbx1C 0x0210).row.mode ≠ .imp ∧ (code []).FullyMapped :=
  ⟨rfl, by decide, ram_mapped _⟩

theorem witness_NopsReadAndForget_implied :
    Instr.nop1A.mnemonic = .NOP ∧ Instr.nop1A.row.mode = .imp :=
  ⟨rfl, rfl⟩

theorem witness_OtherUndocumentedOperations :
    (Instr.ancImm0B 0x10).mnemonic = .ANC ∧ (Instr.ancImm0B 0x10).row.mode ≠ .imp ∧
      (Instr.alrImm 0x10).mnemonic = .ALR ∧ (Instr.alrImm 0x10).row.mode ≠ .imp ∧
      (Instr.arrImm 0x10).mnemonic = .ARR ∧ (Instr.arrImm 0x10).row.mode ≠ .imp ∧
      (Instr.sbxImm 0x10).mnemonic = .SBX ∧ (Instr.sbxImm 0x10).row.mode ≠ .imp ∧
      (Instr.lasAby 0x0210).mnemonic = .LAS ∧ (Instr.lasAby 0x0210).row.mode ≠ .imp ∧ (code []).FullyMapped :=
  ⟨rfl, by decide, rfl, by decide, rfl, by decide, rfl, by decide, rfl, by decide, ram_mapped _⟩

theorem witness_UnstableOpcodesUnderExecute :
    (Instr.shaIzy 0x10).mnemonic = .SHA ∧ (Instr.shxAby 0x0210).mnemonic = .SHX ∧
      (Instr.shyAbx 0x0210).mnemonic = .SHY ∧ (Instr.tasAby 0x0210).mnemonic = .TAS ∧ (code []).FullyMapped ∧
      (code []).params.unstable = .execute :=
  ⟨rfl, rfl, rfl, rfl, ram_mapped _, rfl⟩

theorem witness_HaltAndRefusedOpcodesStop :
    Instr.jam02.mnemonic = .JAM ∧ (code [0x02]).CodeAt [Instr.jam02.opcode] ∧ (code [0x02]).defined = .all ∧
      (Instr.aneImm 0x0F).row.cls = .unst ∧ Config.defaultParams.unstable = .refuse :=
  ⟨rfl, codeAt_one _ _ (by rfl), rfl, rfl, rfl⟩

/-! The frames: an instruction that answers a next state, outside each list of writers. -/

theorem witness_FlagsWrittenOnlyByTheirWriters :
    (∃ t, exec (.staZp 0x10) (code []) = .next t) ∧ (∃ t, exec .txs (code []) = .next t) ∧
      ∃ t, exec (.bne 0x02) (code []) = .next t := ⟨⟨_, rfl⟩, ⟨_, rfl⟩, _, rfl⟩

theorem witness_RegistersWrittenOnlyByTheirWriters :
    (∃ t, exec (.aslZp 0x10) (code []) = .next t) ∧ (Instr.aslZp 0x10).row.mode ≠ .acc ∧
      ∃ t, exec (.cmpImm 0x10) (code []) = .next t := ⟨⟨_, rfl⟩, by decide, _, rfl⟩

theorem witness_ReadingInstructionsStoreNothing :
    writesMemory (.cmpAbs 0x0210) = false ∧ (∃ t, exec (.cmpAbs 0x0210) (code []) = .next t) ∧
      writesMemory .aslAcc = false ∧ ∃ t, exec .aslAcc (code []) = .next t := ⟨rfl, ⟨_, rfl⟩, rfl, _, rfl⟩

/-- A store, a read-modify-write, and an unstable store whose address is replaced on a page crossing. -/
theorem witness_StoresChangeOneByte :
    (∃ r t, (Instr.staAbs 0x0210).memOperand = some (.abs 0x0210) ∧ effAddr (.abs 0x0210) ((code []).advance 3) = .ok r ∧
        (code []).kindAt r.ea ≠ some .io ∧ exec (.staAbs 0x0210) (code []) = .next t) ∧
      (∃ r t, (Instr.incAbx 0x0210).memOperand = some (.abx 0x0210) ∧ effAddr (.abx 0x0210) ((code []).advance 3) = .ok r ∧
        (code []).kindAt r.ea ≠ some .io ∧ exec (.incAbx 0x0210) (code []) = .next t) ∧
      ∃ r t, (Instr.shxAby 0x02FF).memOperand = some (.aby 0x02FF) ∧
        effAddr (.aby 0x02FF) ({ code [] with y := 0x01 }.advance 3) = .ok r ∧ r.crossed = true ∧
        { code [] with y := 0x01 }.kindAt (unstableStore 0x00 r.ea r.crossed).2 ≠ some .io ∧
        exec (.shxAby 0x02FF) { code [] with y := 0x01 } = .next t :=
  ⟨⟨_, _, rfl, rfl, by decide, rfl⟩, ⟨_, _, rfl, rfl, by decide, rfl⟩, _, _, rfl, rfl, by decide, by decide, rfl⟩

/-- At the `SP` where the slots wrap. -/
theorem witness_PushesChangeTheirSlotsOnly :
    (∀ n : Byte, { code [] with sp := 0x00 }.kindAt (wordOf 0x01 (0x00 - n)) ≠ some .io) ∧
      (∃ t, exec .pha { code [] with sp := 0x00 } = .next t) ∧ (∃ t, exec .php { code [] with sp := 0x00 } = .next t) ∧
      (∃ t, exec (.jsrAbs 0x0900) { code [] with sp := 0x00 } = .next t) ∧
      ∃ t, exec .brk { code [] with sp := 0x00 } = .next t :=
  ⟨fun n => by
      have h : State.kindAt { code [] with sp := 0x00 } (wordOf 0x01 (0x00 - n)) = some .ram := ram_kind _ _
      rw [h]
      decide,
    ⟨_, rfl⟩, ⟨_, rfl⟩, ⟨_, rfl⟩, _, rfl⟩

end Sys2Proof.Tests
end

