-- ==== Sys2Proof/Proofs/RegionShapes.lean ====
section
/-!
PROOFS. Obligation O12: what a step never changes, the parameters and the shapes of the region list. An access keeps the
shapes on a well-formed bus only, where an identifier names one region, so the two are carried as one invariant.
-/

namespace Sys2Proof.Machine

/-! ### The shapes of the region list -/

/-- An identifier names one region of the list, and its storage is replaced by storage of its kind. -/
theorem replaceBacking_shapes {rs : List Region} {g : Region} {b : Backing} (hn : (rs.map Region.id).Nodup)
    (hg : g ∈ rs) (hb : b.kind = g.kind) : (replaceBacking rs g.id b).map Region.shape = rs.map Region.shape := by
  unfold replaceBacking
  rw [List.map_map]
  refine List.map_congr_left fun r hr => ?_
  show (r.replaced g.id b).shape = r.shape
  unfold Region.replaced
  split
  · rename_i hid
    have hrg : r = g := List.inj_on_of_nodup_map hn hr hg hid
    simpa [Region.shape, hrg, Region.kind] using hb
  · rfl

theorem setBacking_shapes {s : State} {a : Addr} {g : Region} {b : Backing} (hw : s.busWf = true)
    (hg : s.responsible a = some g) (hb : b.kind = g.kind) :
    (s.setBacking g.id b).regions.map Region.shape = s.regions.map Region.shape :=
  replaceBacking_shapes ((busWf_iff s).1 hw).1 (lookupRegion_mem (responsible_some hg).1) hb

theorem remaps_regions (l : List Nat) (s : State) : (l.foldl State.remap s).regions = s.regions := by
  induction l generalizing s with
  | nil => rfl
  | cons i l ih => rw [List.foldl_cons, ih, State.remap_regions]

/-! ### What the accesses keep -/

theorem memRead_shapes {s : State} {a : Addr} {r : BusRead} (hw : s.busWf = true) (h : memRead s a = .ok r) :
    r.state.regions.map Region.shape = s.regions.map Region.shape := by
  obtain ⟨g, hg, ⟨-, hs, -⟩ | ⟨hist, hb, -, hs⟩⟩ := memRead_ok h <;> rw [hs]
  exact setBacking_shapes hw hg (congrArg Backing.kind hb).symm

/-- The remaps of a write hook reorder the regions and change none (log entry 4). -/
theorem memWrite_shapes {s t : State} {a : Addr} {v : Byte} (hw : s.busWf = true) (h : memWrite s a v = .ok t) :
    t.regions.map Region.shape = s.regions.map Region.shape := by
  obtain ⟨g, hg, ⟨m, hb, hs⟩ | ⟨m, -, hs⟩ | ⟨hist, hb, hs⟩⟩ := memWrite_ok h <;> rw [hs]
  · exact setBacking_shapes hw hg (congrArg Backing.kind hb).symm
  · rw [remaps_regions]
    exact setBacking_shapes hw hg (congrArg Backing.kind hb).symm

/-- The bus is well formed, and its regions have these identifiers, ranges and kinds, in this order. -/
def State.WfWithShapes (shapes : List (Nat × AddressRange × RegionKind)) (s : State) : Prop :=
  s.busWf = true ∧ s.regions.map Region.shape = shapes

theorem wfWithShapes_invariant (shapes : List (Nat × AddressRange × RegionKind)) :
    BusInvariant (State.WfWithShapes shapes) where
  frame := fun hr hm ⟨hw, hs⟩ => ⟨busWf_invariant.frame hr hm hw, hr ▸ hs⟩
  read := fun h ⟨hw, hs⟩ => ⟨busWf_invariant.read h hw, (memRead_shapes hw h).trans hs⟩
  write := fun h ⟨hw, hs⟩ => ⟨busWf_invariant.write h hw, (memWrite_shapes hw h).trans hs⟩

/-! ### What a step keeps -/

theorem step_shapes {s t : State} (hw : s.busWf = true) (h : step s = .next t) :
    t.regions.map Region.shape = s.regions.map Region.shape :=
  (step_keeps (wfWithShapes_invariant (s.regions.map Region.shape)) h ⟨hw, rfl⟩).2

/-- Not even a reset loads a parameter: it reads them (R7). -/
theorem interruptCheck_params {s t : State} (h : interruptCheck s = .ok t) : t.params = s.params := by
  rcases interruptCheck_ok h with ⟨-, h⟩ | ⟨-, -, h⟩ | ⟨-, -, -, -, h⟩ | ⟨-, -, -, -, -, rfl⟩ | ⟨-, -, -, rfl⟩
  · exact (resetMachine_sameButBus h).params_eq
  · exact (trap_sameButBus h).params_eq
  · exact (trap_sameButBus h).params_eq
  · rfl
  · rfl

theorem step_params {s t : State} (h : step s = .next t) : t.params = s.params := by
  obtain ⟨-, f, u, hf, hu, ht⟩ := step_next h
  obtain ⟨⟨hp, -⟩, -⟩ := exec_accounted hu
  calc t.params = u.params := interruptCheck_params ht
    _ = f.state.params := hp
    _ = s.params := (fetch_sameButBus hf).params_eq

/-- Settles O12: a well-formed bus with the shapes it began with is kept by every access, and so by every step; the fetch,
the instruction and the check each leave the parameters. -/
theorem stepKeepsParametersAndRegionShapes : Obligations.StepKeepsParametersAndRegionShapes :=
  fun _ _ hw h => ⟨step_params h, step_shapes hw h⟩

end Sys2Proof.Machine
end

