-- ==== Sys2Proof/Proofs/Writers.lean ====
section
/-!
PROOFS. Obligations O16, O56 and O57: what an instruction may write. `exec_unwritten` says it for every field at once, from
what each handler leaves; the statements read it off.
-/

namespace Sys2Proof.Machine

/-! ### A part of the state that a shape leaves -/

/-- A part of the state in which neither the bus nor the accounting shows. -/
structure BesideBus {α : Type} (φ : State → α) : Prop where
  bus : ∀ {s t : State}, SameButBus s t → φ t = φ s
  account : ∀ (s : State) (n : Nat), φ (s.account n) = φ s

/-- The bytes of an instruction of a shape. -/
def Shape.len : Shape → Nat
  | .implied _ _ => 1
  | .stack _ _ => 1
  | .read src _ _ _ => src.len
  | .readTwice o _ _ _ _ => o.len
  | .store o _ _ => o.len
  | .modify o _ _ => o.len
  | .modifyRead o _ _ _ => o.len
  | .branch _ _ => 2
  | .jump _ _ => 3
  | .jumpIndirect _ _ => 3
  | .call _ _ => 3
  | .unstableRead _ src _ _ => src.len
  | .unstableStore _ o _ _ _ => o.len
  | .halt _ => 1

/-- The shape of an instruction is as long as the matrix says (R90). -/
theorem shapeOf_len (i : Instr) : (shapeOf i i.mnemonic).len = i.row.len := by
  cases i <;> rfl

/-- A read-modify-write leaves `φ`: of the registers it writes the flags alone. -/
def Modify.Leaves {α : Type} (φ : State → α) (f : Modify) : Prop := ∀ v s, φ (s.withFlags (f v s.p).2) = φ s

/-- What fills the shape leaves `φ`. -/
def Shape.Leaves {α : Type} (φ : State → α) : Shape → Prop
  | .implied _ f => ∀ s, φ (f s) = φ s
  | .stack _ f => ∀ s t, f s = .ok t → φ t = φ s
  | .read _ _ _ op => ∀ v s, φ (op v s) = φ s
  | .readTwice _ _ _ first second => (∀ v s, φ (first v s) = φ s) ∧ ∀ v s, φ (second v s) = φ s
  | .store _ _ _ => True
  | .modify _ _ f => Modify.Leaves φ f
  | .modifyRead _ _ f op => Modify.Leaves φ f ∧ ∀ v s, φ (op v s) = φ s
  | .branch _ _ => ∀ s w, φ { s with pc := w } = φ s
  | .jump _ _ => ∀ s w, φ { s with pc := w } = φ s
  | .jumpIndirect _ _ => ∀ s w, φ { s with pc := w } = φ s
  | .call _ _ => ∀ s v w, φ { s with sp := v, pc := w } = φ s
  | .unstableRead _ _ _ op => ∀ v s, φ (op v s) = φ s
  | .unstableStore _ _ _ before _ => ∀ s, φ (before s) = φ s
  | .halt _ => True

section
variable {α : Type} {φ : State → α} {s t : State}

theorem modifyMem_leaves (hφ : BesideBus φ) {f : Modify} (hf : Modify.Leaves φ f) {ea : Addr}
    (h : modifyMem f ea s = .ok t) : φ t = φ s := by
  obtain ⟨old, v, u, ho, hv, hu, rfl⟩ := modifyMem_ok h
  have hb := ((memRead_sameButBus ho).trans (memWrite_sameButBus hv)).trans (memWrite_sameButBus hu)
  rw [← hb.p_eq, hf, hφ.bus hb]

theorem runRead_leaves (hφ : BesideBus φ) {src : Src} {cyc : Nat} {pp : Bool} {op : Byte → State → State}
    (hop : ∀ v s, φ (op v s) = φ s) (h : runRead src cyc pp op s = .next t) : φ t = φ (s.advance src.len) := by
  obtain ⟨r, hr, rfl⟩ := runRead_next h
  rw [hφ.account, hop, hφ.bus (readSrc_sameButBus hr)]

/-- What the fillers of a shape leave, the instruction leaves: nothing else happens than `PC` moving past its bytes. -/
theorem Shape.run_leaves (hφ : BesideBus φ) {sh : Shape} (hsh : sh.Leaves φ) (h : sh.run s = .next t) :
    φ t = φ (s.advance sh.len) := by
  cases sh with
  | implied cyc f =>
    cases (runImplied_eq cyc f).symm.trans h
    exact (hφ.account _ _).trans (hsh _)
  | stack cyc f =>
    obtain ⟨u, hu, rfl⟩ := runStack_next h
    exact (hφ.account _ _).trans (hsh _ _ hu)
  | read => exact runRead_leaves hφ hsh h
  | readTwice =>
    obtain ⟨r, b, c, hr, hb, hc, rfl⟩ := runReadTwice_next h
    rw [hφ.account, hsh.2, hφ.bus (memRead_sameButBus hc), hsh.1,
      hφ.bus ((effAddr_sameButBus hr).trans (memRead_sameButBus hb))]
    rfl
  | store =>
    obtain ⟨r, u, hr, hu, rfl⟩ := runStore_next h
    rw [hφ.account, hφ.bus ((effAddr_sameButBus hr).trans (memWrite_sameButBus hu))]
    rfl
  | modify =>
    obtain ⟨r, u, hr, hu, rfl⟩ := runModify_next h
    rw [hφ.account, modifyMem_leaves hφ hsh hu, hφ.bus (effAddr_sameButBus hr)]
    rfl
  | modifyRead =>
    obtain ⟨r, u, b, hr, hu, hb, rfl⟩ := runModifyRead_next h
    rw [hφ.account, hsh.2, hφ.bus (memRead_sameButBus hb), modifyMem_leaves hφ hsh.1 hu, hφ.bus (effAddr_sameButBus hr)]
    rfl
  | branch cond off =>
    cases (runBranch_eq cond off).symm.trans h
    exact (hφ.account _ _).trans ((hsh s _).trans (hsh s _).symm)
  | jump w cyc =>
    cases (runJump_eq w cyc).symm.trans h
    exact (hφ.account _ _).trans ((hsh s _).trans (hsh s _).symm)
  | jumpIndirect =>
    obtain ⟨r, hr, rfl⟩ := runJumpIndirect_next h
    rw [hφ.account, hsh, hφ.bus (indirectTarget_sameButBus hr)]
    rfl
  | call w cyc =>
    obtain ⟨u, hu, rfl⟩ := runCall_next h
    exact (hφ.account _ _).trans ((hφ.bus ((pushWord_sameButBus hu).withPc w)).trans (hsh (s.advance 3) _ _))
  | unstableRead => exact runRead_leaves hφ hsh (underPolicy_next h).2
  | unstableStore =>
    obtain ⟨r, u, hr, hu, rfl⟩ := runUnstableStore_next (underPolicy_next h).2
    rw [hφ.account, hφ.bus (memWrite_sameButBus hu), hsh, hφ.bus (effAddr_sameButBus hr)]
    rfl
  | halt => cases h

end

/-! ### From what a handler leaves to what its mnemonic's shape leaves -/

section
variable (i : Instr) {α : Type} {φ : State → α}

theorem readShape_leaves {op : Byte → State → State} (h : ∀ v s, φ (op v s) = φ s) : (readShape i op).Leaves φ := by
  unfold readShape; split
  · exact h
  · exact h 0

theorem readTwiceShape_leaves {first second : Byte → State → State} (h : ∀ v s, φ (first v s) = φ s)
    (k : ∀ v s, φ (second v s) = φ s) : (readTwiceShape i first second).Leaves φ := by
  unfold readTwiceShape; split
  · exact ⟨h, k⟩
  · trivial

theorem storeShape_leaves (val : State → Byte) : (storeShape i val).Leaves φ := by
  unfold storeShape; split <;> trivial

theorem modifyReadShape_leaves {f : Modify} {op : Byte → State → State} (h : Modify.Leaves φ f)
    (k : ∀ v s, φ (op v s) = φ s) : (modifyReadShape i f op).Leaves φ := by
  unfold modifyReadShape; split
  · exact ⟨h, k⟩
  · trivial

theorem branchShape_leaves (cond : Flags → Bool) (h : ∀ s w, φ { s with pc := w } = φ s) :
    (branchShape i cond).Leaves φ := by
  unfold branchShape; split
  · exact h
  · trivial

theorem jumpShape_leaves (h : ∀ s w, φ { s with pc := w } = φ s) : (jumpShape i).Leaves φ := by
  unfold jumpShape; split
  · split <;> exact h
  · trivial

theorem callShape_leaves (h : ∀ s v w, φ { s with sp := v, pc := w } = φ s) : (callShape i).Leaves φ := by
  unfold callShape; split
  · exact h
  · trivial

theorem unstableReadShape_leaves {op : Byte → State → State} (h : ∀ v s, φ (op v s) = φ s) :
    (unstableReadShape i op).Leaves φ := by
  unfold unstableReadShape; split
  · exact h
  · trivial

theorem unstableStoreShape_leaves {before : State → State} (h : ∀ s, φ (before s) = φ s) (val : State → Byte) :
    (unstableStoreShape i before val).Leaves φ := by
  unfold unstableStoreShape; split
  · exact h
  · trivial

end

/-! ### The writers of each field -/

/-- The writers of `C` (R34). -/
def cWriters : List Mnemonic :=
  [.ADC, .SBC, .ASL, .LSR, .ROL, .ROR, .CMP, .CPX, .CPY, .CLC, .SEC, .PLP, .RTI, .SLO, .RLA, .SRE, .RRA, .DCP, .ISB, .ANC,
    .ALR, .ARR, .SBX]

/-- The writers of `Z` and of `N` (R34). -/
def znWriters : List Mnemonic :=
  [.LDA, .LDX, .LDY, .TAX, .TAY, .TXA, .TYA, .TSX, .PLA, .ADC, .SBC, .AND, .ORA, .EOR, .BIT, .ASL, .LSR, .ROL, .ROR, .INC,
    .DEC, .INX, .INY, .DEX, .DEY, .CMP, .CPX, .CPY, .PLP, .RTI, .SLO, .RLA, .SRE, .RRA, .DCP, .ISB, .LAX, .ANC, .ALR, .ARR,
    .SBX, .LAS, .ANE, .LXA]

/-- The writers of `I` (R34). -/
def iWriters : List Mnemonic := [.SEI, .CLI, .PLP, .RTI, .BRK]

/-- The writers of `D` (R34). -/
def dWriters : List Mnemonic := [.SED, .CLD, .PLP, .RTI]

/-- The writers of `V` (R34). -/
def vWriters : List Mnemonic := [.ADC, .SBC, .BIT, .CLV, .PLP, .RTI, .RRA, .ISB, .ARR]

/-- The writers of `A` in every form (R21, R261 to R278). -/
def aWriters : List Mnemonic :=
  [.LDA, .TXA, .TYA, .PLA, .ADC, .SBC, .AND, .ORA, .EOR, .SLO, .RLA, .SRE, .RRA, .ISB, .LAX, .ANC, .ALR, .ARR, .LAS, .ANE,
    .LXA]

/-- The read-modify-writes, which write `A` where they have no memory operand (R180). -/
def modifiers : List Mnemonic := [.ASL, .LSR, .ROL, .ROR, .INC, .DEC]

/-- The writers of `X` (R22). -/
def xWriters : List Mnemonic := [.LDX, .TAX, .TSX, .INX, .DEX, .LAX, .LXA, .SBX, .LAS]

/-- The writers of `Y` (R23). -/
def yWriters : List Mnemonic := [.LDY, .TAY, .INY, .DEY]

/-- The writers of `SP` (R24). -/
def spWriters : List Mnemonic := [.TXS, .TAS, .LAS, .PHA, .PHP, .PLA, .PLP, .JSR, .RTS, .RTI, .BRK]

/-- The jumps, calls and returns: beside the branches, what does more with `PC` than advance it (R25, R26). -/
def pcWriters : List Mnemonic := [.JMP, .JSR, .RTS, .RTI, .BRK]

/-- The branches (R211 to R218). -/
def branches : List Mnemonic := [.BPL, .BMI, .BVC, .BVS, .BCC, .BCS, .BNE, .BEQ]

/-- The instructions that may draw a free value (log entry 3). -/
def drawers : List Mnemonic := [.ADC, .SBC, .RRA, .ISB]

/-- The state with every field at a fixed value that an instruction of this mnemonic may write; `acc` says that it has no
memory operand. -/
def unwritten (m : Mnemonic) (acc : Bool) (s : State) : State :=
  { s with
    a := if m ∈ aWriters ∨ m ∈ modifiers ∧ acc = true then 0 else s.a
    x := if m ∈ xWriters then 0 else s.x
    y := if m ∈ yWriters then 0 else s.y
    sp := if m ∈ spWriters then 0 else s.sp
    pc := if m ∈ pcWriters ∨ m ∈ branches then 0 else s.pc
    p :=
      { n := if m ∈ znWriters then false else s.p.n
        v := if m ∈ vWriters then false else s.p.v
        d := if m ∈ dWriters then false else s.p.d
        i := if m ∈ iWriters then false else s.p.i
        z := if m ∈ znWriters then false else s.p.z
        c := if m ∈ cWriters then false else s.p.c }
    cycles := 0
    regions := []
    mapOrder := []
    consumed := 0
    draws := if m ∈ drawers then 0 else s.draws }

theorem unwritten_besideBus (m : Mnemonic) (acc : Bool) : BesideBus (unwritten m acc) where
  bus := by
    intro s t h
    unfold SameButBus at h
    rw [h]
    rfl
  account := fun _ _ => rfl

/-! ### Each handler writes what its mnemonic may write -/

section
variable (b : Bool)

theorem opAdc_unwritten (m : Mnemonic) (hm : m = .ADC ∨ m = .RRA) (v : Byte) (s : State) :
    unwritten m b (opAdc v s) = unwritten m b s := by
  unfold opAdc
  split <;> rcases hm with rfl | rfl <;> rfl

theorem opSbc_unwritten (m : Mnemonic) (hm : m = .SBC ∨ m = .ISB) (v : Byte) (s : State) :
    unwritten m b (opSbc v s) = unwritten m b s := by
  unfold opSbc
  split <;> rcases hm with rfl | rfl <;> rfl

theorem opArr_unwritten (v : Byte) (s : State) : unwritten .ARR b (opArr v s) = unwritten .ARR b s := by
  unfold opArr
  dsimp only
  split <;> rfl

/-- A handler that uses the bus: from `u` to `v` the bus alone changes, and before and after that only what is written. -/
theorem unwritten_around_bus {m : Mnemonic} {s u v t : State} (h : SameButBus u v)
    (before : unwritten m b u = unwritten m b s) (after : unwritten m b t = unwritten m b v) :
    unwritten m b t = unwritten m b s :=
  after.trans (((unwritten_besideBus m b).bus h).trans before)

theorem stPla_unwritten {s t : State} (h : stPla s = .ok t) : unwritten .PLA b t = unwritten .PLA b s := by
  obtain ⟨v, hv, rfl⟩ := stPla_ok h
  exact unwritten_around_bus b (pull_sameButBus hv) rfl rfl

theorem stPlp_unwritten {s t : State} (h : stPlp s = .ok t) : unwritten .PLP b t = unwritten .PLP b s := by
  obtain ⟨v, hv, rfl⟩ := stPlp_ok h
  exact unwritten_around_bus b (pull_sameButBus hv) rfl rfl

theorem stRts_unwritten {s t : State} (h : stRts s = .ok t) : unwritten .RTS b t = unwritten .RTS b s := by
  obtain ⟨r, hr, rfl⟩ := stRts_ok h
  exact unwritten_around_bus b (pullWord_sameButBus hr) rfl rfl

end

/-- The accumulator form writes `A` beside the flags, and the tables allow it where there is no memory operand. -/
theorem modifyShape_leaves (i : Instr) {m : Mnemonic} {f : Modify} (hm : m ∈ modifiers)
    (h : ∀ b, Modify.Leaves (unwritten m b) f) : (modifyShape i f).Leaves (unwritten m i.memOperand.isNone) := by
  unfold modifyShape
  split
  · exact h _
  · rename_i hn
    intro s
    have ha : unwritten m true (modifyAcc f s) = unwritten m true (s.withFlags (f s.a s.p).2) := by
      simp [unwritten, modifyAcc, hm]
    rw [hn]
    exact ha.trans (h true _ _)

/-- No handler writes more than the tables allow its mnemonic. -/
theorem shapeOf_leaves (i : Instr) (m : Mnemonic) : (shapeOf i m).Leaves (unwritten m i.memOperand.isNone) := by
  cases m
  case ADC => exact readShape_leaves i (opAdc_unwritten _ _ (.inl rfl))
  case ALR => exact readShape_leaves i fun _ _ => rfl
  case ANC => exact readShape_leaves i fun _ _ => rfl
  case AND => exact readShape_leaves i fun _ _ => rfl
  case ANE => exact unstableReadShape_leaves i fun _ _ => rfl
  case ARR => exact readShape_leaves i (opArr_unwritten _)
  case ASL => exact modifyShape_leaves i (by decide) fun _ _ _ => rfl
  case BCC => exact branchShape_leaves i _ fun _ _ => rfl
  case BCS => exact branchShape_leaves i _ fun _ _ => rfl
  case BEQ => exact branchShape_leaves i _ fun _ _ => rfl
  case BIT => exact readShape_leaves i fun _ _ => rfl
  case BMI => exact branchShape_leaves i _ fun _ _ => rfl
  case BNE => exact branchShape_leaves i _ fun _ _ => rfl
  case BPL => exact branchShape_leaves i _ fun _ _ => rfl
  case BRK => exact fun _ _ h => unwritten_around_bus _ (trap_sameButBus h) rfl rfl
  case BVC => exact branchShape_leaves i _ fun _ _ => rfl
  case BVS => exact branchShape_leaves i _ fun _ _ => rfl
  case CLC => exact fun _ => rfl
  case CLD => exact fun _ => rfl
  case CLI => exact fun _ => rfl
  case CLV => exact fun _ => rfl
  case CMP => exact readShape_leaves i fun _ _ => rfl
  case CPX => exact readShape_leaves i fun _ _ => rfl
  case CPY => exact readShape_leaves i fun _ _ => rfl
  case DCP => exact modifyReadShape_leaves i (fun _ _ => rfl) fun _ _ => rfl
  case DEC => exact modifyShape_leaves i (by decide) fun _ _ _ => rfl
  case DEX => exact fun _ => rfl
  case DEY => exact fun _ => rfl
  case EOR => exact readShape_leaves i fun _ _ => rfl
  case INC => exact modifyShape_leaves i (by decide) fun _ _ _ => rfl
  case INX => exact fun _ => rfl
  case INY => exact fun _ => rfl
  case ISB => exact modifyReadShape_leaves i (fun _ _ => rfl) (opSbc_unwritten _ _ (.inr rfl))
  case JAM => exact trivial
  case JMP => exact jumpShape_leaves i fun _ _ => rfl
  case JSR => exact callShape_leaves i fun _ _ _ => rfl
  case LAS => exact readShape_leaves i fun _ _ => rfl
  case LAX => exact readTwiceShape_leaves i (fun _ _ => rfl) fun _ _ => rfl
  case LDA => exact readShape_leaves i fun _ _ => rfl
  case LDX => exact readShape_leaves i fun _ _ => rfl
  case LDY => exact readShape_leaves i fun _ _ => rfl
  case LSR => exact modifyShape_leaves i (by decide) fun _ _ _ => rfl
  case LXA => exact unstableReadShape_leaves i fun _ _ => rfl
  case NOP => exact readShape_leaves i fun _ _ => rfl
  case ORA => exact readShape_leaves i fun _ _ => rfl
  case PHA => exact fun _ _ h => unwritten_around_bus _ (push_sameButBus h) rfl rfl
  case PHP => exact fun _ _ h => unwritten_around_bus _ (push_sameButBus h) rfl rfl
  case PLA => exact fun _ _ h => stPla_unwritten _ h
  case PLP => exact fun _ _ h => stPlp_unwritten _ h
  case RLA => exact modifyReadShape_leaves i (fun _ _ => rfl) fun _ _ => rfl
  case ROL => exact modifyShape_leaves i (by decide) fun _ _ _ => rfl
  case ROR => exact modifyShape_leaves i (by decide) fun _ _ _ => rfl
  case RRA => exact modifyReadShape_leaves i (fun _ _ => rfl) (opAdc_unwritten _ _ (.inr rfl))
  case RTI => exact fun _ _ h => unwritten_around_bus _ (returnFromTrap_sameButBus h) rfl rfl
  case RTS => exact fun _ _ h => stRts_unwritten _ h
  case SAX => exact storeShape_leaves i _
  case SBC => exact readShape_leaves i (opSbc_unwritten _ _ (.inl rfl))
  case SBX => exact readShape_leaves i fun _ _ => rfl
  case SEC => exact fun _ => rfl
  case SED => exact fun _ => rfl
  case SEI => exact fun _ => rfl
  case SHA => exact unstableStoreShape_leaves i (before := id) (fun _ => rfl) valSax
  case SHX => exact unstableStoreShape_leaves i (before := id) (fun _ => rfl) valStx
  case SHY => exact unstableStoreShape_leaves i (before := id) (fun _ => rfl) valSty
  case SLO => exact modifyReadShape_leaves i (fun _ _ => rfl) fun _ _ => rfl
  case SRE => exact modifyReadShape_leaves i (fun _ _ => rfl) fun _ _ => rfl
  case STA => exact storeShape_leaves i _
  case STX => exact storeShape_leaves i _
  case STY => exact storeShape_leaves i _
  case TAS => exact unstableStoreShape_leaves i (before := opTas) (fun _ => rfl) State.sp
  case TAX => exact fun _ => rfl
  case TAY => exact fun _ => rfl
  case TSX => exact fun _ => rfl
  case TXA => exact fun _ => rfl
  case TXS => exact fun _ => rfl
  case TYA => exact fun _ => rfl

/-- Every instruction leaves what its mnemonic may not write, and moves `PC` past its bytes. -/
theorem exec_unwritten {i : Instr} {s t : State} (h : exec i s = .next t) :
    unwritten i.mnemonic i.memOperand.isNone t = unwritten i.mnemonic i.memOperand.isNone (s.advance i.row.len) := by
  have := Shape.run_leaves (unwritten_besideBus _ _) (shapeOf_leaves i _) (exec_eq_shape i s ▸ h)
  rwa [shapeOf_len] at this

/-! ### What the matrix says of the forms -/

/-- Of the read-modify-writes with no memory operand all are accumulator forms, and none is `INC` or `DEC` (R95). -/
theorem modifier_without_memory {i : Instr} (hm : i.mnemonic ∈ modifiers) (ho : i.memOperand.isNone = true) :
    i.row.mode = .acc ∧ i.mnemonic ∈ [.ASL, .LSR, .ROL, .ROR] := by
  have rows : ∀ op : Byte, (rowOf op).mnemonic ∈ modifiers → (rowOf op).mode ∈ [.imp, .acc, .imm, .rel, .ind] →
      (rowOf op).mode = .acc ∧ (rowOf op).mnemonic ∈ [.ASL, .LSR, .ROL, .ROR] := by decide
  refine rows i.opcode hm (by_contra fun hmode => ?_)
  obtain ⟨o, h⟩ := memOperand_isSome hmode
  rw [h] at ho
  cases ho

/-- Every branch has the relative mode (R95). -/
theorem branch_mode {i : Instr} (h : i.mnemonic ∈ branches) : i.row.mode = .rel :=
  (by decide : ∀ op : Byte, (rowOf op).mnemonic ∈ branches → (rowOf op).mode = .rel) i.opcode h

/-! ### Flags and registers -/

/-- Two fields that are equal where they may have been written are equal where they may not. -/
theorem eq_of_unwritten {α : Type} {P : Prop} [Decidable P] {c x y : α} (hP : ¬ P)
    (h : (if P then c else x) = if P then c else y) : x = y := by
  rwa [if_neg hP, if_neg hP] at h

/-- Settles O56: each flag is a field of what `exec_unwritten` compares, for every mnemonic outside its list. -/
theorem flagsWrittenOnlyByTheirWriters : Obligations.FlagsWrittenOnlyByTheirWriters := by
  intro i s t h
  have e := exec_unwritten h
  refine ⟨fun hc => ?_, fun hzn => ⟨?_, ?_⟩, fun hi => ?_, fun hd => ?_, fun hv => ?_⟩
  · exact eq_of_unwritten hc (congrArg (fun u => u.p.c) e)
  · exact eq_of_unwritten hzn (congrArg (fun u => u.p.z) e)
  · exact eq_of_unwritten hzn (congrArg (fun u => u.p.n) e)
  · exact eq_of_unwritten hi (congrArg (fun u => u.p.i) e)
  · exact eq_of_unwritten hd (congrArg (fun u => u.p.d) e)
  · exact eq_of_unwritten hv (congrArg (fun u => u.p.v) e)

/-- Settles O57: each register is a field of what `exec_unwritten` compares, for every mnemonic and form outside its list. -/
theorem registersWrittenOnlyByTheirWriters : Obligations.RegistersWrittenOnlyByTheirWriters := by
  intro i s t h
  have e := exec_unwritten h
  refine ⟨fun ha hacc => ?_, fun hx => ?_, fun hy => ?_, fun hsp => ?_, fun hpc hrel => ?_⟩
  · have hn : ¬ (i.mnemonic ∈ aWriters ∨ i.mnemonic ∈ modifiers ∧ i.memOperand.isNone = true) := by
      rintro (hw | ⟨hm, ho⟩)
      · exact ha hw
      · obtain ⟨hmode, hshift⟩ := modifier_without_memory hm ho
        exact hacc hshift hmode
    exact eq_of_unwritten hn (congrArg State.a e)
  · exact eq_of_unwritten hx (congrArg State.x e)
  · exact eq_of_unwritten hy (congrArg State.y e)
  · exact eq_of_unwritten hsp (congrArg State.sp e)
  · have hn : ¬ (i.mnemonic ∈ pcWriters ∨ i.mnemonic ∈ branches) := by
      rintro (hw | hb)
      · exact hpc hw
      · exact hrel (branch_mode hb)
    exact eq_of_unwritten hn (congrArg State.pc e)

/-! ### The draw counter -/

theorem opAdc_draws (v : Byte) (s : State) : (opAdc v s).draws = s.draws + bit s.p.d := by
  unfold opAdc
  split <;> rename_i hd
  · rw [hd]; rfl
  · rw [eq_false_of_ne_true hd]; rfl

theorem opSbc_draws (v : Byte) (s : State) : (opSbc v s).draws = s.draws + bit s.p.d := by
  unfold opSbc
  split <;> rename_i hd
  · rw [hd]; rfl
  · rw [eq_false_of_ne_true hd]; rfl

section
variable {i : Instr} {s t : State} {op : Byte → State → State} (hop : ∀ v s, (op v s).draws = s.draws + bit s.p.d)
include hop

theorem readShape_draws (h : (readShape i op).run s = .next t) : t.draws = s.draws + bit s.p.d := by
  unfold readShape at h
  split at h
  · obtain ⟨r, hr, rfl⟩ := runRead_next h
    have hb := readSrc_sameButBus hr
    rw [State.account_draws, hop, hb.draws_eq, hb.p_eq]
    rfl
  · cases (runImplied_eq _ _).symm.trans h
    exact hop _ _

theorem modifyReadShape_draws {f : Modify} (hf : ∀ v p, (f v p).2.d = p.d) (h : (modifyReadShape i f op).run s = .next t) :
    t.draws = s.draws + bit s.p.d := by
  unfold modifyReadShape at h
  split at h
  · obtain ⟨r, u, b, hr, hu, hb, rfl⟩ := runModifyRead_next h
    have hd : u.p.d = r.state.p.d := by
      obtain ⟨old, v, w, -, -, -, rfl⟩ := modifyMem_ok hu
      exact hf _ _
    have h1 := effAddr_sameButBus hr
    have h3 := memRead_sameButBus hb
    rw [State.account_draws, hop, h3.draws_eq, h3.p_eq, hd, (modifyMem_sameButBus hu).draws_eq, State.withFlags_draws,
      h1.draws_eq, h1.p_eq]
    rfl
  · cases h

end

/-- Decimal arithmetic draws once (log entry 3). -/
theorem exec_draws {i : Instr} {s t : State} (h : exec i s = .next t) (hm : i.mnemonic ∈ drawers) :
    t.draws = s.draws + bit s.p.d := by
  rw [exec_eq_shape] at h
  simp only [drawers, List.mem_cons, List.not_mem_nil, or_false] at hm
  rcases hm with hm | hm | hm | hm <;> rw [hm] at h
  · exact readShape_draws opAdc_draws h
  · exact readShape_draws opSbc_draws h
  · exact modifyReadShape_draws opAdc_draws (fun _ _ => rfl) h
  · exact modifyReadShape_draws opSbc_draws (fun _ _ => rfl) h

/-- Settles O16: the accounting is `exec_accounted`; the draw counter is written by four mnemonics, each by its decimal
path. -/
theorem instructionAccounting : Obligations.InstructionAccounting := by
  intro i s t h
  obtain ⟨hparams, hpending, hdefined, hcycles⟩ := (exec_accounted h).1
  refine ⟨hcycles, hpending, hparams, hdefined, ?_⟩
  by_cases hm : i.mnemonic ∈ drawers
  · rw [exec_draws h hm]
    exact congrArg _ (if_congr (and_iff_left hm).symm rfl rfl)
  · rw [if_neg fun hd => hm hd.2]
    exact eq_of_unwritten hm (congrArg State.draws (exec_unwritten h))

end Sys2Proof.Machine
end

