-- ==== Sys2Proof/Proofs/FlagsByte.lean ====
section
/-!
PROOFS. Obligation O29: the flags byte, bit by bit.
-/

namespace Sys2Proof.Machine

/-- The eight bits of the flags byte (R31). -/
theorem pack_getLsbD_of_lt (n v d i z c : Bool) (k : Fin 8) :
    (Flags.pack { n := n, v := v, d := d, i := i, z := z, c := c }).getLsbD k.val =
      if k.val = 7 then n else if k.val = 6 then v else if k.val = 3 then d else if k.val = 2 then i
      else if k.val = 1 then z else if k.val = 0 then c else false := by
  revert n v d i z c k
  decide

/-- Above bit 7 a byte has no bits. -/
theorem pack_getLsbD (p : Flags) (k : Nat) :
    p.pack.getLsbD k =
      if k = 7 then p.n else if k = 6 then p.v else if k = 3 then p.d else if k = 2 then p.i
      else if k = 1 then p.z else if k = 0 then p.c else false := by
  by_cases hk : k < 8
  · exact pack_getLsbD_of_lt p.n p.v p.d p.i p.z p.c ⟨k, hk⟩
  · rw [BitVec.getLsbD_of_ge _ _ (by omega)]
    simp [show k ≠ 7 ∧ k ≠ 6 ∧ k ≠ 3 ∧ k ≠ 2 ∧ k ≠ 1 ∧ k ≠ 0 by omega]

/-- `LoadP` restores the six flags from a byte whose bits are theirs, whatever bits 5 and 4 are (R32). -/
theorem ofByte_pack_or (p : Flags) (b : Byte)
    (h : ∀ k ∈ [7, 6, 3, 2, 1, 0], b.getLsbD k = false) : Flags.ofByte (p.pack ||| b) = p := by
  simp only [List.forall_mem_cons, List.not_mem_nil, false_implies, implies_true, and_true] at h
  obtain ⟨hn, hv, hd, hi, hz, hc⟩ := h
  simp only [Flags.ofByte, BitVec.getLsbD_or, pack_getLsbD, hn, hv, hd, hi, hz, hc, Bool.or_false]
  simp

/-- `LoadP` of a byte keeps its six flag bits (R32). -/
theorem pack_ofByte (b : Byte) : (Flags.ofByte b).pack = b &&& 0xCF := by
  refine BitVec.eq_of_getLsbD_eq fun k hk => ?_
  rw [pack_getLsbD, BitVec.getLsbD_and]
  interval_cases k <;> simp [Flags.ofByte]

/-- Settles O29: the bits of the packed byte are listed once, and each other clause reads them. -/
theorem flagsBytePacksAndUnpacks : Obligations.FlagsBytePacksAndUnpacks := by
  refine ⟨pack_getLsbD, fun p => ⟨rfl, rfl⟩, fun p => ⟨?_, ?_⟩, pack_ofByte, fun p v => ?_, fun b s => ?_⟩
  · exact ofByte_pack_or p 0x30 (by decide)
  · exact ofByte_pack_or p 0x20 (by decide)
  · rw [← beq_eq_decide]
    rfl
  · exact congrArg (· ||| 0x20) (pack_ofByte b)

end Sys2Proof.Machine
end

