-- ==== Sys2Proof/Proofs/ResetState.lean ====
section
/-!
PROOFS. Obligations O5 and O6: the state right after reset.
-/

namespace Sys2Proof.Machine

/-- Settles O5: each value is the one `State.resetWith` and the defaults of R7 are written with. -/
theorem resetStateValues : Obligations.ResetStateValues := by
  refine ⟨fun q => ?_, rfl, rfl, rfl, rfl, rfl, rfl, ?_⟩
  · exact ⟨rfl, rfl, rfl, rfl, rfl, rfl, rfl, rfl, rfl, rfl, rfl, rfl, rfl⟩
  · decide

/-- The one RAM region over all addresses answers each of them (R7). -/
theorem reset_responsible (a : Addr) : State.reset.responsible a = some ramEverywhere := by
  have ha : ramEverywhere.range.holds a = true := holds_iff.2 ⟨Nat.zero_le _, a.isLt⟩
  exact if_pos ha

/-- Settles O6: the bus holds RAM everywhere, and nothing else. -/
theorem resetMeetsTheInvariants : Obligations.ResetMeetsTheInvariants := by
  refine ⟨reset_busWf, fun a => ?_, fun r hr => ?_, fun b => kindAt_of_responsible (reset_responsible _)⟩
  · rw [reset_responsible]
    rfl
  · rw [List.mem_singleton.1 hr]
    decide

end Sys2Proof.Machine
end

