-- ==== Sys2Proof/Proofs/StackSlots.lean ====
section
/-!
PROOFS. Obligations O28 and O60: a push and the pull that undoes it, and the slots that the pushing instructions change.
-/

namespace Sys2Proof.Machine

/-! ### A push and a pull -/

theorem SameButBus.stackAddr_eq {s t : State} (h : SameButBus s t) : t.stackAddr = s.stackAddr := by
  unfold State.stackAddr
  rw [h.params_eq, h.sp_eq]

/-- The increment of a pull undoes the decrement of a push, and the slot is the one pushed to (R27, R28). -/
theorem pull_after_decrement (u : State) : pull { u with sp := u.sp - 1 } = memRead u u.stackAddr := by
  change memRead { u with sp := u.sp - 1 + 1 } (wordOf u.params.stackPage (u.sp - 1 + 1)) = _
  rw [BitVec.sub_add_cancel]
  rfl

/-- Settles O28: the slot is RAM before and after the push, so the byte written there is the byte read back. -/
theorem pushThenPullRestores : Obligations.PushThenPullRestores := by
  refine ⟨fun s t v h => ?_, fun s r h => h, fun s v hw hk => ?_⟩
  · rw [← (memWrite_sameButBus h).sp_eq]
    exact bind_of_ok h
  · obtain ⟨u, hu, huk, hud⟩ := memWrite_ram v hw hk
    have hb := memWrite_sameButBus hu
    have hread : memRead u u.stackAddr = .ok { val := v, state := u } := by
      rw [hb.stackAddr_eq]
      exact memRead_of_diagRead (.inl huk) hud
    exact ⟨_, _, bind_of_ok hu, (pull_after_decrement u).trans hread, rfl, hb.sp_eq⟩

/-! ### The slots of the pushing instructions -/

/-- The slot of the push after `n` pushes from `s` on. -/
def State.slot (s : State) (n : Byte) : Addr := wordOf s.params.stackPage (s.sp - n)

theorem stackAddr_eq_slot (s : State) : s.stackAddr = s.slot 0 := by
  simp [State.stackAddr, State.slot]

/-- A push to one of the slots leaves framed what was framed outside them. -/
theorem FrameOutside.push {slots : List Addr} {s u t : State} {v : Byte} (f : FrameOutside slots s u)
    (h : push u v = .ok t) (hslot : u.stackAddr ∈ slots) (hk : s.kindAt u.stackAddr ≠ some .io) :
    FrameOutside slots s t :=
  f.trans ((push_frame h (by rwa [(f.2 _).1])).mono (by simpa using hslot))

theorem pushWord_frame {s t : State} {v : Addr} (h : pushWord s v = .ok t) (h0 : s.kindAt (s.slot 0) ≠ some .io)
    (h1 : s.kindAt (s.slot 1) ≠ some .io) : FrameOutside [s.slot 0, s.slot 1] s t := by
  obtain ⟨u, hu, ht⟩ := pushWord_ok h
  have first : s.stackAddr = s.slot 0 := stackAddr_eq_slot s
  have second : u.stackAddr = s.slot 1 := (push_sameButBus hu).stackAddr_eq
  have f : FrameOutside [s.slot 0, s.slot 1] s u :=
    (FrameOutside.of_bus_eq rfl rfl).push hu (by simp [first]) (by rwa [first])
  exact f.push ht (by simp [second]) (by rwa [second])

theorem trap_frame {kind : TrapKind} {s t : State} (h : trap kind s = .ok t) (h0 : s.kindAt (s.slot 0) ≠ some .io)
    (h1 : s.kindAt (s.slot 1) ≠ some .io) (h2 : s.kindAt (s.slot 2) ≠ some .io) :
    FrameOutside [s.slot 0, s.slot 1, s.slot 2] s t := by
  obtain ⟨u, w, v, hu, hw, hv, rfl⟩ := trap_ok h
  have third : u.stackAddr = s.slot 2 := (pushWord_sameButBus hu).stackAddr_eq
  have fu : FrameOutside [s.slot 0, s.slot 1, s.slot 2] s u := (pushWord_frame hu h0 h1).mono (by simp)
  have fw := fu.push hw (by simp [third]) (by rwa [third])
  exact (fw.trans (.of_bus_eq rfl rfl)).trans ((memReadWord_frame hv _).trans (.of_bus_eq rfl rfl))

section
variable {i : Instr} {s t : State}

theorem exec_pha_php_frame (hi : i = .pha ∨ i = .php) (h : exec i s = .next t) (h0 : s.kindAt (s.slot 0) ≠ some .io) :
    FrameOutside [s.slot 0] s t := by
  obtain ⟨v, u, hu, rfl⟩ : ∃ v u, push (s.advance 1) v = .ok u ∧ t = u.account 3 := by
    rcases hi with rfl | rfl
    · exact ⟨s.a, runStack_next h⟩
    · exact ⟨s.p.softwareByte, runStack_next h⟩
  have first : (s.advance 1).stackAddr = s.slot 0 := stackAddr_eq_slot s
  have advanced : FrameOutside [s.slot 0] s (s.advance 1) := .of_bus_eq rfl rfl
  exact (advanced.push hu (by simp [first]) (by rwa [first])).trans (.of_bus_eq rfl rfl)

theorem exec_jsr_frame (hi : i.mnemonic = .JSR) (h : exec i s = .next t) (h0 : s.kindAt (s.slot 0) ≠ some .io)
    (h1 : s.kindAt (s.slot 1) ≠ some .io) : FrameOutside [s.slot 0, s.slot 1] s t := by
  rw [exec_eq_shape, hi] at h
  change (callShape i).run s = .next t at h
  unfold callShape at h
  split at h
  · obtain ⟨u, hu, rfl⟩ := runCall_next h
    exact (pushWord_frame hu h0 h1).trans (.of_bus_eq rfl rfl)
  · cases h

theorem exec_brk_frame (h : exec .brk s = .next t) (h0 : s.kindAt (s.slot 0) ≠ some .io)
    (h1 : s.kindAt (s.slot 1) ≠ some .io) (h2 : s.kindAt (s.slot 2) ≠ some .io) :
    FrameOutside [s.slot 0, s.slot 1, s.slot 2] s t := by
  obtain ⟨u, hu, rfl⟩ := runStack_next h
  exact (trap_frame hu h0 h1 h2).trans (.of_bus_eq rfl rfl)

end

/-- Settles O60: each push changes its own slot at most, and the slots go down with `SP`. -/
theorem pushesChangeTheirSlotsOnly : Obligations.PushesChangeTheirSlotsOnly := by
  intro i s t
  refine ⟨fun hi h0 h a ha => ?_, fun hi h0 h1 h a ha hb => ?_, fun hi h0 h1 h2 h a ha hb hc => ?_⟩
  · exact (exec_pha_php_frame hi h h0).plain (List.mem_singleton.not.2 ha)
  · have slots : a ∉ [s.slot 0, s.slot 1] := List.not_mem_cons_of_ne_of_not_mem ha (List.mem_singleton.not.2 hb)
    exact (exec_jsr_frame hi h h0 h1).plain slots
  · have slots : a ∉ [s.slot 0, s.slot 1, s.slot 2] :=
      List.not_mem_cons_of_ne_of_not_mem ha (List.not_mem_cons_of_ne_of_not_mem hb (List.mem_singleton.not.2 hc))
    subst hi
    exact (exec_brk_frame h h0 h1 h2).plain slots

end Sys2Proof.Machine
end

