-- ==== Sys2Proof/Proofs/DispatchTable.lean ====
section
/-!
PROOFS. Obligation O14: with no IO region nothing remaps. The dispatch table alone is no invariant of the accesses, so it is
carried together with the absence of IO regions.
-/

namespace Sys2Proof.Machine

/-- With no IO region a bus-level read changes nothing. -/
theorem memRead_noIo {s : State} {a : Addr} {r : BusRead} (hn : s.NoIo) (h : memRead s a = .ok r) : r.state = s := by
  obtain ⟨g, hg, ⟨-, hs, -⟩ | ⟨hist, hb, -, -⟩⟩ := memRead_ok h
  · exact hs
  · exact absurd (congrArg Backing.kind hb) (hn g (lookupRegion_mem (responsible_some hg).1))

/-- With no IO region a bus-level write changes at most the storage of one RAM region. -/
theorem memWrite_noIo {s t : State} {a : Addr} {v : Byte} (hn : s.NoIo) (h : memWrite s a v = .ok t) :
    t = s ∨ ∃ g m, s.responsible a = some g ∧ g.kind = .ram ∧ t = s.setBacking g.id (.ram m) := by
  obtain ⟨g, hg, ⟨m, hb, hs⟩ | ⟨m, -, hs⟩ | ⟨hist, hb, -⟩⟩ := memWrite_ok h
  · exact .inr ⟨g, _, hg, congrArg Backing.kind hb, hs⟩
  · exact .inl hs
  · exact absurd (congrArg Backing.kind hb) (hn g (lookupRegion_mem (responsible_some hg).1))

theorem noIo_setBacking {s : State} {i : Nat} {m : Memory} (hn : s.NoIo) : (s.setBacking i (.ram m)).NoIo := by
  intro r hr
  obtain ⟨q, hq, rfl⟩ := List.mem_map.1 hr
  unfold Region.replaced
  split
  · exact nofun
  · exact hn q hq

/-- The region that answers an address keeps its shape when storage is replaced by storage of its kind. -/
theorem responsible_shape_setBacking {s : State} {w : Addr} {g : Region} {b : Backing} (hg : s.responsible w = some g)
    (hb : b.kind = g.kind) (a : Addr) :
    ((s.setBacking g.id b).responsible a).map Region.shape = (s.responsible a).map Region.shape := by
  rw [responsible_setBacking, Option.map_map]
  refine Option.map_congr fun r hr => ?_
  show (r.replaced g.id b).shape = r.shape
  unfold Region.replaced
  split
  · rename_i hid
    rw [responsible_inj hr hg hid]
    simp [Region.shape, Region.kind, hb]
  · rfl

/-- No region is IO, and the mapping order and the dispatch table are those of `s`. -/
def DispatchAsIn (s t : State) : Prop :=
  t.NoIo ∧ t.mapOrder = s.mapOrder ∧ ∀ a : Addr, (t.responsible a).map Region.shape = (s.responsible a).map Region.shape

theorem dispatchAsIn_invariant (s : State) : BusInvariant (DispatchAsIn s) where
  frame := by
    rintro t u hr hm ⟨hn, ho, hd⟩
    refine ⟨fun r h => hn r (hr ▸ h), hm.trans ho, fun a => ?_⟩
    rw [responsible_congr hr hm]
    exact hd a
  read := by
    intro t a r h q
    rwa [memRead_noIo q.1 h]
  write := by
    rintro t u a v h ⟨hn, ho, hd⟩
    obtain rfl | ⟨g, m, hg, hk, rfl⟩ := memWrite_noIo hn h
    · exact ⟨hn, ho, hd⟩
    · exact ⟨noIo_setBacking hn, ho, fun b => (responsible_shape_setBacking (b := .ram m) hg hk.symm b).trans (hd b)⟩

/-- Settles O14: the table is kept by every access where no IO region has a write hook, and so by every step. -/
theorem dispatchTableFixedWithoutIo : Obligations.DispatchTableFixedWithoutIo :=
  fun s _ hn h => step_keeps (dispatchAsIn_invariant s) h ⟨hn, rfl, fun _ => rfl⟩

end Sys2Proof.Machine
end

