-- ==== Sys2Proof/Proofs/BusInvariants.lean ====
section
/-!
PROOFS. Obligations O9, O10 and O13: what every access keeps, a step keeps. For the bus that is well formed and for the mapped
addresses the accesses' lemma stands in Sys2Proof/Laws; for a ROM region it is proved here.
-/

namespace Sys2Proof.Machine

/-- Settles O9: each access keeps the bus well formed, and so does a step, which is made of them. -/
theorem stepKeepsTheBusWellFormed : Obligations.StepKeepsTheBusWellFormed :=
  fun _ _ hw h => step_keeps busWf_invariant h hw

/-- Settles O10: no access takes an address away, not even one whose write hook remaps. -/
theorem stepKeepsEveryAddressMapped : Obligations.StepKeepsEveryAddressMapped :=
  fun _ _ hs h => step_keeps fullyMapped_invariant h hs

theorem lookupRegion_setBacking_other (s : State) {i j : Nat} (b : Backing) (hj : j ≠ i) :
    lookupRegion (s.setBacking i b).regions j = lookupRegion s.regions j := by
  rw [State.setBacking_regions, lookupRegion_replace]
  cases hq : lookupRegion s.regions j with
  | none => rfl
  | some q =>
    have hid : q.id ≠ i := by rwa [lookupRegion_id hq]
    rw [Option.map_some, Region.replaced, if_neg hid]

/-- Replacing the storage of one region leaves the lookup of a region with other storage. -/
theorem lookupRegion_setBacking_of_ne {s : State} {a : Addr} {i : Nat} {r g : Region} (b : Backing)
    (hr : lookupRegion s.regions i = some r) (hg : s.responsible a = some g) (hne : r.backing ≠ g.backing) :
    lookupRegion (s.setBacking g.id b).regions i = some r := by
  have hi : i ≠ g.id := by
    rintro rfl
    cases hr.symm.trans (responsible_some hg).1
    exact hne rfl
  rwa [lookupRegion_setBacking_other s b hi]

/-- No access changes the ROM region that an identifier names: RAM and IO storage alone is replaced (R53), and a remap touches
no region. -/
theorem romRegion_invariant {i : Nat} {r : Region} {m : Memory} (hrom : r.backing = .rom m) :
    BusInvariant fun s => lookupRegion s.regions i = some r := by
  apply BusInvariant.of_parts
  · intro s t hr _ h
    rwa [hr]
  · intro s g ram a v hg hb h
    exact lookupRegion_setBacking_of_ne _ h hg (by rw [hrom, hb]; exact nofun)
  · intro s g hist a e hg hb h
    exact lookupRegion_setBacking_of_ne _ h hg (by rw [hrom, hb]; exact nofun)
  · intro s j g _ h
    exact h

/-- Settles O13: the region that the identifier names is kept by every access, and so by every step. -/
theorem romNeverChanges : Obligations.RomNeverChanges :=
  fun _ _ _ _ _ h hr hrom => step_keeps (romRegion_invariant hrom) h hr

end Sys2Proof.Machine
end

