-- ==== Sys2Proof/Proofs/BusAccess.lean ====
section
/-!
PROOFS. Obligations O22, O24, O26 and O27: byte, word and bulk accesses of RAM and ROM, and of an address that nothing answers.
-/

namespace Sys2Proof.Machine

/-! ### An address that nothing answers -/

section
variable {s : State} {a : Addr} (hn : s.responsible a = none)
include hn

theorem memRead_unmapped : memRead s a = .error (.addressDispatchGap a) := by
  unfold memRead
  rw [hn]

theorem memWrite_unmapped (v : Byte) : memWrite s a v = .error (.addressDispatchGap a) := by
  unfold memWrite
  rw [hn]

theorem diagRead_unmapped : diagRead s a = .error (.addressDispatchGap a) := by
  unfold diagRead
  rw [hn]

theorem bulkWrites_unmapped (b : Byte) (bs : List Byte) :
    bulkWrites a (b :: bs) s = .fault (.addressDispatchGap a) := by
  unfold bulkWrites
  rw [hn]

end

theorem bind_of_error {α β : Type} {x : Except Fault α} {f : α → Except Fault β} {e : Fault} (h : x = .error e) :
    (x >>= f) = .error e := by
  subst h; rfl

/-- Settles O24: a word access faults in its first byte access, and a copy in its first write. -/
theorem unmappedAccessRaisesTheGap : Obligations.UnmappedAccessRaisesTheGap := by
  intro s a hn
  refine ⟨memRead_unmapped hn, memWrite_unmapped hn, ?_, fun v => ?_, diagRead_unmapped hn, fun b bytes hlen => ?_⟩
  · exact bind_of_error (memRead_unmapped hn)
  · exact bind_of_error (memWrite_unmapped hn _)
  · exact (if_pos hlen).trans (bulkWrites_unmapped hn b bytes)

/-! ### A byte of RAM or ROM -/

theorem Backing.kind_eq_ram {b : Backing} : b.kind = .ram ↔ ∃ m, b = .ram m := by
  cases b <;> simp [Backing.kind]

theorem Backing.kind_eq_rom {b : Backing} : b.kind = .rom ↔ ∃ m, b = .rom m := by
  cases b <;> simp [Backing.kind]

theorem Backing.kind_eq_io {b : Backing} : b.kind = .io ↔ ∃ h, b = .io h := by
  cases b <;> simp [Backing.kind]

theorem responsible_of_kindAt {s : State} {a : Addr} {k : RegionKind} (hk : s.kindAt a = some k) :
    ∃ r, s.responsible a = some r ∧ r.backing.kind = k :=
  Option.map_eq_some_iff.1 hk

theorem memWrite_rom {s : State} {a : Addr} (v : Byte) (hk : s.kindAt a = some .rom) : memWrite s a v = .ok s := by
  obtain ⟨g, hg, hkind⟩ := responsible_of_kindAt hk
  obtain ⟨m, hb⟩ := Backing.kind_eq_rom.1 hkind
  unfold memWrite
  rw [hg]
  simp only [hb]

/-- A write to RAM or ROM leaves every other address alone, one that IO or nothing answers too. -/
theorem diagRead_memWrite_other {s t : State} {a b : Addr} {v : Byte} (h : memWrite s a v = .ok t)
    (hk : s.kindAt a ≠ some .io) (hb : b ≠ a) : diagRead t b = diagRead s b := by
  by_cases hp : s.PlainAt b
  · exact ((memWrite_frame h hk).2 b).2 (List.mem_singleton.not.2 hb) hp
  · obtain ⟨g, hg, ⟨m, hram, rfl⟩ | ⟨m, -, rfl⟩ | ⟨hist, hio, -⟩⟩ := memWrite_ok h
    · refine diagRead_setBacking_other fun r hr hid => hp ((plainAt_kind hr).2 ?_)
      rw [responsible_inj hr hg hid, Region.kind, hram]
      exact nofun
    · rfl
    · exact absurd ((kindAt_of_responsible hg).trans (congrArg (some ∘ Backing.kind) hio)) hk

/-- What a write to RAM does on a well-formed bus: the byte is there, every other address reads as before, every kind is the
same, and the bus is well formed. -/
structure RamWritten (s : State) (a : Addr) (v : Byte) (t : State) : Prop where
  write : memWrite s a v = .ok t
  read : diagRead t a = .ok v
  other : ∀ b : Addr, b ≠ a → diagRead t b = diagRead s b
  kind : ∀ b : Addr, t.kindAt b = s.kindAt b
  busWf : t.busWf = true

theorem ramWritten {s : State} {a : Addr} (v : Byte) (hw : s.busWf = true) (hk : s.kindAt a = some .ram) :
    ∃ t, RamWritten s a v t := by
  obtain ⟨t, ht, -, hread⟩ := memWrite_ram v hw hk
  have notIo : s.kindAt a ≠ some .io := by rw [hk]; decide
  exact ⟨t, ht, hread, fun _ => diagRead_memWrite_other ht notIo, fun b => ((memWrite_frame ht notIo).2 b).1,
    busWf_invariant.write ht hw⟩

/-- Settles O22: `ramWritten`, and a write to ROM is discarded. -/
theorem ramWriteIsReadBackRomWriteIsDiscarded : Obligations.RamWriteIsReadBackRomWriteIsDiscarded := by
  refine ⟨fun s a v hw hk => ?_, fun s a v => memWrite_rom v⟩
  obtain ⟨t, h⟩ := ramWritten v hw hk
  exact ⟨t, h.write, memWrite_sameButBus h.write, memRead_of_diagRead (.inl ((h.kind a).trans hk)) h.read, h.read, h.other⟩

/-! ### A word -/

theorem memReadWord_plain {s : State} {a : Addr} {l h : Byte} (hl : s.PlainAt a) (hh : s.PlainAt (a + 1))
    (dl : diagRead s a = .ok l) (dh : diagRead s (a + 1) = .ok h) :
    memReadWord s a = .ok { val := wordOf h l, state := s } := by
  unfold memReadWord
  rw [memRead_of_diagRead hl dl, ok_bind, memRead_of_diagRead hh dh, ok_bind]
  rfl

theorem lo_eq_ofNat (w : Addr) : lo w = BitVec.ofNat 8 w.toNat :=
  BitVec.eq_of_toNat_eq (by rw [lo_toNat, BitVec.toNat_ofNat])

theorem hi_eq_ofNat (w : Addr) : hi w = BitVec.ofNat 8 (w.toNat / 256) :=
  BitVec.eq_of_toNat_eq (by have := w.isLt; rw [hi_toNat, BitVec.toNat_ofNat]; omega)

/-- Settles O26: the two addresses differ even where the second wraps, so the second write leaves the first byte. -/
theorem wordAccessIsLittleEndian : Obligations.WordAccessIsLittleEndian := by
  refine ⟨fun s a l h pl ph dl dh => ⟨_, wordOf_toNat h l, memReadWord_plain pl ph dl dh⟩, fun s a v hw kl kh => ?_⟩
  obtain ⟨t, low⟩ := ramWritten (lo v) hw kl
  obtain ⟨u, high⟩ := ramWritten (hi v) low.busWf ((low.kind _).trans kh)
  have dl : diagRead u a = .ok (lo v) := (high.other a (by bv_omega)).trans low.read
  have kind : ∀ b : Addr, u.kindAt b = s.kindAt b := fun b => (high.kind b).trans (low.kind b)
  refine ⟨u, (bind_of_ok low.write).trans high.write, lo_eq_ofNat v ▸ dl, hi_eq_ofNat v ▸ high.read, ?_⟩
  rw [memReadWord_plain (.inl ((kind _).trans kl)) (.inl ((kind _).trans kh)) dl high.read, wordOf_hi_lo]

/-! ### A bulk copy -/

theorem bulkWrites_cons_ram {s t : State} {a : Addr} {b : Byte} (bs : List Byte) (hk : s.kindAt a = some .ram)
    (ht : memWrite s a b = .ok t) : bulkWrites a (b :: bs) s = bulkWrites (a + 1) bs t := by
  obtain ⟨g, hg, hkind⟩ := responsible_of_kindAt hk
  obtain ⟨m, hb⟩ := Backing.kind_eq_ram.1 hkind
  unfold memWrite at ht
  rw [hg] at ht
  simp only [hb] at ht
  cases ht
  rw [bulkWrites, hg]
  simp only [hb]

theorem bulkWrites_not_ram {s : State} {a : Addr} (b : Byte) (bs : List Byte)
    (hk : s.kindAt a = some .rom ∨ s.kindAt a = some .io) : bulkWrites a (b :: bs) s = .refused (.bulkCopyNotRam a) := by
  rcases hk with hk | hk <;> obtain ⟨g, hg, hkind⟩ := responsible_of_kindAt hk
  · obtain ⟨m, hb⟩ := Backing.kind_eq_rom.1 hkind
    rw [bulkWrites, hg]
    simp only [hb]
  · obtain ⟨h, hb⟩ := Backing.kind_eq_io.1 hkind
    rw [bulkWrites, hg]
    simp only [hb]

/-- The address of byte `k + 1` of a copy is that of byte `k` of the rest of it. -/
theorem add_one_add_ofNat (a : Addr) (k : Nat) : a + 1 + BitVec.ofNat 16 k = a + BitVec.ofNat 16 (k + 1) := by
  bv_omega

/-- The writes of a copy of at most 65536 bytes go to different addresses, wherever it begins. -/
theorem bulkWrites_ram {bytes : List Byte} {a : Addr} {s : State} (hw : s.busWf = true) (hlen : bytes.length ≤ 65536)
    (hk : ∀ k < bytes.length, s.kindAt (a + BitVec.ofNat 16 k) = some .ram) :
    ∃ t, bulkWrites a bytes s = .next t ∧ SameButBus s t ∧
      (∀ (k : Nat) (b : Byte), bytes[k]? = some b → diagRead t (a + BitVec.ofNat 16 k) = .ok b) ∧
      ∀ c : Addr, (∀ k < bytes.length, c ≠ a + BitVec.ofNat 16 k) → diagRead t c = diagRead s c := by
  induction bytes generalizing a s with
  | nil => exact ⟨s, rfl, .refl s, nofun, fun _ _ => rfl⟩
  | cons b bs ih =>
    rw [List.length_cons] at hlen hk
    have first : a + BitVec.ofNat 16 0 = a := BitVec.add_zero a
    have k0 : s.kindAt a = some .ram := first ▸ hk 0 (Nat.succ_pos _)
    obtain ⟨u, hu⟩ := ramWritten b hw k0
    obtain ⟨t, ht, same, stored, other⟩ := ih (a := a + 1) hu.busWf (Nat.le_of_succ_le hlen) fun k hlt => by
      rw [add_one_add_ofNat, hu.kind]
      exact hk (k + 1) (Nat.succ_lt_succ hlt)
    refine ⟨t, (bulkWrites_cons_ram bs k0 hu.write).trans ht, (memWrite_sameButBus hu.write).trans same, ?_, ?_⟩
    · rintro (_ | k) c hc
      · cases hc
        rw [first, other a fun k hlt => by rw [add_one_add_ofNat]; bv_omega]
        exact hu.read
      · rw [← add_one_add_ofNat]
        exact stored k c hc
    · intro c hc
      rw [other c fun k hlt => by rw [add_one_add_ofNat]; exact hc (k + 1) (Nat.succ_lt_succ hlt)]
      exact hu.other c (first ▸ hc 0 (Nat.succ_pos _))

/-- A copy is refused at the first address that is not RAM. -/
theorem bulkWrites_refused {k : Nat} {bytes : List Byte} {a : Addr} {s : State} (hlen : k < bytes.length)
    (hram : ∀ j < k, s.kindAt (a + BitVec.ofNat 16 j) = some .ram)
    (hk : s.kindAt (a + BitVec.ofNat 16 k) = some .rom ∨ s.kindAt (a + BitVec.ofNat 16 k) = some .io) :
    bulkWrites a bytes s = .refused (.bulkCopyNotRam (a + BitVec.ofNat 16 k)) := by
  have first : a + BitVec.ofNat 16 0 = a := BitVec.add_zero a
  obtain ⟨b, bs, rfl⟩ := List.exists_cons_of_length_pos (Nat.zero_lt_of_lt hlen)
  induction k generalizing b bs a s with
  | zero =>
    rw [first] at hk ⊢
    exact bulkWrites_not_ram b bs hk
  | succ k ih =>
    have k0 : s.kindAt a = some .ram := first ▸ hram 0 (Nat.succ_pos k)
    obtain ⟨g, hg, -⟩ := responsible_of_kindAt k0
    obtain ⟨t, ht⟩ := memWrite_of_responsible (v := b) (by rw [hg]; rfl)
    have kind : ∀ c : Addr, t.kindAt c = s.kindAt c := fun c => ((memWrite_frame ht (by rw [k0]; decide)).2 c).1
    obtain ⟨c, cs, rfl⟩ := List.exists_cons_of_length_pos (Nat.zero_lt_of_lt (Nat.lt_of_succ_lt_succ hlen))
    rw [bulkWrites_cons_ram (c :: cs) k0 ht, ← add_one_add_ofNat]
    refine ih (fun j hj => ?_) ?_ (BitVec.add_zero _) c cs (Nat.lt_of_succ_lt_succ hlen)
    · rw [kind, add_one_add_ofNat]
      exact hram (j + 1) (Nat.succ_lt_succ hj)
    · rwa [kind, add_one_add_ofNat]

/-- Settles O27: the writes of a copy that does not pass `0xFFFF`, one after the other. -/
theorem bulkCopyStoresTheBytes : Obligations.BulkCopyStoresTheBytes := by
  refine ⟨fun s a bytes hw hlen hk => ?_, fun s a bytes hlen => ?_, fun s a bytes k hlen hlt hram hk => ?_⟩
  · obtain ⟨t, ht, same, stored, other⟩ := bulkWrites_ram hw (by omega) hk
    exact ⟨t, (if_pos hlen).trans ht, same, stored, fun c hc => other c fun k hlt => by bv_omega⟩
  · exact if_neg (Nat.not_le.2 hlen)
  · exact (if_pos hlen).trans (bulkWrites_refused hlt hram hk)

end Sys2Proof.Machine
end

