-- ==== Sys2Proof/Proofs/IoAccess.lean ====
section
/-!
PROOFS. Obligation O23: an access of an IO region replaces that region's history and no other storage, and a write then
remaps.
-/

namespace Sys2Proof.Machine

/-- From `s` to `t` the storage of the region `r` is replaced by `b`, and no other lookup is changed. -/
def BackingReplaced (s : State) (r : Region) (b : Backing) (t : State) : Prop :=
  lookupRegion t.regions r.id = some { r with backing := b } ∧
    ∀ j : Nat, j ≠ r.id → lookupRegion t.regions j = lookupRegion s.regions j

theorem backingReplaced_setBacking {s : State} {r : Region} (hr : lookupRegion s.regions r.id = some r) (b : Backing) :
    BackingReplaced s r b (s.setBacking r.id b) := by
  refine ⟨?_, fun j hj => lookupRegion_setBacking_other s b hj⟩
  rw [State.setBacking_regions, lookupRegion_replace, hr, Option.map_some, Region.replaced, if_pos rfl]

/-- Storage replaced twice is replaced by the second. -/
theorem BackingReplaced.trans {s t u : State} {r : Region} {b c : Backing} (h : BackingReplaced s r b t)
    (k : BackingReplaced t { r with backing := b } c u) : BackingReplaced s r c u :=
  ⟨k.1, fun j hj => (k.2 j hj).trans (h.2 j hj)⟩

/-- The region that answers after its storage was replaced is the one with the new storage. -/
theorem BackingReplaced.responsible {s t : State} {r : Region} {b : Backing} (h : BackingReplaced s r b t) {a : Addr}
    (hid : (t.responsible a).map Region.id = some r.id) : t.responsible a = some { r with backing := b } := by
  obtain ⟨q, hq, hqid⟩ := Option.map_eq_some_iff.1 hid
  have hl := (responsible_some hq).1
  rw [hqid, h.1] at hl
  rw [hq, Option.some.inj hl]

theorem replaceBacking_isSome (rs : List Region) (i j : Nat) (b : Backing) :
    (lookupRegion (replaceBacking rs i b) j).isSome = (lookupRegion rs j).isSome := by
  rw [lookupRegion_replace, Option.isSome_map]

/-- The mapping order after the region with an identifier is mapped again, if the list has it (R56). -/
def remapped (regions : List Region) (order : List Nat) (i : Nat) : List Nat :=
  if (lookupRegion regions i).isSome then bringToFront i order else order

theorem remap_eq (s : State) (i : Nat) : s.remap i = { s with mapOrder := remapped s.regions s.mapOrder i } := by
  unfold State.remap remapped
  cases lookupRegion s.regions i <;> rfl

theorem remaps_eq (l : List Nat) (s : State) :
    l.foldl State.remap s = { s with mapOrder := l.foldl (remapped s.regions) s.mapOrder } := by
  induction l generalizing s with
  | nil => rfl
  | cons i l ih => rw [List.foldl_cons, ih, remap_eq]; rfl

section
variable {s : State} {a : Addr} {r : Region} {h : List Config.IoEvent} (hr : s.responsible a = some r)
  (hb : r.backing = .io h)
include hr hb

theorem diagRead_io : diagRead s a = .ok (Config.ioDiag r.id h (r.offset a)) := by
  unfold diagRead
  rw [hr]
  simp only [hb]

theorem memRead_io :
    memRead s a = .ok
      { val := Config.ioRead r.id h (r.offset a), state := s.setBacking r.id (.io (.read (r.offset a) :: h)) } := by
  unfold memRead
  rw [hr]
  simp only [hb]

/-- A write puts itself in front of the history, and then maps what the hook names (R58). -/
theorem memWrite_io (v : Byte) :
    ∃ t, memWrite s a v = .ok t ∧ BackingReplaced s r (.io (.write (r.offset a) v :: h)) t ∧
      t = { s with
        regions := t.regions
        mapOrder := (Config.ioRemap r.id h (r.offset a) v).foldl (remapped s.regions) s.mapOrder } := by
  have replaced := backingReplaced_setBacking (responsible_some hr).1 (.io (.write (r.offset a) v :: h))
  have written : memWrite s a v = .ok ((Config.ioRemap r.id h (r.offset a) v).foldl State.remap
      (s.setBacking r.id (.io (.write (r.offset a) v :: h)))) := by
    unfold memWrite
    rw [hr]
    simp only [hb]
  rw [remaps_eq] at written
  refine ⟨_, written, replaced, ?_⟩
  have listed : remapped (replaceBacking s.regions r.id (.io (.write (r.offset a) v :: h))) = remapped s.regions := by
    funext order j
    unfold remapped
    rw [replaceBacking_isSome]
  rw [State.setBacking_regions, listed]
  rfl

end

/-- Settles O23: the second of two writes is a write to the region with the history that the first left. -/
theorem ioAccessesRunTheRegionsHooks : Obligations.IoAccessesRunTheRegionsHooks := by
  intro s a hk
  obtain ⟨r, hr, hkind⟩ := responsible_of_kindAt hk
  obtain ⟨h, hb⟩ := Backing.kind_eq_io.1 hkind
  refine ⟨r, h, hr, hb, diagRead_io hr hb, ⟨_, memRead_io hr hb, ?_, rfl⟩, fun v => ?_⟩
  · exact backingReplaced_setBacking (responsible_some hr).1 _
  · obtain ⟨t, ht, first, hframe⟩ := memWrite_io hr hb v
    refine ⟨t, ht, first, hframe, fun w hid => ?_⟩
    obtain ⟨u, hu, second, -⟩ := memWrite_io (first.responsible hid) rfl w
    exact ⟨u, hu, first.trans second⟩

end Sys2Proof.Machine
end

