-- ==== Sys2Proof/Proofs/Mapping.lean ====
section
/-!
PROOFS. Obligation O25: the region mapped last answers, and the other entries of the mapping order are as they were.
-/

namespace Sys2Proof.Machine

section
variable {rs : List Region} {i : Nat} {a : Addr}

/-- An identifier whose region does not hold the address may be left out of the order. -/
theorem dispatchIn_filter (order : List Nat) (h : ∀ r, lookupRegion rs i = some r → r.range.holds a = false) :
    dispatchIn rs (order.filter fun j => decide (j ≠ i)) a = dispatchIn rs order a := by
  induction order with
  | nil => rfl
  | cons j order ih =>
    by_cases hj : j = i
    · subst hj
      rw [List.filter_cons_of_neg (by simp), ih, dispatchIn]
      split
      · rename_i r hr
        rw [h r hr]
        rfl
      · rfl
    · rw [List.filter_cons_of_pos (by simpa using hj), dispatchIn, dispatchIn, ih]

/-- The region brought to the front of the order answers for its range, and for no other address. -/
theorem dispatchIn_bringToFront {r : Region} (order : List Nat) (hr : lookupRegion rs i = some r) :
    dispatchIn rs (bringToFront i order) a = if r.range.holds a then some r else dispatchIn rs order a := by
  rw [bringToFront, dispatchIn, hr]
  refine ite_congr rfl (fun _ => rfl) fun hh => ?_
  refine dispatchIn_filter order fun q hq => ?_
  cases hr.symm.trans hq
  exact eq_false_of_ne_true hh

theorem lookupRegion_append {r : Region} (hn : lookupRegion rs r.id = none) (j : Nat) :
    lookupRegion (rs ++ [r]) j = if j = r.id then some r else lookupRegion rs j := by
  unfold lookupRegion at hn ⊢
  rw [List.find?_append]
  split
  · rename_i hj
    rw [hj, hn]
    simp
  · rename_i hj
    simp [Ne.symm hj]

/-- A region at the end of the list answers for no address outside its range. -/
theorem dispatchIn_append {r : Region} (order : List Nat) (hn : lookupRegion rs r.id = none)
    (hh : r.range.holds a = false) : dispatchIn (rs ++ [r]) order a = dispatchIn rs order a := by
  induction order with
  | nil => rfl
  | cons j order ih =>
    rw [dispatchIn, dispatchIn, lookupRegion_append hn, ih]
    by_cases hj : j = r.id
    · simp [hj, hn, hh]
    · rw [if_neg hj]

end

theorem mapRegion_of_new {s : State} {r : Region} (hn : lookupRegion s.regions r.id = none) (hw : r.wf = true) :
    s.mapRegion r = { s with regions := s.regions ++ [r], mapOrder := bringToFront r.id s.mapOrder } := by
  rw [State.mapRegion, hn]
  exact if_pos hw

theorem mapRegion_of_listed {s : State} {r g : Region} (hg : lookupRegion s.regions r.id = some g) :
    s.mapRegion r = { s with mapOrder := bringToFront r.id s.mapOrder } := by
  rw [State.mapRegion, hg]
  show s.remap r.id = _
  rw [State.remap, hg]

/-- Settles O25: a new region and a listed one are both brought to the front of the order, the new one after it is appended
to the list. -/
theorem mostRecentMappingWins : Obligations.MostRecentMappingWins := by
  refine ⟨fun s r hn hw => ?_, fun s r g hg => ?_⟩
  · rw [mapRegion_of_new hn hw]
    refine ⟨rfl, fun a => ?_⟩
    have front : lookupRegion (s.regions ++ [r]) r.id = some r := by rw [lookupRegion_append hn, if_pos rfl]
    refine (dispatchIn_bringToFront s.mapOrder front).trans (ite_congr rfl (fun _ => rfl) fun hh => ?_)
    exact dispatchIn_append s.mapOrder hn (eq_false_of_ne_true hh)
  · rw [mapRegion_of_listed hg]
    exact ⟨rfl, fun a => dispatchIn_bringToFront s.mapOrder hg⟩

end Sys2Proof.Machine
end

