-- ==== Sys2Proof/Proofs/StoreFrames.lean ====
section
/-!
PROOFS. Obligations O58 and O59: an instruction that stores nothing changes no byte of RAM or ROM, and one that stores changes
the byte it stores to. Each is shown of the shapes, and of an instruction through its shape.
-/

namespace Sys2Proof.Machine

/-! ### Shapes that store nothing -/

/-- A stack handler that keeps whatever bus-level reads keep: it pulls. -/
def OnlyReads (f : State → Except Fault State) : Prop :=
  ∀ {Q : State → Prop} {s t : State}, ReadInvariant Q → f s = .ok t → Q s → Q t

theorem stPla_onlyReads : OnlyReads stPla := by
  intro Q s t hQ h q
  obtain ⟨v, hv, rfl⟩ := stPla_ok h
  exact hQ.frame (s := v.state) rfl rfl (pull_keeps hQ hv q)

theorem stPlp_onlyReads : OnlyReads stPlp := by
  intro Q s t hQ h q
  obtain ⟨v, hv, rfl⟩ := stPlp_ok h
  exact hQ.frame (s := v.state) rfl rfl (pull_keeps hQ hv q)

theorem stRts_onlyReads : OnlyReads stRts := by
  intro Q s t hQ h q
  obtain ⟨v, hv, rfl⟩ := stRts_ok h
  exact hQ.frame (s := v.state) rfl rfl (pullWord_keeps hQ hv q)

theorem returnFromTrap_onlyReads : OnlyReads returnFromTrap :=
  fun hQ h q => returnFromTrap_keeps hQ h q

/-- The shape has no bus-level write. -/
def Shape.StoresNothing : Shape → Prop
  | .implied _ _ => True
  | .stack _ f => OnlyReads f
  | .read _ _ _ _ => True
  | .readTwice _ _ _ _ _ => True
  | .store _ _ _ => False
  | .modify _ _ _ => False
  | .modifyRead _ _ _ _ => False
  | .branch _ _ => True
  | .jump _ _ => True
  | .jumpIndirect _ _ => True
  | .call _ _ => False
  | .unstableRead _ _ _ _ => True
  | .unstableStore _ _ _ _ _ => False
  | .halt _ => True

/-- A shape with no bus-level write keeps whatever bus-level reads keep. -/
theorem Shape.run_keeps_of_storesNothing {Q : State → Prop} {s t : State} (hQ : ReadInvariant Q) {sh : Shape}
    (hsh : sh.Sound) (hn : sh.StoresNothing) (h : sh.run s = .next t) (q : Q s) : Q t := by
  cases sh with
  | implied cyc f =>
    cases (runImplied_eq cyc f).symm.trans h
    exact hQ.account (hQ.registers (hsh _) (hQ.advance q _)) _
  | stack cyc f =>
    obtain ⟨u, hu, rfl⟩ := runStack_next h
    exact hQ.account (hn hQ hu (hQ.advance q _)) _
  | read => exact runRead_keeps hQ hsh h q
  | readTwice => exact runReadTwice_keeps hQ hsh.1 hsh.2 h q
  | branch cond off =>
    cases (runBranch_eq cond off).symm.trans h
    exact hQ.frame (s := s) rfl rfl q
  | jump w cyc =>
    cases (runJump_eq w cyc).symm.trans h
    exact hQ.frame (s := s) rfl rfl q
  | jumpIndirect => exact runJumpIndirect_keeps hQ h q
  | unstableRead => exact runRead_keeps hQ hsh (underPolicy_next h).2 q
  | halt => cases h
  | store | modify | modifyRead | call | unstableStore => exact False.elim hn

/-- A read-modify-write of the accumulator has no bus access (R180). -/
theorem modifyShape_storesNothing {i : Instr} (h : i.memOperand = none) (f : Modify) : (modifyShape i f).StoresNothing := by
  unfold modifyShape
  rw [h]
  trivial

section
variable (i : Instr)

theorem readShape_storesNothing (op : Byte → State → State) : (readShape i op).StoresNothing := by
  unfold readShape; split <;> trivial

theorem readTwiceShape_storesNothing (first second : Byte → State → State) :
    (readTwiceShape i first second).StoresNothing := by
  unfold readTwiceShape; split <;> trivial

theorem branchShape_storesNothing (cond : Flags → Bool) : (branchShape i cond).StoresNothing := by
  unfold branchShape; split <;> trivial

theorem jumpShape_storesNothing : (jumpShape i).StoresNothing := by
  unfold jumpShape; split
  · split <;> trivial
  · trivial

theorem unstableReadShape_storesNothing (op : Byte → State → State) : (unstableReadShape i op).StoresNothing := by
  unfold unstableReadShape; split <;> trivial

theorem shapeOf_storesNothing {m : Mnemonic} (hm : m ∉ storingMnemonics) : (shapeOf i m).StoresNothing := by
  cases m
  case ADC | ALR | ANC | AND | ARR | BIT | CMP | CPX | CPY | EOR | LAS | LDA | LDX | LDY | NOP | ORA | SBC | SBX =>
    exact readShape_storesNothing i _
  case ANE | LXA => exact unstableReadShape_storesNothing i _
  case LAX => exact readTwiceShape_storesNothing i _ _
  case BCC | BCS | BEQ | BMI | BNE | BPL | BVC | BVS => exact branchShape_storesNothing i _
  case JMP => exact jumpShape_storesNothing i
  case PLA => exact stPla_onlyReads
  case PLP => exact stPlp_onlyReads
  case RTS => exact stRts_onlyReads
  case RTI => exact returnFromTrap_onlyReads
  case CLC | CLD | CLI | CLV | DEX | DEY | INX | INY | JAM | SEC | SED | SEI | TAX | TAY | TSX | TXA | TXS | TYA =>
    exact trivial
  all_goals exact absurd (by decide) hm

end

/-- Only shifts and rotates have an accumulator form (R95). -/
theorem acc_mnemonic {i : Instr} (h : i.row.mode = .acc) : i.mnemonic ∈ [.ASL, .LSR, .ROL, .ROR] :=
  (by decide : ∀ op : Byte, (rowOf op).mode = .acc → (rowOf op).mnemonic ∈ [.ASL, .LSR, .ROL, .ROR]) i.opcode h

theorem storesNothing_of_not_writesMemory {i : Instr} (h : writesMemory i = false) :
    (shapeOf i i.mnemonic).StoresNothing := by
  by_cases hacc : i.row.mode = .acc
  · have shape := modifyShape_storesNothing (memOperand_eq_none hacc)
    have each : ∀ m ∈ [Mnemonic.ASL, .LSR, .ROL, .ROR], (shapeOf i m).StoresNothing := by
      simp only [List.forall_mem_cons, List.not_mem_nil, false_implies, implies_true, and_true]
      exact ⟨shape modAsl, shape modLsr, shape modRol, shape modRor⟩
    exact each _ (acc_mnemonic hacc)
  · refine shapeOf_storesNothing i fun hm => ?_
    simp [writesMemory, hm, hacc] at h

/-- Settles O58: an instruction with no bus-level write keeps what reads keep, and reads keep every byte of RAM and ROM. -/
theorem readingInstructionsStoreNothing : Obligations.ReadingInstructionsStoreNothing := by
  intro i s t hn h
  obtain ⟨order, bytes⟩ : FrameOutside [] s t :=
    Shape.run_keeps_of_storesNothing (frame_readInvariant s []) (shapeOf_sound i _) (storesNothing_of_not_writesMemory hn)
      (exec_eq_shape i s ▸ h) (.of_bus_eq rfl rfl)
  exact ⟨order, fun a => ⟨(bytes a).1, (bytes a).2 (List.not_mem_nil)⟩⟩

/-! ### Shapes that store to their effective address -/

/-- The shape stores, and only to the effective address of this operand. -/
def Shape.StoresTo (o : MemOperand) : Shape → Prop
  | .store p _ _ => p = o
  | .modify p _ _ => p = o
  | .modifyRead p _ _ _ => p = o
  | _ => False

section
variable {s t : State} {o : MemOperand} {r : Resolved} (hr : effAddr o (s.advance o.len) = .ok r)
include hr

/-- The resolver changes no byte of RAM or ROM. -/
theorem resolved_frame (slots : List Addr) : FrameOutside slots s r.state :=
  (FrameOutside.of_bus_eq rfl rfl).trans (effAddr_frame hr slots)

theorem Shape.run_frame {sh : Shape} (hsh : sh.Sound) (ho : sh.StoresTo o) (hk : s.kindAt r.ea ≠ some .io)
    (h : sh.run s = .next t) : FrameOutside [r.ea] s t := by
  have resolved := resolved_frame hr [r.ea]
  have hk' : r.state.kindAt r.ea ≠ some .io := by rwa [(resolved.2 r.ea).1]
  cases sh with
  | store =>
    cases ho
    obtain ⟨r', u, hr', hu, rfl⟩ := runStore_next h
    cases hr.symm.trans hr'
    exact (resolved.trans (memWrite_frame hu hk')).trans (.of_bus_eq rfl rfl)
  | modify =>
    cases ho
    obtain ⟨r', u, hr', hu, rfl⟩ := runModify_next h
    cases hr.symm.trans hr'
    exact (resolved.trans (modifyMem_frame hu hk')).trans (.of_bus_eq rfl rfl)
  | modifyRead =>
    cases ho
    obtain ⟨r', u, b, hr', hu, hb, rfl⟩ := runModifyRead_next h
    cases hr.symm.trans hr'
    have handled := hsh b.val b.state
    exact ((resolved.trans (modifyMem_frame hu hk')).trans (memRead_frame hb _)).trans
      (.of_bus_eq handled.regions_eq handled.mapOrder_eq)
  | _ => exact False.elim ho

/-- An unstable store changes the byte at the address that R279 gives, at most. -/
theorem unstableStoreShape_frame {i : Instr} {reg : Byte} (ho : i.memOperand = some o) (before : State → State)
    (val : State → Byte) (hbefore : ∀ u, RegistersOnly u (before u)) (hval : val (before r.state) = reg)
    (hk : s.kindAt (unstableStore reg r.ea r.crossed).2 ≠ some .io)
    (h : (unstableStoreShape i before val).run s = .next t) :
    FrameOutside [(unstableStore reg r.ea r.crossed).2] s t := by
  unfold unstableStoreShape at h
  rw [ho] at h
  obtain ⟨r', u, hr', hu, rfl⟩ := runUnstableStore_next (underPolicy_next h).2
  cases hr.symm.trans hr'
  rw [hval] at hu
  have handled := hbefore r.state
  have ready := (resolved_frame hr [(unstableStore reg r.ea r.crossed).2]).trans
    (.of_bus_eq handled.regions_eq handled.mapOrder_eq)
  exact (ready.trans (memWrite_frame hu (by rwa [(ready.2 _).1]))).trans (.of_bus_eq rfl rfl)

end

section
variable {i : Instr} {o : MemOperand} (ho : i.memOperand = some o)
include ho

theorem storeShape_storesTo (val : State → Byte) : (storeShape i val).StoresTo o := by
  unfold storeShape
  rw [ho]
  exact rfl

theorem modifyShape_storesTo (f : Modify) : (modifyShape i f).StoresTo o := by
  unfold modifyShape
  rw [ho]
  exact rfl

theorem modifyReadShape_storesTo (f : Modify) (op : Byte → State → State) : (modifyReadShape i f op).StoresTo o := by
  unfold modifyReadShape
  rw [ho]
  exact rfl

theorem shapeOf_storesTo :
    ∀ m ∈ [Mnemonic.STA, .STX, .STY, .SAX, .ASL, .LSR, .ROL, .ROR, .INC, .DEC, .SLO, .RLA, .SRE, .RRA, .DCP, .ISB],
      (shapeOf i m).StoresTo o := by
  simp only [List.forall_mem_cons, List.not_mem_nil, false_implies, implies_true, and_true]
  have store := storeShape_storesTo ho
  have modify := modifyShape_storesTo ho
  have composite := modifyReadShape_storesTo ho
  exact ⟨store valSta, store valStx, store valSty, store valSax, modify modAsl, modify modLsr, modify modRol,
    modify modRor, modify modInc, modify modDec, composite modAsl opOra, composite modRol opAnd, composite modLsr opEor,
    composite modRor opAdc, composite modDec opCmp, composite modInc opSbc⟩

end

/-- Settles O59: a store changes the byte at the resolved address, an unstable one the byte at the address its value gives;
the registers it stores are those before, since the resolver changes the bus only. -/
theorem storesChangeOneByte : Obligations.StoresChangeOneByte := by
  refine ⟨fun i s t o r hm ho hr hk h => ?_, fun i s t o r reg hm hx hy hax ho hr hk h => ?_⟩ <;>
    rw [← memOperand_len ho] at hr
  · have frame := Shape.run_frame hr (shapeOf_sound i _) (shapeOf_storesTo ho _ hm) hk (exec_eq_shape i s ▸ h)
    exact ⟨frame.1, fun a ha => frame.plain (List.mem_singleton.not.2 ha)⟩
  · have same := effAddr_sameButBus hr
    have ax : valSax r.state = s.a &&& s.x := by
      unfold valSax
      rw [same.a_eq, same.x_eq]
      rfl
    have frame : FrameOutside [(unstableStore reg r.ea r.crossed).2] s t := by
      rw [exec_eq_shape] at h
      simp only [List.mem_cons, List.not_mem_nil, or_false] at hm
      rcases hm with hm | hm | hm | hm <;> rw [hm] at h
      · exact unstableStoreShape_frame hr ho id valSax (fun _ => rfl) (ax.trans (hax (.inl hm)).symm) hk h
      · exact unstableStoreShape_frame hr ho id valStx (fun _ => rfl) (same.x_eq.trans (hx hm).symm) hk h
      · exact unstableStoreShape_frame hr ho id valSty (fun _ => rfl) (same.y_eq.trans (hy hm).symm) hk h
      · exact unstableStoreShape_frame hr ho opTas State.sp (fun _ => rfl) (ax.trans (hax (.inr hm)).symm) hk h
    exact ⟨frame.1, fun a ha => frame.plain (List.mem_singleton.not.2 ha)⟩

end Sys2Proof.Machine
end

