-- ==== Sys2Proof/Proofs/Encoding.lean ====
section
/-!
PROOFS. Obligations O1, O2 and O3: the decoder and the encoder are inverse to each other. Both go through the operand that the
bytes after an opcode give: `instrOf_of_operand` builds an instruction from it, and `instrOf_operand` reads it off again.
-/

namespace Sys2Proof.Machine

/-! ### The instruction of an opcode byte -/

/-- The operand that `n` operand bytes give, the low byte first (R91, R93). -/
def operandOf : Nat → Byte → Byte → Operand
  | 0, _, _ => .none
  | 1, l, _ => .byte l
  | _, l, h => .word (wordOf h l)

/-- An instruction is the one built from its opcode and the bytes that give its operand (R94, R95). -/
theorem instrOf_of_operand {i : Instr} {l h : Byte} (e : i.operand = operandOf i.operand.bytes.length l h) :
    instrOf i.opcode l h = i := by
  cases i <;> cases e <;> exact rfl

/-- Other bytes after an instruction's opcode build an instruction of that opcode. -/
theorem instrOf_opcode_self (i : Instr) (l h : Byte) : (instrOf i.opcode l h).opcode = i.opcode := by
  cases i <;> exact rfl

/-- Other bytes after an instruction's opcode give an operand of the same format. -/
theorem instrOf_operand_self (i : Instr) (l h : Byte) :
    (instrOf i.opcode l h).operand = operandOf i.operand.bytes.length l h := by
  cases i <;> exact rfl

/-- Every byte is the opcode of an instruction (R96). -/
theorem exists_opcode (op : Byte) : ∃ i : Instr, i.opcode = op :=
  ⟨instrOf op 0 0, (by decide : ∀ op : Byte, (instrOf op 0 0).opcode = op) op⟩

@[simp] theorem instrOf_opcode (op l h : Byte) : (instrOf op l h).opcode = op := by
  obtain ⟨i, rfl⟩ := exists_opcode op
  exact instrOf_opcode_self i l h

@[simp] theorem instrOf_row (op l h : Byte) : (instrOf op l h).row = rowOf op := congrArg rowOf (instrOf_opcode op l h)

theorem instrOf_operand (op l h : Byte) : (instrOf op l h).operand = operandOf (rowOf op).mode.operandBytes l h := by
  obtain ⟨i, rfl⟩ := exists_opcode op
  rw [instrOf_operand_self, operand_bytes, Instr.row]

/-! ### What the decoder answers -/

theorem operandBytes_le_two (m : Mode) : m.operandBytes ≤ 2 := by cases m <;> decide

/-- What was decoded encodes to the bytes read. -/
theorem encode_of_decode {bytes rest : List Byte} {i : Instr} (h : decode bytes = .ok (i, rest)) :
    encode i ++ rest = bytes := by
  cases bytes with
  | nil => cases h
  | cons op tail =>
    simp only [decode] at h
    split at h
    case h_4 => cases h
    all_goals
      rename_i hn
      cases h
      simp [encode, instrOf_operand, hn, operandOf, Operand.bytes]

/-- The encoding of any instruction decodes to it, whatever follows. -/
theorem decode_encode (i : Instr) (rest : List Byte) : decode (encode i ++ rest) = .ok (i, rest) := by
  have hn : i.operand.bytes.length = (rowOf i.opcode).mode.operandBytes := operand_bytes i
  have built : ∀ l h, i.operand = operandOf i.operand.bytes.length l h →
      (Except.ok (instrOf i.opcode l h, rest) : Except DecodeError _) = .ok (i, rest) := fun _ _ e => by
    rw [instrOf_of_operand e]
  simp only [encode, List.cons_append, decode, ← hn]
  cases ho : i.operand <;> rw [ho] at built
  case none => exact built 0 0 rfl
  case byte b => exact built b 0 rfl
  case word w => exact built (lo w) (hi w) (congrArg Operand.word (wordOf_hi_lo w).symm)

/-- The decoder answers once the operand bytes are there, and leaves the bytes after them. -/
theorem decode_of_operandBytes_le {op : Byte} {rest : List Byte} (h : (rowOf op).mode.operandBytes ≤ rest.length) :
    ∃ i, decode (op :: rest) = .ok (i, rest.drop (rowOf op).mode.operandBytes) := by
  have h2 := operandBytes_le_two (rowOf op).mode
  simp only [decode]
  generalize (rowOf op).mode.operandBytes = n at h h2
  match n, rest, h, h2 with
  | 0, _, _, _ => exact ⟨_, rfl⟩
  | 1, _ :: _, _, _ => exact ⟨_, rfl⟩
  | 2, _ :: _ :: _, _, _ => exact ⟨_, rfl⟩

/-- The decoder refuses when an operand byte is missing (R96). -/
theorem decode_of_lt_operandBytes {op : Byte} {rest : List Byte} (h : rest.length < (rowOf op).mode.operandBytes) :
    decode (op :: rest) = .error (.truncated op) := by
  have h2 := operandBytes_le_two (rowOf op).mode
  simp only [decode]
  generalize (rowOf op).mode.operandBytes = n at h h2
  match n, rest, h, h2 with
  | 1, [], _, _ => rfl
  | 2, [], _, _ => rfl
  | 2, [_], _, _ => rfl

/-! ### The statements -/

/-- Settles O1: the operand bytes of an instruction are those that build it, and every instruction is well formed. -/
theorem decodeOfEncodeIsTheInstruction : Obligations.DecodeOfEncodeIsTheInstruction :=
  fun i rest _ => decode_encode i rest

/-- Settles O2: where the decoder answers, the encoding of its answer is the bytes read, which gives opcode and length. -/
theorem decodeReadsExactlyOneEncoding : Obligations.DecodeReadsExactlyOneEncoding := by
  refine ⟨fun _ _ _ => encode_of_decode, fun op rest h => ?_, fun _ _ => decode_of_lt_operandBytes, rfl⟩
  obtain ⟨i, hi⟩ := decode_of_operandBytes_le h
  have hop : i.opcode = op := (List.cons.inj (encode_of_decode hi)).1
  refine ⟨i, hi, hop, ?_⟩
  calc (encode i).length = 1 + i.row.mode.operandBytes := by
        rw [encode, List.length_cons, operand_bytes, Nat.add_comm]
    _ = 1 + (rowOf op).mode.operandBytes := by rw [Instr.row, hop]

/-- Settles O3: each word is the encoding of its instruction. -/
theorem writtenOutWordsDecode : Obligations.WrittenOutWordsDecode :=
  ⟨decode_encode (.ldaImm 0x05) _, decode_encode .tax _, decode_encode .txa _, decode_encode .brk _,
    decode_encode (.staAbx 0x1234) _, decode_encode (.adcIzy 0x40) _, decode_encode (.eorAbs 0x1234) _,
    decode_encode (.rolZpx 0x10) _, decode_encode (.cpyImm 0x80) _, decode_encode (.bne 0xFB) _,
    decode_encode (.jmpInd 0x02FF) _, decode_encode (.laxZpy 0x10) _, decode_encode (.shxAby 0x4000) _⟩

end Sys2Proof.Machine
end

