-- ==== Sys2Proof/Proofs/DecodedStep.lean ====
section
/-!
PROOFS. Obligation O4: a step over code in RAM or ROM runs the instruction that the code decodes to. A refused unstable opcode
is fetched without its operand bytes (R97), and is refused whatever they are.
-/

namespace Sys2Proof.Machine

/-- The opcode byte that a shape asks the policy of R283 about. -/
def Shape.policyOpcode : Shape → Option Byte
  | .unstableRead opcode _ _ _ => some opcode
  | .unstableStore opcode _ _ _ _ => some opcode
  | _ => none

/-- The instructions under the policy are those of class unstable (R95, R283). -/
theorem shapeOf_policyOpcode (i : Instr) :
    (shapeOf i i.mnemonic).policyOpcode = if i.row.cls = .unst then some i.opcode else none := by
  cases i <;> exact rfl

theorem Shape.run_refused {sh : Shape} {opcode : Byte} {s : State} (h : sh.policyOpcode = some opcode)
    (hp : s.params.unstable = .refuse) : sh.run s = .refused (.unstableOpcode opcode s.pc) := by
  cases sh with
  | unstableRead =>
    cases h
    simp only [Shape.run, underPolicy, hp]
  | unstableStore =>
    cases h
    simp only [Shape.run, underPolicy, hp]
  | _ => cases h

/-- Under the policy `refuse` an unstable opcode is refused, whatever its operand (R283). -/
theorem exec_unstable_refused {i : Instr} {s : State} (hc : i.row.cls = .unst) (hp : s.params.unstable = .refuse) :
    exec i s = .refused (.unstableOpcode i.opcode s.pc) := by
  rw [exec_eq_shape]
  exact Shape.run_refused ((shapeOf_policyOpcode i).trans (if_pos hc)) hp

/-- A step over code in RAM or ROM is the instruction it decodes to, and then the check. -/
theorem step_of_code {s : State} {bytes rest : List Byte} {i : Instr} (hd : decode bytes = .ok (i, rest))
    (hc : s.CodeAt bytes) (hs : s.defined = .all) : step s = thenCheck (exec i s) := by
  have he := encode_of_decode hd
  subst he
  obtain ⟨f, hf, hfs, hi⟩ := fetch_code hd hc
  have same : exec f.instr s = exec i s := by
    rcases hi with hi | ⟨hu, hp, hi⟩
    · rw [hi]
    · rw [hi, exec_unstable_refused (by rwa [instrOf_row]) hp, exec_unstable_refused hu hp, instrOf_opcode]
  unfold step
  rw [stepFetch_eq hs, hf, ← same, ← hfs]

/-- Settles O4: the fetch leaves the state and finds the instruction, and the check follows a next state alone. -/
theorem stepRunsTheDecodedInstruction : Obligations.StepRunsTheDecodedInstruction :=
  fun _ _ _ _ hd _ hc hs => step_of_code hd hc hs

end Sys2Proof.Machine
end

