-- ==== Sys2Proof/Proofs/Costs.lean ====
section
/-!
PROOFS. Obligation O15: an instruction costs what its row of the matrix allows, and the rows allow 2 to 8 cycles.
-/

namespace Sys2Proof.Machine

/-- A base cost, and one cycle more where the page-crossing penalty is paid (R98). -/
def costsWithPenalty (cyc : Nat) (pp : Bool) : List Nat := if pp then [cyc, cyc + 1] else [cyc]

/-- What a branch can cost: not taken, taken, taken to another page (R99, R210). -/
def branchCosts : List Nat := [2, 3, 4]

/-- What an instruction of a row can cost. A halt opcode never completes (R276). -/
def rowCosts (r : Row) : List Nat :=
  if r.cls = .halt then [] else if r.mode = .rel then branchCosts else costsWithPenalty r.cyc r.pp

/-- What an instruction of a shape can cost, as a list. -/
def Shape.costs : Shape → List Nat
  | .implied cyc _ => [cyc]
  | .stack cyc _ => [cyc]
  | .read _ cyc pp _ => costsWithPenalty cyc pp
  | .readTwice _ cyc pp _ _ => costsWithPenalty cyc pp
  | .store _ cyc _ => [cyc]
  | .modify _ cyc _ => [cyc]
  | .modifyRead _ cyc _ _ => [cyc]
  | .branch _ _ => branchCosts
  | .jump _ cyc => [cyc]
  | .jumpIndirect _ cyc => [cyc]
  | .call _ cyc => [cyc]
  | .unstableRead _ _ cyc _ => [cyc]
  | .unstableStore _ _ cyc _ _ => [cyc]
  | .halt _ => []

/-- The shape of an instruction costs what its row says (R95, R98). -/
theorem shapeOf_costs (i : Instr) : (shapeOf i i.mnemonic).costs = rowCosts i.row := by
  cases i <;> exact rfl

theorem cost_mem (cyc : Nat) (pp crossed : Bool) : cost cyc pp crossed ∈ costsWithPenalty cyc pp := by
  cases pp <;> cases crossed <;> simp [cost, costsWithPenalty, bit]

theorem Shape.MayCost.mem_costs {sh : Shape} {n : Nat} (h : sh.MayCost n) : n ∈ sh.costs := by
  cases sh with
  | read =>
    obtain ⟨crossed, rfl⟩ := h
    exact cost_mem _ _ _
  | readTwice =>
    obtain ⟨crossed, rfl⟩ := h
    exact cost_mem _ _ _
  | branch =>
    obtain ⟨h2, h4⟩ := h
    simp only [Shape.costs, branchCosts, List.mem_cons, List.not_mem_nil, or_false]
    omega
  | halt => exact h.elim
  | _ => exact List.mem_singleton.2 h

/-- An instruction that completes returns a cost of its row. -/
theorem exec_cost_mem {i : Instr} {s t : State} (h : exec i s = .next t) : t.consumed ∈ rowCosts i.row :=
  shapeOf_costs i ▸ (exec_accounted h).2.mem_costs

/-- The range of R99, over the costs of every row of the matrix. -/
theorem rowCosts_range (op : Byte) :
    ∀ n ∈ rowCosts (rowOf op), 2 ≤ n ∧ n ≤ 8 ∧
      (n = 8 ↔ (rowOf op).mnemonic ∈ [.SLO, .RLA, .SRE, .RRA, .DCP, .ISB] ∧
        ((rowOf op).mode = .izx ∨ (rowOf op).mode = .izy)) ∧
      ((rowOf op).mode = .rel → n = 2 ∨ n = 3 ∨ n = 4) := by
  revert op
  decide

/-- Settles O15: the cost returned is one of the row's, and from the reset state `NOP` and `ISB ($10),Y` reach the ends. -/
theorem costIsTwoToEight : Obligations.CostIsTwoToEight :=
  ⟨fun i _ _ h => rowCosts_range i.opcode _ (exec_cost_mem h), ⟨.nop, _, rfl, rfl⟩, .isbIzy 0x10, _, rfl, rfl⟩

end Sys2Proof.Machine
end

