-- ==== Sys2Proof/Proofs/EffectiveAddresses.lean ====
section
/-!
PROOFS. Obligation O33: the effective address of every memory mode, written as arithmetic on the operand, the index and the
pointer bytes. An index crosses a page exactly when it carries out of the low byte (R118, R119, R122).
-/

namespace Sys2Proof.Machine

theorem zeroPage_eq_ofNat (b : Byte) : zeroPage b = BitVec.ofNat 16 b.toNat :=
  BitVec.eq_of_toNat_eq (by rw [zeroPage_toNat, BitVec.toNat_ofNat]; omega)

/-- An address in page 0 wraps within page 0 (R114, R115, R121). -/
theorem zeroPage_add (b i : Byte) : zeroPage (b + i) = BitVec.ofNat 16 ((b.toNat + i.toNat) % 256) := by
  rw [zeroPage_eq_ofNat, BitVec.toNat_add]

/-- The byte after an indexed pointer wraps with it (R121). -/
theorem zeroPage_add_add_one (b i : Byte) :
    zeroPage (b + i + 1) = BitVec.ofNat 16 ((b.toNat + i.toNat + 1) % 256) := by
  rw [zeroPage_add, BitVec.toNat_add]
  exact congrArg (BitVec.ofNat 16) (Nat.mod_add_mod _ 256 1)

theorem wordOf_eq_ofNat (h l : Byte) : wordOf h l = BitVec.ofNat 16 (h.toNat * 256 + l.toNat) := by
  rw [← wordOf_toNat, BitVec.ofNat_toNat, BitVec.setWidth_eq]

theorem add_zext16_eq_ofNat (w : Addr) (i : Byte) : w + zext16 i = BitVec.ofNat 16 (w.toNat + i.toNat) := by
  apply BitVec.eq_of_toNat_eq
  rw [BitVec.toNat_add, zext16_toNat, BitVec.toNat_ofNat]

/-- A page is crossed when the low bytes carry, past 0xFFFF too: the high byte moves by that carry modulo 256. -/
theorem hi_add_zext16_ne_iff (w : Addr) (i : Byte) : hi (w + zext16 i) ≠ hi w ↔ 256 ≤ w.toNat % 256 + i.toNat := by
  have hw := w.isLt
  have hb := i.isLt
  rw [Ne, ← BitVec.toNat_inj, hi_toNat, hi_toNat, BitVec.toNat_add, zext16_toNat]
  omega

theorem indexed_eq (w : Addr) (i : Byte) (s : State) :
    indexed w i s =
      { ea := BitVec.ofNat 16 (w.toNat + i.toNat), crossed := decide (256 ≤ w.toNat % 256 + i.toNat), state := s } := by
  have crossing : (hi (w + zext16 i) != hi w) = decide (256 ≤ w.toNat % 256 + i.toNat) := by
    rw [Bool.eq_iff_iff, bne_iff_ne, decide_eq_true_iff, hi_add_zext16_ne_iff]
  rw [indexed, crossing, add_zext16_eq_ofNat]

/-- The word that a pointer's two bytes make is indexed like any other (R122). -/
theorem indexed_wordOf (h l i : Byte) (s : State) :
    indexed (wordOf h l) i s =
      { ea := BitVec.ofNat 16 (h.toNat * 256 + l.toNat + i.toNat), crossed := decide (256 ≤ l.toNat + i.toNat)
        state := s } := by
  have low : (h.toNat * 256 + l.toNat) % 256 = l.toNat := by omega
  rw [indexed_eq, wordOf_toNat, low]

theorem zeroPagePointer_of_reads {s : State} {b : Byte} {l h : BusRead} (hl : memRead s (zeroPage b) = .ok l)
    (hh : memRead l.state (zeroPage (b + 1)) = .ok h) :
    zeroPagePointer s b = .ok { val := wordOf h.val l.val, state := h.state } :=
  (bind_of_ok hl).trans (bind_of_ok hh)

/-- The pointer of `izx` is indexed before it is read, and its word is the address (R121). -/
theorem effAddr_izx {s : State} {b : Byte} {l h : BusRead} (hl : memRead s (zeroPage (b + s.x)) = .ok l)
    (hh : memRead l.state (zeroPage (b + s.x + 1)) = .ok h) :
    effAddr (.izx b) s = .ok { ea := wordOf h.val l.val, crossed := false, state := h.state } :=
  bind_of_ok (zeroPagePointer_of_reads hl hh)

/-- The pointer of `izy` is read, and then its word is indexed; the reads leave Y (R122). -/
theorem effAddr_izy {s : State} {b : Byte} {l h : BusRead} (hl : memRead s (zeroPage b) = .ok l)
    (hh : memRead l.state (zeroPage (b + 1)) = .ok h) :
    effAddr (.izy b) s = .ok (indexed (wordOf h.val l.val) s.y h.state) :=
  bind_of_ok (zeroPagePointer_of_reads hl hh)

/-- Settles O33: each mode's address by the arithmetic above, and the pointers by their two reads. -/
theorem effectiveAddresses : Obligations.EffectiveAddresses := by
  intro s
  refine ⟨fun b => ?zp, fun b => ?zpx, fun b => ?zpy, fun w => rfl, fun w => ?abx, fun w => ?aby,
    fun b l h hl hh => ?izx, fun b l h hl hh => ?izy⟩
  case zp => rw [effAddr, zeroPage_eq_ofNat]
  case zpx => rw [effAddr, zeroPage_add]
  case zpy => rw [effAddr, zeroPage_add]
  case abx => rw [effAddr, indexed_eq]
  case aby => rw [effAddr, indexed_eq]
  case izx =>
    rw [← zeroPage_add] at hl
    rw [← zeroPage_add_add_one] at hh
    rw [effAddr_izx hl hh, wordOf_eq_ofNat]
  case izy =>
    rw [← zeroPage_eq_ofNat] at hl
    have hh : memRead l.state (zeroPage (b + 1)) = .ok h := by rw [zeroPage_add]; exact hh
    rw [effAddr_izy hl hh, indexed_wordOf]

end Sys2Proof.Machine
end

