-- ==== Sys2Proof/Proofs/LoadTransfer.lean ====
section
/-!
PROOFS. Obligations O34 and O35: the loads and the register transfers. The shapes are those of Sys2Proof/Laws; what is added
here is the rows of the matrix and `SetNZ` bit by bit.
-/

namespace Sys2Proof.Machine

/-- The rows of a mnemonic, found by going through the 256 bytes of the matrix (R95). -/
theorem encoded_of_rows {m : Mnemonic} {forms : List (Byte × Mode × Nat × Bool)}
    (complete : ∀ op : Byte, (rowOf op).mnemonic = m → (op, (rowOf op).mode, (rowOf op).cyc, (rowOf op).pp) ∈ forms)
    (sound : ∀ f ∈ forms, (rowOf f.1).mnemonic = m) : Encoded m forms :=
  ⟨complete, sound⟩

/-- `SetNZ` writes Z and N alone: Z is set on a zero byte, N is bit 7 (R33). -/
theorem setNZ_eq (s : State) (v : Byte) :
    s.setNZ v = { s with p := { s.p with z := decide (v = 0), n := v.getLsbD 7 } } := by
  have hz : (v == 0) = decide (v = 0) := beq_eq_decide v 0
  have hn : v.msb = v.getLsbD 7 := BitVec.msb_eq_getLsbD_last v
  rw [State.setNZ, Flags.setNZ, hz, hn]

/-- Settles O34: every form reads its operand once, and what the handler does with it ends in `SetNZ` of that byte. -/
theorem loads : Obligations.Loads := by
  refine ⟨?ldaRows, ?ldxRows, ?ldyRows, ?lda, ?ldx, ?ldy⟩
  case ldaRows => exact encoded_of_rows (by decide) (by decide)
  case ldxRows => exact encoded_of_rows (by decide) (by decide)
  case ldyRows => exact encoded_of_rows (by decide) (by decide)
  case lda => exact actsOnOperand_of (op := opLda) (by decide) (fun _ => rfl) fun v _ => setNZ_eq _ v
  case ldx => exact actsOnOperand_of (op := opLdx) (by decide) (fun _ => rfl) fun v _ => setNZ_eq _ v
  case ldy => exact actsOnOperand_of (op := opLdy) (by decide) (fun _ => rfl) fun v _ => setNZ_eq _ v

/-- Settles O35: each transfer is implied, and ends in `SetNZ` of its source but for `TXS`. -/
theorem transfers : Obligations.Transfers := by
  refine ⟨?taxRows, ?tayRows, ?txaRows, ?tyaRows, ?tsxRows, ?txsRows, ?tax, ?tay, ?txa, ?tya, ?tsx, ?txs⟩
  case taxRows => exact encoded_of_rows (by decide) (by decide)
  case tayRows => exact encoded_of_rows (by decide) (by decide)
  case txaRows => exact encoded_of_rows (by decide) (by decide)
  case tyaRows => exact encoded_of_rows (by decide) (by decide)
  case tsxRows => exact encoded_of_rows (by decide) (by decide)
  case txsRows => exact encoded_of_rows (by decide) (by decide)
  case tax => exact actsImplied_of (op := opTax) (fun _ _ => rfl) fun s => setNZ_eq _ s.a
  case tay => exact actsImplied_of (op := opTay) (fun _ _ => rfl) fun s => setNZ_eq _ s.a
  case txa => exact actsImplied_of (op := opTxa) (fun _ _ => rfl) fun s => setNZ_eq _ s.x
  case tya => exact actsImplied_of (op := opTya) (fun _ _ => rfl) fun s => setNZ_eq _ s.y
  case tsx => exact actsImplied_of (op := opTsx) (fun _ _ => rfl) fun s => setNZ_eq _ s.sp
  case txs => exact actsImplied_of (op := opTxs) (fun _ _ => rfl) fun _ => rfl

end Sys2Proof.Machine
end

