-- ==== Sys2Proof/Proofs/Stores.lean ====
section
/-!
PROOFS. Obligation O36: the stores. The resolver may read pointer bytes, through the bus alone, so the registers that a store
writes are those before it.
-/

namespace Sys2Proof.Machine

/-- `SAX` stores the conjunction of two registers, which the bus leaves alone (R268). -/
theorem SameButBus.valSax_eq {s t : State} (h : SameButBus s t) : valSax t = s.a &&& s.x := by
  rw [valSax, h.a_eq, h.x_eq]

/-- Settles O36: every form has an effective address, and what it stores is of registers that resolving it leaves alone. -/
theorem stores : Obligations.Stores := by
  refine ⟨?staRows, ?stxRows, ?styRows, ?saxRows, ?sta, ?stx, ?sty, ?sax⟩
  case staRows => exact encoded_of_rows (by decide) (by decide)
  case stxRows => exact encoded_of_rows (by decide) (by decide)
  case styRows => exact encoded_of_rows (by decide) (by decide)
  case saxRows => exact encoded_of_rows (by decide) (by decide)
  case sta => exact actsByStoring_of (val := valSta) (by decide) (fun _ => rfl) fun _ h => h.a_eq
  case stx => exact actsByStoring_of (val := valStx) (by decide) (fun _ => rfl) fun _ h => h.x_eq
  case sty => exact actsByStoring_of (val := valSty) (by decide) (fun _ => rfl) fun _ h => h.y_eq
  case sax => exact actsByStoring_of (val := valSax) (by decide) (fun _ => rfl) fun _ h => h.valSax_eq

end Sys2Proof.Machine
end

