-- ==== Sys2Proof/Proofs/Arithmetic.lean ====
section
/-!
PROOFS. Obligations O30, O31, O32, O37 and O38: binary and packed-BCD addition and subtraction, then `ADC` and `SBC`, which are
made of them. `addBinary` is a sum of numbers with bits 8 and 7 looked at; on packed BCD the decimal operations are arithmetic
modulo 100, of which the round trip follows.
-/

namespace Sys2Proof.Machine

theorem bit_le_one (c : Bool) : bit c ≤ 1 := by cases c <;> decide

theorem bit_not (c : Bool) : bit (!c) = 1 - bit c := by cases c <;> rfl

theorem bit_decide (p : Prop) [Decidable p] : bit (decide p) = if p then 1 else 0 := by
  by_cases h : p <;> simp [h, bit]

/-! ### Bytes as numbers -/

theorem byte_msb (b : Byte) : b.msb = decide (128 ≤ b.toNat) := BitVec.msb_eq_decide b

theorem byte_toInt (b : Byte) : b.toInt = if 128 ≤ b.toNat then (b.toNat : Int) - 256 else b.toNat := by
  rw [BitVec.toInt_eq_msb_cond, byte_msb]
  simp

/-- A byte without bit 7. -/
theorem toNat_and_0x7F (b : Byte) : (b &&& 0x7F).toNat = b.toNat % 128 :=
  (BitVec.toNat_and b 0x7F).trans (Nat.and_two_pow_sub_one_eq_mod b.toNat 7)

/-- Bit 7 alone. -/
theorem and_0x80_ne_zero (b : Byte) : decide (b &&& 0x80 ≠ 0) = b.msb := by
  revert b
  decide

/-- The complement as a number (R164). -/
theorem toNat_xor_0xFF (b : Byte) : (b ^^^ 0xFF).toNat = 255 - b.toNat := by
  rw [show (0xFF : Byte) = BitVec.allOnes 8 from rfl, BitVec.xor_allOnes, BitVec.toNat_not]

/-- The complement as a signed number (R164). -/
theorem toInt_xor_0xFF (b : Byte) : (b ^^^ 0xFF).toInt = -b.toInt - 1 := by
  rw [byte_toInt, byte_toInt, toNat_xor_0xFF]
  split <;> split <;> omega

/-! ### Binary addition (R160) -/

/-- The carry is bit 8 of a sum below 512. -/
theorem addBinary_c (a m : Byte) (c : Bool) : (addBinary a m c).c = decide (256 ≤ a.toNat + m.toNat + bit c) := by
  have hc := bit_le_one c
  rw [addBinary, Nat.testBit_eq_decide_div_mod_eq, decide_eq_decide]
  omega

/-- The carry into bit 7, against two operands of one sign, is signed overflow. -/
theorem addBinary_v (a m : Byte) (c : Bool) :
    (addBinary a m c).v = decide (a.toInt + m.toInt + bit c < -128 ∨ 127 < a.toInt + m.toInt + bit c) := by
  have hc := bit_le_one c
  rw [addBinary, byte_msb, byte_msb, byte_toInt, byte_toInt, toNat_and_0x7F, toNat_and_0x7F,
    Nat.testBit_eq_decide_div_mod_eq (i := 7), Bool.eq_iff_iff]
  simp only [Bool.or_eq_true, Bool.and_eq_true, Bool.not_eq_true', decide_eq_true_iff, decide_eq_false_iff_not]
  split <;> split <;> omega

theorem addBinary_eq (a m : Byte) (c : Bool) :
    addBinary a m c =
      { r := BitVec.ofNat 8 (a.toNat + m.toNat + bit c)
        c := decide (256 ≤ a.toNat + m.toNat + bit c)
        v := decide (a.toInt + m.toInt + bit c < -128 ∨ 127 < a.toInt + m.toInt + bit c) } := by
  rw [← addBinary_c, ← addBinary_v]
  rfl

/-- Overflow by signs: the operands have the same sign and the result has the other. -/
theorem addBinary_v_eq_signs (a m : Byte) (c : Bool) :
    (addBinary a m c).v = ((a ^^^ (addBinary a m c).r) &&& (m ^^^ (addBinary a m c).r)).msb := by
  have hc := bit_le_one c
  rw [BitVec.msb_and, BitVec.msb_xor, BitVec.msb_xor, addBinary_eq, byte_msb, byte_msb, byte_msb, byte_toInt, byte_toInt,
    BitVec.toNat_ofNat, Bool.eq_iff_iff]
  simp only [Bool.and_eq_true, bne_iff_ne, Ne, decide_eq_decide, decide_eq_true_iff]
  split <;> split <;> omega

/-- Adding the complement subtracts, and the carry is the inverted borrow (R164). -/
theorem addBinary_xor_0xFF (a m : Byte) (c : Bool) :
    addBinary a (m ^^^ 0xFF) c =
      { r := a - m - BitVec.ofNat 8 (1 - bit c)
        c := decide (m.toNat + (1 - bit c) ≤ a.toNat)
        v := decide (a.toInt - m.toInt - (1 - bit c : Nat) < -128 ∨ 127 < a.toInt - m.toInt - (1 - bit c : Nat)) } := by
  have hc := bit_le_one c
  have signed : a.toInt + (m ^^^ 0xFF).toInt + bit c = a.toInt - m.toInt - (1 - bit c : Nat) := by
    rw [toInt_xor_0xFF]
    omega
  rw [addBinary_eq, signed, toNat_xor_0xFF, AddResult.mk.injEq]
  refine ⟨BitVec.eq_of_toNat_eq ?_, decide_eq_decide.2 ?_, rfl⟩
  · simp only [BitVec.toNat_sub, BitVec.toNat_ofNat]
    omega
  · omega

/-- Settles O30: sum and carry are the nine bits of one number, and overflow is read from the signed sum and from the signs. -/
theorem binaryAddition : Obligations.BinaryAddition := by
  intro a m c
  refine ⟨?sum, ?overflow, ?signs⟩
  case sum =>
    have hc := bit_le_one c
    rw [addBinary_eq, bit_decide, BitVec.toNat_ofNat]
    split <;> omega
  case overflow => rw [addBinary_v, decide_eq_true_iff]
  case signs => rw [addBinary_v_eq_signs, and_0x80_ne_zero]

/-! ### Packed BCD (R161, R162) -/

theorem validBcd_iff (b : Byte) : validBcd b = true ↔ b.toNat % 16 ≤ 9 ∧ b.toNat / 16 ≤ 9 := by
  rw [validBcd, Bool.and_eq_true, decide_eq_true_iff, decide_eq_true_iff]

/-- The packed-BCD byte of a number below 100. -/
def packBcd (n : Nat) : Byte := BitVec.ofNat 8 (n / 10 * 16 + n % 10)

theorem packBcd_toNat {n : Nat} (h : n < 100) : (packBcd n).toNat = n / 10 * 16 + n % 10 := by
  rw [packBcd, BitVec.toNat_ofNat]
  omega

theorem validBcd_packBcd {n : Nat} (h : n < 100) : validBcd (packBcd n) = true := by
  rw [validBcd_iff, packBcd_toNat h]
  omega

theorem bcdValue_packBcd {n : Nat} (h : n < 100) : bcdValue (packBcd n) = n := by
  rw [bcdValue, packBcd_toNat h]
  omega

theorem bcdValue_lt {b : Byte} (h : validBcd b = true) : bcdValue b < 100 := by
  rw [validBcd_iff] at h
  rw [bcdValue]
  omega

theorem packBcd_bcdValue {b : Byte} (h : validBcd b = true) : packBcd (bcdValue b) = b := by
  apply BitVec.eq_of_toNat_eq
  rw [packBcd_toNat (bcdValue_lt h), bcdValue]
  rw [validBcd_iff] at h
  omega

/-- The correction makes the low nibble of a digit sum its last decimal digit. -/
theorem correctUp_mod {n : Nat} (h : n ≤ 19) : correctUp n % 16 = n % 10 := by
  rw [correctUp]
  split <;> omega

/-- A corrected digit sum carries out of its nibble exactly when the sum carries in decimal. -/
theorem correctUp_gt_iff (n : Nat) : correctUp n > 15 ↔ 10 ≤ n := by
  rw [correctUp]
  split <;> omega

theorem correctDown_mod {n : Int} (h₁ : -10 ≤ n) (h₂ : n ≤ 9) : correctDown n % 16 = n % 10 := by
  rw [correctDown]
  split <;> omega

/-- `AddDecimal` of packed BCD is decimal addition (R161). -/
theorem addDecimal_eq {a m : Byte} (c : Bool) (ha : validBcd a = true) (hm : validBcd m = true) :
    addDecimal a m c =
      { r := packBcd ((bcdValue a + bcdValue m + bit c) % 100)
        c := decide (100 ≤ bcdValue a + bcdValue m + bit c) } := by
  obtain ⟨ha0, ha1⟩ := (validBcd_iff a).1 ha
  obtain ⟨hm0, hm1⟩ := (validBcd_iff m).1 hm
  have hc := bit_le_one c
  have hcarry := bit_le_one (decide (10 ≤ a.toNat % 16 + m.toNat % 16 + bit c))
  rw [addDecimal, DecimalResult.mk.injEq, decide_eq_decide]
  simp only [correctUp_gt_iff]
  rw [correctUp_mod (by omega), correctUp_mod (by omega), bit_decide, packBcd, bcdValue, bcdValue]
  refine ⟨congrArg (BitVec.ofNat 8) ?_, ?_⟩ <;> split <;> omega

/-- `SubDecimal` of packed BCD is decimal subtraction (R162). -/
theorem subDecimal_eq {a m : Byte} (c : Bool) (ha : validBcd a = true) (hm : validBcd m = true) :
    subDecimal a m c =
      { r := packBcd (((bcdValue a : Int) - bcdValue m - (1 - bit c : Nat)) % 100).toNat
        c := decide (0 ≤ (bcdValue a : Int) - bcdValue m - (1 - bit c : Nat)) } := by
  obtain ⟨ha0, ha1⟩ := (validBcd_iff a).1 ha
  obtain ⟨hm0, hm1⟩ := (validBcd_iff m).1 hm
  have hc := bit_le_one c
  have hborrow := bit_le_one (decide (((a.toNat % 16 : Nat) : Int) - (m.toNat % 16 : Nat) - (1 - bit c : Nat) < 0))
  rw [subDecimal, DecimalResult.mk.injEq, decide_eq_decide, correctDown_mod (by omega) (by omega),
    correctDown_mod (by omega) (by omega), bit_decide, packBcd, bcdValue, bcdValue]
  refine ⟨congrArg (BitVec.ofNat 8) ?_, ?_⟩ <;> split <;> omega

/-- Settles O31: both operations answer the packed byte of a number modulo 100. -/
theorem decimalAdditionAndSubtraction : Obligations.DecimalAdditionAndSubtraction := by
  intro a m c ha hm
  rw [addDecimal_eq c ha hm, subDecimal_eq c ha hm]
  have hs : (bcdValue a + bcdValue m + bit c) % 100 < 100 := Nat.mod_lt _ (by decide)
  have hd : (((bcdValue a : Int) - bcdValue m - (1 - bit c : Nat)) % 100).toNat < 100 := by omega
  refine ⟨⟨validBcd_packBcd hs, bcdValue_packBcd hs, decide_eq_true_iff⟩, validBcd_packBcd hd, ?_, decide_eq_true_iff⟩
  rw [bcdValue_packBcd hd, Int.toNat_of_nonneg (Int.emod_nonneg _ (by decide))]

/-- Settles O32: modulo 100 the difference is the number added to, and it borrows exactly when the sum carried. -/
theorem bcdRoundTrip : Obligations.BcdRoundTrip := by
  intro a m c ha hm
  have hs : (bcdValue a + bcdValue m + bit c) % 100 < 100 := Nat.mod_lt _ (by decide)
  have hc := bit_le_one c
  have hav := bcdValue_lt ha
  have hmv := bcdValue_lt hm
  rw [addDecimal_eq c ha hm, subDecimal_eq _ (validBcd_packBcd hs) hm, bcdValue_packBcd hs, bit_not]
  refine ⟨?byte, ?carry⟩
  case byte =>
    calc packBcd _ = packBcd (bcdValue a) := congrArg packBcd (by omega)
      _ = a := packBcd_bcdValue ha
  case carry =>
    rw [← decide_not, decide_eq_decide]
    omega

/-! ### ADC and SBC (R163, R164) -/

theorem putBinary_eq (r : AddResult) (s : State) :
    putBinary r s =
      { s with a := r.r, p := { s.p with n := r.r.getLsbD 7, z := decide (r.r = 0), c := r.c, v := r.v } } :=
  setNZ_eq { s with a := r.r, p := { s.p with c := r.c, v := r.v } } r.r

/-- In decimal mode the result byte and the carry are those given when both operands are packed BCD, and `V` is some value;
`Z` and `N` follow the byte. -/
theorem putDecimal_spec (m : Byte) (r : DecimalResult) (s : State) :
    ∃ (out : Byte) (c v : Bool), (validBcd s.a = true → validBcd m = true → out = r.r ∧ c = r.c) ∧
      putDecimal m r s = { s with
        a := out, p := { s.p with n := out.getLsbD 7, z := decide (out = 0), c := c, v := v }, draws := s.draws + 1 } := by
  refine ⟨_, _, Config.freeV s.draws, fun ha hm => ?packed,
    setNZ_eq { s with a := _, p := { s.p with c := _, v := Config.freeV s.draws }, draws := s.draws + 1 } _⟩
  case packed => simp [ha, hm]

/-- The binary path is `addBinary`, the decimal one `addDecimal` (R163). -/
theorem adcOutcome_opAdc (m : Byte) (s : State) : AdcOutcome m s (opAdc m s) := by
  refine ⟨fun hd => ?binary, fun hd => ?decimal⟩
  case binary =>
    rw [opAdc, if_neg (ne_true_of_eq_false hd), putBinary_eq, addBinary_eq]
  case decimal =>
    rw [opAdc, if_pos hd]
    exact putDecimal_spec m _ s

/-- The binary path adds the complement, the decimal one is `subDecimal` (R164). -/
theorem sbcOutcome_opSbc (m : Byte) (s : State) : SbcOutcome m s (opSbc m s) := by
  refine ⟨fun hd => ?binary, fun hd => ?decimal⟩
  case binary =>
    rw [opSbc, if_neg (ne_true_of_eq_false hd), putBinary_eq, addBinary_xor_0xFF]
  case decimal =>
    rw [opSbc, if_pos hd]
    exact putDecimal_spec m _ s

/-- Settles O37: every form reads its operand once, and adds it by `addBinary` or `addDecimal`. -/
theorem adcAddsWithCarry : Obligations.AdcAddsWithCarry :=
  ⟨encoded_of_rows (by decide) (by decide),
    endsOnOperand_of (op := opAdc) (by decide) (fun _ => rfl) adcOutcome_opAdc⟩

/-- Settles O38: every form reads its operand once, and adds its complement or takes it by `subDecimal`. -/
theorem sbcSubtractsWithBorrow : Obligations.SbcSubtractsWithBorrow :=
  ⟨encoded_of_rows (by decide) (by decide),
    endsOnOperand_of (op := opSbc) (by decide) (fun _ => rfl) sbcOutcome_opSbc⟩

end Sys2Proof.Machine
end

