-- ==== Sys2Proof/Proofs/Logic.lean ====
section
/-!
PROOFS. Obligation O39: `AND`, `ORA`, `EOR` and `BIT`. All four read their operand once. The first three end in `SetNZ` of the
combined byte; `BIT` does not, since its Z is of the conjunction and its N is of the operand.
-/

namespace Sys2Proof.Machine

/-- `BIT` writes no register, and of the flags Z, N and V alone (R173). -/
theorem opBit_eq (m : Byte) (s : State) :
    opBit m s = { s with p := { s.p with z := decide (s.a &&& m = 0), n := m.getLsbD 7, v := m.getLsbD 6 } } := by
  have hz : (s.a &&& m == 0) = decide (s.a &&& m = 0) := beq_eq_decide (s.a &&& m) 0
  rw [opBit, hz]

/-- Settles O39: every form reads its operand once; `AND`, `ORA` and `EOR` end in `SetNZ` of the byte put in A, `BIT` sets its
three flags. -/
theorem logicAndBitTest : Obligations.LogicAndBitTest := by
  refine ⟨?andRows, ?oraRows, ?eorRows, ?bitRows, ?and, ?ora, ?eor, ?bit⟩
  case andRows => exact encoded_of_rows (by decide) (by decide)
  case oraRows => exact encoded_of_rows (by decide) (by decide)
  case eorRows => exact encoded_of_rows (by decide) (by decide)
  case bitRows => exact encoded_of_rows (by decide) (by decide)
  case and => exact actsOnOperand_of (op := opAnd) (by decide) (fun _ => rfl) fun m s => setNZ_eq _ (s.a &&& m)
  case ora => exact actsOnOperand_of (op := opOra) (by decide) (fun _ => rfl) fun m s => setNZ_eq _ (s.a ||| m)
  case eor => exact actsOnOperand_of (op := opEor) (by decide) (fun _ => rfl) fun m s => setNZ_eq _ (s.a ^^^ m)
  case bit => exact actsOnOperand_of (op := opBit) (by decide) (fun _ => rfl) opBit_eq

end Sys2Proof.Machine
end

