-- ==== Sys2Proof/Proofs/ShiftIncDec.lean ====
section
/-!
PROOFS. Obligations O40, O41 and O42: shifts and rotates, and increments and decrements of memory and of registers. The
accumulator form and the memory forms of a shift are one function of the old byte and the flags, so each function is put in the
statement's form once. The rotates bring C in as a number, which is the bit 0 or the bit 7 of the statement.
-/

namespace Sys2Proof.Machine

/-! ### The new byte and the flags, bit by bit (R181 to R186) -/

theorem Flags.setNZ_eq (p : Flags) (v : Byte) : p.setNZ v = { p with z := decide (v = 0), n := v.getLsbD 7 } := by
  have hz : (v == 0) = decide (v = 0) := beq_eq_decide v 0
  have hn : v.msb = v.getLsbD 7 := BitVec.msb_eq_getLsbD_last v
  rw [Flags.setNZ, hz, hn]

/-- The new byte is kept as it is, the bit shifted out goes to C, and Z and N follow the byte. -/
theorem shifted_eq (new : Byte) (out : Bool) (p : Flags) :
    shifted new out p = (new, { p with c := out, z := decide (new = 0), n := new.getLsbD 7 }) :=
  congrArg (Prod.mk new) (Flags.setNZ_eq { p with c := out } new)

/-- The carry that `ROL` brings in is bit 0. -/
theorem ofNat_bit (c : Bool) : BitVec.ofNat 8 (bit c) = if c then 0x01 else 0x00 := by
  cases c <;> rfl

/-- The carry that `ROR` brings in is bit 7. -/
theorem ofNat_bit_mul_128 (c : Bool) : BitVec.ofNat 8 (bit c * 128) = if c then 0x80 else 0x00 := by
  cases c <;> rfl

theorem modAsl_eq (old : Byte) (p : Flags) :
    modAsl old p =
      let new := old <<< 1
      (new, { p with c := old.getLsbD 7, z := decide (new = 0), n := new.getLsbD 7 }) :=
  shifted_eq _ _ p

theorem modLsr_eq (old : Byte) (p : Flags) :
    modLsr old p =
      let new := old >>> 1
      (new, { p with c := old.getLsbD 0, z := decide (new = 0), n := new.getLsbD 7 }) :=
  shifted_eq _ _ p

theorem modRol_eq (old : Byte) (p : Flags) :
    modRol old p =
      let new := (old <<< 1) ||| (if p.c then 0x01 else 0x00)
      (new, { p with c := old.getLsbD 7, z := decide (new = 0), n := new.getLsbD 7 }) := by
  rw [modRol, shifted_eq, ofNat_bit]

theorem modRor_eq (old : Byte) (p : Flags) :
    modRor old p =
      let new := (old >>> 1) ||| (if p.c then 0x80 else 0x00)
      (new, { p with c := old.getLsbD 0, z := decide (new = 0), n := new.getLsbD 7 }) := by
  rw [modRor, shifted_eq, ofNat_bit_mul_128]

theorem modInc_eq (old : Byte) (p : Flags) :
    modInc old p =
      let new := old + 1
      (new, { p with z := decide (new = 0), n := new.getLsbD 7 }) :=
  congrArg (Prod.mk _) (Flags.setNZ_eq p _)

theorem modDec_eq (old : Byte) (p : Flags) :
    modDec old p =
      let new := old - 1
      (new, { p with z := decide (new = 0), n := new.getLsbD 7 }) :=
  congrArg (Prod.mk _) (Flags.setNZ_eq p _)

/-! ### The three obligations -/

/-- Settles O40: the accumulator form has no memory operand and is the implied run of the function on A; every other form has
an effective address, where the read and the two writes complete. -/
theorem shiftsAndRotates : Obligations.ShiftsAndRotates := by
  refine ⟨?aslRows, ?lsrRows, ?rolRows, ?rorRows, ?aslAcc, ?aslMem, ?lsrAcc, ?lsrMem, ?rolAcc, ?rolMem, ?rorAcc, ?rorMem⟩
  case aslRows => exact encoded_of_rows (by decide) (by decide)
  case lsrRows => exact encoded_of_rows (by decide) (by decide)
  case rolRows => exact encoded_of_rows (by decide) (by decide)
  case rorRows => exact encoded_of_rows (by decide) (by decide)
  case aslAcc => exact modifiesAccumulator_of (fun _ => rfl) modAsl_eq
  case aslMem => exact modifiesMemory_of (by decide) (fun _ => rfl) modAsl_eq
  case lsrAcc => exact modifiesAccumulator_of (fun _ => rfl) modLsr_eq
  case lsrMem => exact modifiesMemory_of (by decide) (fun _ => rfl) modLsr_eq
  case rolAcc => exact modifiesAccumulator_of (fun _ => rfl) modRol_eq
  case rolMem => exact modifiesMemory_of (by decide) (fun _ => rfl) modRol_eq
  case rorAcc => exact modifiesAccumulator_of (fun _ => rfl) modRor_eq
  case rorMem => exact modifiesMemory_of (by decide) (fun _ => rfl) modRor_eq

/-- Settles O41: every form has an effective address, where the read and the two writes complete; of the flags, `SetNZ` writes
Z and N alone. -/
theorem incrementsAndDecrementsOfMemory : Obligations.IncrementsAndDecrementsOfMemory := by
  refine ⟨?incRows, ?decRows, ?inc, ?dec⟩
  case incRows => exact encoded_of_rows (by decide) (by decide)
  case decRows => exact encoded_of_rows (by decide) (by decide)
  case inc => exact modifiesMemory_of (by decide) (fun _ => rfl) modInc_eq
  case dec => exact modifiesMemory_of (by decide) (fun _ => rfl) modDec_eq

/-- Settles O42: each is implied, and ends in `SetNZ` of the byte put in the register. -/
theorem incrementsAndDecrementsOfRegisters : Obligations.IncrementsAndDecrementsOfRegisters := by
  refine ⟨?inxRows, ?inyRows, ?dexRows, ?deyRows, ?inx, ?iny, ?dex, ?dey⟩
  case inxRows => exact encoded_of_rows (by decide) (by decide)
  case inyRows => exact encoded_of_rows (by decide) (by decide)
  case dexRows => exact encoded_of_rows (by decide) (by decide)
  case deyRows => exact encoded_of_rows (by decide) (by decide)
  case inx => exact actsImplied_of (op := opInx) (fun _ _ => rfl) fun s => setNZ_eq _ (s.x + 1)
  case iny => exact actsImplied_of (op := opIny) (fun _ _ => rfl) fun s => setNZ_eq _ (s.y + 1)
  case dex => exact actsImplied_of (op := opDex) (fun _ _ => rfl) fun s => setNZ_eq _ (s.x - 1)
  case dey => exact actsImplied_of (op := opDey) (fun _ _ => rfl) fun s => setNZ_eq _ (s.y - 1)

end Sys2Proof.Machine
end

