-- ==== Sys2Proof/Proofs/Compare.lean ====
section
/-!
PROOFS. Obligation O43: `CMP`, `CPX` and `CPY`. All three read their operand once and hand it, with their register, to
`Flags.compare`, so that function is put in the statement's form once. Its Z is of the 8-bit difference, which is 0 exactly
when register and operand are equal.
-/

namespace Sys2Proof.Machine

/-- Carry, zero and sign of a comparison, each from the two bytes alone (R200). -/
theorem Flags.compare_eq (p : Flags) (r m : Byte) :
    p.compare r m = { p with c := decide (m.toNat ≤ r.toNat), z := decide (r = m), n := (r - m).getLsbD 7 } := by
  have hz : decide (r - m = 0) = decide (r = m) := decide_eq_decide.mpr sub_eq_zero
  rw [Flags.compare, Flags.setNZ_eq, hz]

/-- A comparison leaves all but the flags as it is, whichever register it reads. -/
theorem withFlags_compare (s : State) (r m : Byte) :
    s.withFlags (s.p.compare r m) =
      { s with p := { s.p with c := decide (m.toNat ≤ r.toNat), z := decide (r = m), n := (r - m).getLsbD 7 } } :=
  congrArg s.withFlags (Flags.compare_eq s.p r m)

/-- Settles O43: every form reads its operand once, and sets the flags by comparing A, X or Y with it. -/
theorem compares : Obligations.Compares := by
  refine ⟨?cmpRows, ?cpxRows, ?cpyRows, ?cmp, ?cpx, ?cpy⟩
  case cmpRows => exact encoded_of_rows (by decide) (by decide)
  case cpxRows => exact encoded_of_rows (by decide) (by decide)
  case cpyRows => exact encoded_of_rows (by decide) (by decide)
  case cmp => exact actsOnOperand_of (op := opCmp) (by decide) (fun _ => rfl) fun m s => withFlags_compare s s.a m
  case cpx => exact actsOnOperand_of (op := opCpx) (by decide) (fun _ => rfl) fun m s => withFlags_compare s s.x m
  case cpy => exact actsOnOperand_of (op := opCpy) (by decide) (fun _ => rfl) fun m s => withFlags_compare s s.y m

end Sys2Proof.Machine
end

