-- ==== Sys2Proof/Proofs/Branches.lean ====
section
/-!
PROOFS. Obligation O44: the eight branches, which have one shape and differ in their condition alone.
-/

namespace Sys2Proof.Machine

/-- Settles O44: every branch has the relative mode, and its shape is `runBranch` under the condition of its rule. -/
theorem branchesHold : Obligations.Branches := by
  refine ⟨?bplRow, ?bmiRow, ?bvcRow, ?bvsRow, ?bccRow, ?bcsRow, ?bneRow, ?beqRow, ?bpl, ?bmi, ?bvc, ?bvs, ?bcc, ?bcs, ?bne,
    ?beq⟩
  case bplRow => exact encoded_of_rows (by decide) (by decide)
  case bmiRow => exact encoded_of_rows (by decide) (by decide)
  case bvcRow => exact encoded_of_rows (by decide) (by decide)
  case bvsRow => exact encoded_of_rows (by decide) (by decide)
  case bccRow => exact encoded_of_rows (by decide) (by decide)
  case bcsRow => exact encoded_of_rows (by decide) (by decide)
  case bneRow => exact encoded_of_rows (by decide) (by decide)
  case beqRow => exact encoded_of_rows (by decide) (by decide)
  case bpl => exact branchesOn_of (by decide) fun _ => rfl
  case bmi => exact branchesOn_of (by decide) fun _ => rfl
  case bvc => exact branchesOn_of (by decide) fun _ => rfl
  case bvs => exact branchesOn_of (by decide) fun _ => rfl
  case bcc => exact branchesOn_of (by decide) fun _ => rfl
  case bcs => exact branchesOn_of (by decide) fun _ => rfl
  case bne => exact branchesOn_of (by decide) fun _ => rfl
  case beq => exact branchesOn_of (by decide) fun _ => rfl

end Sys2Proof.Machine
end

