-- ==== Sys2Proof/Proofs/StackFlagsJumps.lean ====
section
/-!
PROOFS. Obligations O45, O46, O47 and O48: the stack instructions, the jumps, calls and returns, `BRK` and `RTI`, and the flag
instructions. Each bus access of them completes where every address is mapped, and `exec` puts the accesses together.
-/

namespace Sys2Proof.Machine

/-! ### The shapes, from what their handlers answer -/

theorem runStack_of_ok {cyc : Nat} {f : State → Except Fault State} {s u : State} (h : f (s.advance 1) = .ok u) :
    runStack cyc f s = .next (u.account cyc) :=
  congrArg finish (bind_of_ok h)

theorem runJumpIndirect_of_ok {w : Addr} {cyc : Nat} {s : State} {r : WordRead}
    (h : indirectTarget (s.advance 3) w = .ok r) :
    runJumpIndirect w cyc s = .next (({ r.state with pc := r.val } : State).account cyc) :=
  congrArg finish (bind_of_ok h)

/-- The address of the third byte of a call. -/
theorem add_three_sub_one (pc : Addr) : pc + 3 - 1 = pc + 2 := by bv_omega

/-- A call pushes the address of its own third byte (R234). -/
theorem runCall_of_ok {w : Addr} {cyc : Nat} {s u : State} (h : pushWord (s.advance 3) (s.pc + 2) = .ok u) :
    runCall w cyc s = .next (({ u with pc := w } : State).account cyc) := by
  rw [← add_three_sub_one] at h
  exact congrArg finish (bind_of_ok h)

/-- The second byte of a `JMP ($nnnn)` pointer is on the pointer's page (R120). -/
theorem wordOf_hi_lo_add_one (w : Addr) :
    wordOf (hi w) (lo w + 1) = BitVec.ofNat 16 (w.toNat / 256 * 256 + (w.toNat + 1) % 256) := by
  rw [wordOf_eq_ofNat, hi_toNat, BitVec.toNat_add, lo_toNat]
  exact congrArg (fun n => BitVec.ofNat 16 (w.toNat / 256 * 256 + n)) (Nat.mod_add_mod w.toNat 256 1)

/-! ### A trap entry, access by access -/

/-- The accesses of a trap entry where every address is mapped, and the state it answers (R310). -/
theorem trap_steps {s : State} (hs : s.FullyMapped) (kind : TrapKind) :
    ∃ a b c l h, push s (hi (trapReturn s.pc kind)) = .ok a ∧ push a (lo (trapReturn s.pc kind)) = .ok b ∧
      push b (trapByte s.p kind) = .ok c ∧
      memRead { c with p := { s.p with i := true } } (vector s.params kind) = .ok l ∧
      memRead l.state (vector s.params kind + 1) = .ok h ∧
      trap kind s = .ok { h.state with
        pc := wordOf h.val l.val, cycles := h.state.cycles + BitVec.ofNat 64 (trapLatency kind) } ∧
      h.state.cycles = s.cycles := by
  obtain ⟨t, ht, -⟩ := trap_completes hs kind
  obtain ⟨b, c, v, hb, hc, hv, rfl⟩ := trap_ok ht
  obtain ⟨a, ha, hab⟩ := pushWord_ok hb
  obtain ⟨l, h, hl, hh, rfl⟩ := memReadWord_ok hv
  have two := pushWord_sameButBus hb
  have third := push_sameButBus hc
  have hp : c.p = s.p := third.p_eq.trans two.p_eq
  have hparams : c.params = s.params := third.params_eq.trans two.params_eq
  have hcycles : h.state.cycles = s.cycles :=
    (memReadWord_sameButBus hv).cycles_eq.trans (third.cycles_eq.trans two.cycles_eq)
  rw [two.p_eq] at hc
  rw [hp, hparams] at hl
  rw [hparams] at hh
  exact ⟨a, b, c, l, h, ha, hab, hc, hl, hh, ht, hcycles⟩

/-! ### The four obligations -/

/-- Settles O45: a push and a pull complete, and a pull leaves the flags as they were. -/
theorem pushesAndPulls : Obligations.PushesAndPulls := by
  refine ⟨?phaRow, ?phpRow, ?plaRow, ?plpRow, fun s hs => ?_⟩
  case phaRow => exact encoded_of_rows (by decide) (by decide)
  case phpRow => exact encoded_of_rows (by decide) (by decide)
  case plaRow => exact encoded_of_rows (by decide) (by decide)
  case plpRow => exact encoded_of_rows (by decide) (by decide)
  have mapped : (s.advance 1).FullyMapped := hs.of_eq rfl rfl
  obtain ⟨r, hr, -⟩ := pull_completes mapped
  refine ⟨?pha, ?php, ⟨r, hr, ?pla⟩, r, hr, ?plp⟩
  case pha =>
    obtain ⟨t, ht, -⟩ := push_completes mapped s.a
    exact ⟨t, ht, runStack_of_ok (f := stPha) ht⟩
  case php =>
    obtain ⟨t, ht, -⟩ := push_completes mapped s.p.softwareByte
    exact ⟨t, ht, runStack_of_ok (f := stPhp) ht⟩
  case pla =>
    have hp : s.p = r.state.p := (pull_sameButBus hr).p_eq.symm
    have pulled : stPla (s.advance 1) = .ok (({ r.state with a := r.val } : State).setNZ r.val) := bind_of_ok hr
    rw [setNZ_eq] at pulled
    rw [hp]
    exact runStack_of_ok pulled
  case plp =>
    have pulled : stPlp (s.advance 1) = .ok (r.state.withFlags (Flags.ofByte r.val)) := bind_of_ok hr
    exact runStack_of_ok pulled

/-- Settles O46: the pointer's two reads, the two pushes of a call and the two pulls of a return, in order. -/
theorem jumpsAndSubroutines : Obligations.JumpsAndSubroutines := by
  refine ⟨?jmpRows, ?jsrRow, ?rtsRow, fun w s => runJump_eq w 3, fun w s hs => ?jmpInd, fun w s hs => ?jsr,
    fun s hs => ?rts⟩
  case jmpRows => exact encoded_of_rows (by decide) (by decide)
  case jsrRow => exact encoded_of_rows (by decide) (by decide)
  case rtsRow => exact encoded_of_rows (by decide) (by decide)
  case jmpInd =>
    obtain ⟨r, hr, -⟩ := indirectTarget_completes (s := s.advance 3) (hs.of_eq rfl rfl) w
    obtain ⟨l, h, hl, hh, rfl⟩ := indirectTarget_ok hr
    rw [wordOf_hi_lo_add_one] at hh
    exact ⟨l, h, hl, hh, runJumpIndirect_of_ok hr⟩
  case jsr =>
    obtain ⟨u, hu, -⟩ := pushWord_completes (s := s.advance 3) (hs.of_eq rfl rfl) (s.pc + 2)
    obtain ⟨t, ht, htu⟩ := pushWord_ok hu
    exact ⟨t, u, ht, htu, runCall_of_ok hu⟩
  case rts =>
    obtain ⟨r, hr, -⟩ := pullWord_completes (s := s.advance 1) (hs.of_eq rfl rfl)
    obtain ⟨l, h, hl, hh, rfl⟩ := pullWord_ok hr
    have returned : stRts (s.advance 1) = .ok { h.state with pc := wordOf h.val l.val + 1 } := bind_of_ok hr
    exact ⟨l, h, hl, hh, runStack_of_ok returned⟩

/-- Settles O47: `BRK` is the trap entry one past its opcode, which adds no latency; `RTI` pulls three bytes. -/
theorem breakAndReturnFromInterrupt : Obligations.BreakAndReturnFromInterrupt := by
  refine ⟨?brkRow, ?rtiRow, fun s hs => ?brk, fun s hs => ?rti⟩
  case brkRow => exact encoded_of_rows (by decide) (by decide)
  case rtiRow => exact encoded_of_rows (by decide) (by decide)
  case brk =>
    obtain ⟨a, b, c, l, h, ha, hb, hc, hl, hh, ht, -⟩ := trap_steps (s := s.advance 1) (hs.of_eq rfl rfl) .brk
    have ret : trapReturn (s.advance 1).pc .brk = s.pc + 2 := BitVec.add_assoc s.pc 1 1
    have noLatency : h.state.cycles + BitVec.ofNat 64 (trapLatency .brk) = h.state.cycles := BitVec.add_zero _
    rw [ret] at ha hb
    rw [noLatency] at ht
    exact ⟨a, b, c, l, h, ha, hb, hc, hl, hh, runStack_of_ok ht⟩
  case rti =>
    obtain ⟨t, ht, -⟩ := returnFromTrap_completes (s := s.advance 1) (hs.of_eq rfl rfl)
    obtain ⟨f, r, hf, hr, rfl⟩ := returnFromTrap_ok ht
    obtain ⟨l, h, hl, hh, rfl⟩ := pullWord_ok hr
    exact ⟨f, l, h, hf, hl, hh, runStack_of_ok ht⟩

/-- Settles O48: each flag instruction is implied and replaces one field of the flags; `NOP` at 0xEA is implied and does
nothing. -/
theorem flagInstructionsAndNop : Obligations.FlagInstructionsAndNop := by
  refine ⟨?clcRow, ?secRow, ?cliRow, ?seiRow, ?clvRow, ?cldRow, ?sedRow, rfl, ?clc, ?sec, ?cli, ?sei, ?clv, ?cld, ?sed,
    fun s => runImplied_eq (s := s) 2 opNop⟩
  case clcRow => exact encoded_of_rows (by decide) (by decide)
  case secRow => exact encoded_of_rows (by decide) (by decide)
  case cliRow => exact encoded_of_rows (by decide) (by decide)
  case seiRow => exact encoded_of_rows (by decide) (by decide)
  case clvRow => exact encoded_of_rows (by decide) (by decide)
  case cldRow => exact encoded_of_rows (by decide) (by decide)
  case sedRow => exact encoded_of_rows (by decide) (by decide)
  case clc => exact actsImplied_of (op := opClc) (fun _ _ => rfl) fun _ => rfl
  case sec => exact actsImplied_of (op := opSec) (fun _ _ => rfl) fun _ => rfl
  case cli => exact actsImplied_of (op := opCli) (fun _ _ => rfl) fun _ => rfl
  case sei => exact actsImplied_of (op := opSei) (fun _ _ => rfl) fun _ => rfl
  case clv => exact actsImplied_of (op := opClv) (fun _ _ => rfl) fun _ => rfl
  case cld => exact actsImplied_of (op := opCld) (fun _ _ => rfl) fun _ => rfl
  case sed => exact actsImplied_of (op := opSed) (fun _ _ => rfl) fun _ => rfl

end Sys2Proof.Machine
end

