-- ==== Sys2Proof/Proofs/Undocumented.lean ====
section
/-!
PROOFS. Obligations O49, O50, O51, O52 and O53: the undocumented opcodes. Each is a shape that the documented ones have, or two
handlers in sequence against one address; what is added here is what each handler does to the flags, bit by bit.
-/

namespace Sys2Proof.Machine

/-! ### Handlers, flag by flag -/

theorem opAnc_eq (m : Byte) (s : State) :
    opAnc m s =
      let v := s.a &&& m
      { s with a := v, p := { s.p with z := decide (v = 0), n := v.getLsbD 7, c := v.getLsbD 7 } } :=
  setNZ_eq { s with a := _, p := { s.p with c := (s.a &&& m).getLsbD 7 } } (s.a &&& m)

theorem opAlr_eq (m : Byte) (s : State) :
    opAlr m s =
      let t := s.a &&& m
      let v := t >>> 1
      { s with a := v, p := { s.p with z := decide (v = 0), n := v.getLsbD 7, c := t.getLsbD 0 } } :=
  setNZ_eq { s with a := _, p := { s.p with c := (s.a &&& m).getLsbD 0 } } ((s.a &&& m) >>> 1)

/-- In binary mode the flags are of the rotated byte alone (R271). -/
theorem opArr_binary {m : Byte} {s : State} (hd : s.p.d = false) :
    opArr m s =
      let r := ((s.a &&& m) >>> 1) ||| (if s.p.c then 0x80 else 0x00)
      { s with
        a := r
        p := { s.p with z := decide (r = 0), n := r.getLsbD 7, c := r.getLsbD 6, v := r.getLsbD 6 ^^ r.getLsbD 5 } } := by
  simp only [opArr, hd, ofNat_bit_mul_128, Flags.setNZ_eq, Bool.false_eq_true, if_false]

/-- In decimal mode each nibble has its own correction, and C is that of the high one (R271; log entry 15). -/
theorem opArr_decimal {m : Byte} {s : State} (hd : s.p.d ≠ false) :
    opArr m s =
      let t := s.a &&& m
      let r := (t >>> 1) ||| (if s.p.c then 0x80 else 0x00)
      { s with
        a := if arrHigh t then arrLow t r + 0x60 else arrLow t r
        p := { s.p with n := s.p.c, z := decide (r = 0), v := t.getLsbD 6 ^^ r.getLsbD 6, c := arrHigh t } } := by
  simp only [opArr, eq_true_of_ne_false hd, ofNat_bit_mul_128, if_true, beq_eq_decide]

/-- The flags of `SBX` are those of a compare, with Z of the difference (R272). -/
theorem opSbx_eq (m : Byte) (s : State) :
    opSbx m s =
      let t := s.a &&& s.x
      let v := t - m
      { s with x := v, p := { s.p with z := decide (v = 0), n := v.getLsbD 7, c := decide (m.toNat ≤ t.toNat) } } :=
  setNZ_eq { s with x := _, p := { s.p with c := decide (m.toNat ≤ (s.a &&& s.x).toNat) } } ((s.a &&& s.x) - m)

/-! ### The unstable opcodes where they execute -/

theorem underPolicy_execute {opcode : Byte} {run : State → Host.Outcome State Fault Refusal} {s : State}
    (h : s.params.unstable = .execute) : underPolicy opcode run s = run s := by
  rw [underPolicy, h]

/-- An operand that stands in the instruction is read with no bus access, and never crosses a page (R112). -/
theorem runRead_imm (b : Byte) (cyc : Nat) (pp : Bool) (op : Byte → State → State) (s : State) :
    runRead (.imm b) cyc pp op s = .next ((op b (s.advance 2)).account cyc) := by
  cases pp <;> rfl

/-! ### Two reads of one address -/

theorem runReadTwice_of_ok {o : MemOperand} {cyc : Nat} {pp : Bool} {first second : Byte → State → State} {s : State}
    {r : Resolved} {b c : BusRead} (hr : effAddr o (s.advance o.len) = .ok r) (hb : memRead r.state r.ea = .ok b)
    (hc : memRead (first b.val b.state) r.ea = .ok c) :
    runReadTwice o cyc pp first second s = .next ((second c.val c.state).account (cost cyc pp r.crossed)) := by
  rw [runReadTwice, hr, ok_bind, hb, ok_bind, hc]
  rfl

/-! ### The five obligations -/

/-- Settles O49: every form has an effective address, where the read-modify-write and the second read complete. -/
theorem readModifyWriteComposites : Obligations.ReadModifyWriteComposites := by
  refine ⟨?sloRows, ?rlaRows, ?sreRows, ?rraRows, ?dcpRows, ?isbRows, ?slo, ?rla, ?sre, ?rra, ?dcp, ?isb⟩
  case sloRows => exact encoded_of_rows (by decide) (by decide)
  case rlaRows => exact encoded_of_rows (by decide) (by decide)
  case sreRows => exact encoded_of_rows (by decide) (by decide)
  case rraRows => exact encoded_of_rows (by decide) (by decide)
  case dcpRows => exact encoded_of_rows (by decide) (by decide)
  case isbRows => exact encoded_of_rows (by decide) (by decide)
  case slo =>
    exact modifiesThenActs_of (op := opOra) (by decide) (fun _ => rfl) modAsl_eq fun m s => setNZ_eq _ (s.a ||| m)
  case rla =>
    exact modifiesThenActs_of (op := opAnd) (by decide) (fun _ => rfl) modRol_eq fun m s => setNZ_eq _ (s.a &&& m)
  case sre =>
    exact modifiesThenActs_of (op := opEor) (by decide) (fun _ => rfl) modLsr_eq fun m s => setNZ_eq _ (s.a ^^^ m)
  case rra => exact modifiesThenActs_of (op := opAdc) (by decide) (fun _ => rfl) modRor_eq adcOutcome_opAdc
  case dcp =>
    exact modifiesThenActs_of (op := opCmp) (by decide) (fun _ => rfl) modDec_eq fun m s => withFlags_compare s s.a m
  case isb => exact modifiesThenActs_of (op := opSbc) (by decide) (fun _ => rfl) modInc_eq sbcOutcome_opSbc

/-- Settles O50: every form has an effective address, where both reads complete; the flags that the second sets replace those
of the first. -/
theorem laxLoadsTwice : Obligations.LaxLoadsTwice := by
  refine ⟨encoded_of_rows (by decide) (by decide), fun i s hi hs => ?_⟩
  have memoryModes : ∀ op : Byte, (rowOf op).mnemonic = .LAX → (rowOf op).mode ∉ [.imp, .acc, .imm, .rel, .ind] := by
    decide
  obtain ⟨o, ho⟩ := memOperand_isSome (memoryModes i.opcode hi)
  obtain ⟨r, hr, mr⟩ := effAddr_completes (s := s.advance i.row.len) (hs.of_eq rfl rfl) o
  obtain ⟨b, hb, mb⟩ := memRead_completes mr r.ea
  obtain ⟨c, hc, -⟩ := memRead_completes (s := opLda b.val b.state) (mb.of_eq rfl rfl) r.ea
  have run : exec i s = .next ((opLdx c.val c.state).account (cost i.row.cyc i.row.pp r.crossed)) := by
    rw [exec_eq_shape, hi]
    change (readTwiceShape i opLda opLdx).run s = _
    rw [readTwiceShape, ho]
    exact runReadTwice_of_ok (memOperand_len ho ▸ hr) hb hc
  have loadedA : opLda b.val b.state =
      { b.state with a := b.val, p := { s.p with z := decide (b.val = 0), n := b.val.getLsbD 7 } } := by
    have hp : b.state.p = s.p := (memRead_sameButBus hb).p_eq.trans (effAddr_sameButBus hr).p_eq
    rw [← hp]
    exact setNZ_eq _ _
  rw [loadedA] at hc
  have loadedX : opLdx c.val c.state =
      { c.state with x := c.val, p := { s.p with z := decide (c.val = 0), n := c.val.getLsbD 7 } } := by
    have hp : c.state.p = { s.p with z := decide (b.val = 0), n := b.val.getLsbD 7 } := (memRead_sameButBus hc).p_eq
    refine (setNZ_eq _ _).trans ?_
    rw [hp]
  rw [loadedX] at run
  exact ⟨o, r, b, c, ho, hr, hb, hc, run⟩

/-- Settles O51: without an operand a `NOP` is implied, with one it reads it once; what it does is nothing. -/
theorem nopsReadAndForget : Obligations.NopsReadAndForget := by
  refine ⟨encoded_of_rows (by decide) (by decide), ?implied, ?operand⟩
  case implied =>
    have shape : ∀ i : Instr, i.row.mode = .imp → shapeOf i .NOP = .implied i.row.cyc (opSkip 0) := fun i hmode => by
      rw [shapeOf, readShape, src_eq_none hmode]
    exact actsImplied_of shape fun _ => rfl
  case operand => exact actsOnOperand_of (op := opSkip) (by decide) (fun _ => rfl) fun _ _ => rfl

/-- Settles O52: every form reads its operand once; `ARR` has a path for each mode of arithmetic. -/
theorem otherUndocumentedOperations : Obligations.OtherUndocumentedOperations := by
  refine ⟨?ancRows, ?alrRow, ?arrRow, ?sbxRow, ?lasRow, ?anc, ?alr, ?arr, ?sbx, ?las⟩
  case ancRows => exact encoded_of_rows (by decide) (by decide)
  case alrRow => exact encoded_of_rows (by decide) (by decide)
  case arrRow => exact encoded_of_rows (by decide) (by decide)
  case sbxRow => exact encoded_of_rows (by decide) (by decide)
  case lasRow => exact encoded_of_rows (by decide) (by decide)
  case anc => exact actsOnOperand_of (op := opAnc) (by decide) (fun _ => rfl) opAnc_eq
  case alr => exact actsOnOperand_of (op := opAlr) (by decide) (fun _ => rfl) opAlr_eq
  case arr =>
    refine actsOnOperand_of (op := opArr) (by decide) (fun _ => rfl) fun m s => ?_
    by_cases hd : s.p.d = false
    · exact (opArr_binary hd).trans (if_pos hd).symm
    · exact (opArr_decimal hd).trans (if_neg hd).symm
  case sbx => exact actsOnOperand_of (op := opSbx) (by decide) (fun _ => rfl) opSbx_eq
  case las => exact actsOnOperand_of (op := opLas) (by decide) (fun _ => rfl) fun m s => setNZ_eq _ (m &&& s.sp)

/-- Settles O53: under `execute` the policy adds nothing. The registers that an unstable store writes are those before it,
since resolving its address changes the bus alone. -/
theorem unstableOpcodesUnderExecute : Obligations.UnstableOpcodesUnderExecute := by
  refine ⟨?aneRow, ?lxaRow, ?shaRows, ?shxRow, ?shyRow, ?tasRow, fun b s hx => ?ane, fun b s hx => ?lxa, ?sha, ?shx, ?shy,
    ?tas⟩
  case aneRow => exact encoded_of_rows (by decide) (by decide)
  case lxaRow => exact encoded_of_rows (by decide) (by decide)
  case shaRows => exact encoded_of_rows (by decide) (by decide)
  case shxRow => exact encoded_of_rows (by decide) (by decide)
  case shyRow => exact encoded_of_rows (by decide) (by decide)
  case tasRow => exact encoded_of_rows (by decide) (by decide)
  case ane =>
    refine (underPolicy_execute hx).trans ((runRead_imm b 2 false opAne s).trans ?_)
    rw [opAne, setNZ_eq]
    rfl
  case lxa =>
    refine (underPolicy_execute hx).trans ((runRead_imm b 2 false opLxa s).trans ?_)
    rw [opLxa, setNZ_eq]
    rfl
  case sha => exact actsByUnstableStore_of (by decide) (fun _ => rfl) (fun _ => rfl) fun _ h => h.valSax_eq
  case shx => exact actsByUnstableStore_of (by decide) (fun _ => rfl) (fun _ => rfl) fun _ h => h.x_eq
  case shy => exact actsByUnstableStore_of (by decide) (fun _ => rfl) (fun _ => rfl) fun _ h => h.y_eq
  case tas => exact actsByUnstableStore_of (by decide) (fun _ => rfl) (fun _ => rfl) fun _ h => h.valSax_eq

end Sys2Proof.Machine
end

