-- ==== Sys2Proof/Proofs/Stops.lean ====
section
/-!
PROOFS. Obligations O54 and O11: where a step stops. A halt opcode stops on every path and an unstable one where the policy
refuses it; where every address is mapped nothing else does, since every shape but those completes.
-/

namespace Sys2Proof.Machine

/-! ### Halt opcodes -/

theorem exec_jam {i : Instr} (hi : i.mnemonic = .JAM) (s : State) : exec i s = .fault (.invalidOpcode i.opcode s.pc) := by
  rw [exec_eq_shape, hi]
  rfl

/-- The opcodes of class halt are those of `JAM` (R95, R276). -/
theorem halt_mnemonic {i : Instr} (h : i.row.cls = .halt) : i.mnemonic = .JAM :=
  (by decide : ∀ op : Byte, (rowOf op).cls = .halt → (rowOf op).mnemonic = .JAM) i.opcode h

/-- An instruction without operand bytes is its opcode (R90). -/
theorem encode_implied {i : Instr} (h : i.row.mode = .imp) : encode i = [i.opcode] := by
  have hb := operand_bytes i
  rw [h] at hb
  rw [encode, List.eq_nil_of_length_eq_zero hb]

/-- `JAM` is one byte long (R276). -/
theorem jam_mode {i : Instr} (hi : i.mnemonic = .JAM) : i.row.mode = .imp :=
  (by decide : ∀ op : Byte, (rowOf op).mnemonic = .JAM → (rowOf op).mode = .imp) i.opcode hi

/-- Settles O54: `JAM` faults in `exec`, and a step over code is `exec` and then the check, which follows no fault. -/
theorem haltAndRefusedOpcodesStop : Obligations.HaltAndRefusedOpcodesStop := by
  refine ⟨encoded_of_rows (by decide) (by decide), fun i s hi => exec_jam hi s, fun i s hi hc hd => ?_,
    fun i s hc hp => exec_unstable_refused hc hp⟩
  have decoded : decode [i.opcode] = .ok (i, []) := by
    rw [← encode_implied (jam_mode hi)]
    simpa using decode_encode i []
  rw [step_of_code decoded hc hd, exec_jam hi]
  rfl

/-! ### Every other instruction completes where every address is mapped -/

/-- The shape is that of a halt opcode. -/
def Shape.isHalt : Shape → Bool
  | .halt _ => true
  | _ => false

theorem shapeOf_isHalt (i : Instr) : (shapeOf i i.mnemonic).isHalt = decide (i.row.cls = .halt) := by
  cases i <;> exact rfl

theorem bind_completes {α β : Type} {x : Except Fault α} {f : α → Except Fault β} {a : α} (h : x = .ok a)
    (k : ∃ b, f a = .ok b) : ∃ b, (x >>= f) = .ok b := by
  rwa [bind_of_ok h]

theorem finish_completes {r : Except Fault State} (h : ∃ t, r = .ok t) : ∃ t, finish r = .next t := by
  obtain ⟨t, rfl⟩ := h
  exact ⟨t, rfl⟩

theorem runRead_completes {s : State} (hs : s.FullyMapped) (src : Src) (cyc : Nat) (pp : Bool)
    (op : Byte → State → State) : ∃ t, runRead src cyc pp op s = .next t := by
  obtain ⟨r, hr, -⟩ := readSrc_completes (s := s.advance src.len) (hs.of_eq rfl rfl) src
  exact finish_completes (bind_completes hr ⟨_, rfl⟩)

/-- A shape that does not halt completes where every address is mapped and the policy lets it run. -/
theorem Shape.run_completes {sh : Shape} {s : State} (hsh : sh.Sound) (hhalt : sh.isHalt = false)
    (hpolicy : sh.policyOpcode.isSome = true → s.params.unstable = .execute) (hs : s.FullyMapped) :
    ∃ t, sh.run s = .next t := by
  have advanced : ∀ n, (s.advance n).FullyMapped := fun n => hs.of_eq rfl rfl
  cases sh with
  | implied cyc f => exact ⟨_, runImplied_eq cyc f⟩
  | stack cyc f =>
    obtain ⟨u, hu⟩ := hsh.completes (advanced 1)
    exact ⟨_, runStack_of_ok hu⟩
  | read src cyc pp op => exact runRead_completes hs src cyc pp op
  | readTwice o cyc pp first second =>
    obtain ⟨r, hr, mr⟩ := effAddr_completes (advanced o.len) o
    obtain ⟨b, hb, mb⟩ := memRead_completes mr r.ea
    have handled := hsh.1 b.val b.state
    obtain ⟨c, hc, -⟩ := memRead_completes (mb.of_eq handled.regions_eq handled.mapOrder_eq) r.ea
    exact finish_completes (bind_completes hr (bind_completes hb (bind_completes hc ⟨_, rfl⟩)))
  | store o cyc val =>
    obtain ⟨r, hr, mr⟩ := effAddr_completes (advanced o.len) o
    obtain ⟨u, hu, -⟩ := memWrite_completes mr r.ea (val r.state)
    exact finish_completes (bind_completes hr (bind_completes hu ⟨_, rfl⟩))
  | modify o cyc f =>
    obtain ⟨r, hr, mr⟩ := effAddr_completes (advanced o.len) o
    obtain ⟨u, hu, -⟩ := modifyMem_completes mr f r.ea
    exact finish_completes (bind_completes hr (bind_completes hu ⟨_, rfl⟩))
  | modifyRead o cyc f op =>
    obtain ⟨r, hr, mr⟩ := effAddr_completes (advanced o.len) o
    obtain ⟨u, hu, mu⟩ := modifyMem_completes mr f r.ea
    obtain ⟨b, hb, -⟩ := memRead_completes mu r.ea
    exact finish_completes (bind_completes hr (bind_completes hu (bind_completes hb ⟨_, rfl⟩)))
  | branch cond off => exact ⟨_, runBranch_eq cond off⟩
  | jump w cyc => exact ⟨_, runJump_eq w cyc⟩
  | jumpIndirect w cyc =>
    obtain ⟨r, hr, -⟩ := indirectTarget_completes (advanced 3) w
    exact ⟨_, runJumpIndirect_of_ok hr⟩
  | call w cyc =>
    obtain ⟨u, hu, -⟩ := pushWord_completes (advanced 3) (s.pc + 2)
    exact ⟨_, runCall_of_ok hu⟩
  | unstableRead opcode src cyc op =>
    obtain ⟨t, ht⟩ := runRead_completes hs src cyc false op
    exact ⟨t, (underPolicy_execute (hpolicy rfl)).trans ht⟩
  | unstableStore opcode o cyc before val =>
    obtain ⟨r, hr, mr⟩ := effAddr_completes (advanced o.len) o
    have handled := hsh r.state
    obtain ⟨u, hu, -⟩ := memWrite_completes (mr.of_eq handled.regions_eq handled.mapOrder_eq)
      (Machine.unstableStore (val (before r.state)) r.ea r.crossed).2
      (Machine.unstableStore (val (before r.state)) r.ea r.crossed).1
    have run := underPolicy_execute (opcode := opcode) (run := runUnstableStore o cyc before val) (hpolicy rfl)
    obtain ⟨t, ht⟩ : ∃ t, runUnstableStore o cyc before val s = .next t :=
      finish_completes (bind_completes hr (bind_completes hu ⟨_, rfl⟩))
    exact ⟨t, run.trans ht⟩
  | halt opcode => cases hhalt

theorem exec_completes {i : Instr} {s : State} (hs : s.FullyMapped) (hhalt : i.row.cls ≠ .halt)
    (hpolicy : i.row.cls = .unst → s.params.unstable = .execute) : ∃ t, exec i s = .next t ∧ t.FullyMapped := by
  have policy : (shapeOf i i.mnemonic).policyOpcode.isSome = true → s.params.unstable = .execute := fun h => by
    rw [shapeOf_policyOpcode] at h
    split at h
    · exact hpolicy ‹_›
    · cases h
  obtain ⟨t, ht⟩ := Shape.run_completes (shapeOf_sound i _) ((shapeOf_isHalt i).trans (decide_eq_false hhalt)) policy hs
  have run : exec i s = .next t := (exec_eq_shape i s).trans ht
  exact ⟨t, run, exec_keeps fullyMapped_invariant run hs⟩

/-! ### The step -/

/-- A fetch completes where every address is mapped, and the instruction it finds has the opcode at `PC`. -/
theorem fetch_completes {s : State} (hs : s.FullyMapped) :
    ∃ op f, memRead s s.pc = .ok op ∧ fetch s = .ok f ∧ f.instr.opcode = op.val ∧ f.state.FullyMapped := by
  obtain ⟨op, hop, mop⟩ := memRead_completes hs s.pc
  obtain ⟨b1, h1, m1⟩ := memRead_completes mop (s.pc + 1)
  obtain ⟨b2, h2, m2⟩ := memRead_completes m1 (s.pc + 2)
  have found : ∃ f, fetch s = .ok f ∧ f.instr.opcode = op.val ∧ f.state.FullyMapped := by
    rw [fetch, bind_of_ok hop]
    split
    · exact ⟨_, rfl, instrOf_opcode _ _ _, mop⟩
    · rw [bind_of_ok h1]
      exact ⟨_, rfl, instrOf_opcode _ _ _, m1⟩
    · rw [bind_of_ok h1, bind_of_ok h2]
      exact ⟨_, rfl, instrOf_opcode _ _ _, m2⟩
  obtain ⟨f, hf⟩ := found
  exact ⟨op, f, hop, hf⟩

theorem step_of_fetch {s : State} {f : Fetched} (hd : s.defined = .all) (hf : fetch s = .ok f) :
    step s = thenCheck (exec f.instr f.state) := by
  rw [step, stepFetch_eq hd, hf]

/-- Settles O11: the fetch finds an instruction of the row of the opcode read, and then that instruction and the check
complete, but for a halt opcode and a refused one. -/
theorem mappedStepNeverHitsAGap : Obligations.MappedStepNeverHitsAGap := by
  intro s hs hd
  obtain ⟨op, f, hop, hf, hcode, mf⟩ := fetch_completes hs
  have same := fetch_sameButBus hf
  have hrow : f.instr.row = rowOf op.val := congrArg rowOf hcode
  have hstep := step_of_fetch hd hf
  have completes (hhalt : f.instr.row.cls ≠ .halt) (hpolicy : f.instr.row.cls = .unst → s.params.unstable = .execute) :
      ∃ t, step s = .next t := by
    obtain ⟨u, hu, mu⟩ := exec_completes mf hhalt fun h => same.params_eq ▸ hpolicy h
    obtain ⟨t, ht, -⟩ := interruptCheck_completes mu
    rw [hstep, hu]
    exact ⟨t, congrArg finish ht⟩
  refine ⟨op, hop, ?_⟩
  rw [← hrow, ← hcode, ← same.pc_eq]
  refine ⟨fun hc => ?halt, fun hc hp => ?refused, fun hc hp => ?executed, fun hc => ?stable⟩
  case halt =>
    rw [hstep, exec_jam (halt_mnemonic hc)]
    rfl
  case refused =>
    rw [hstep, exec_unstable_refused hc (same.params_eq ▸ hp)]
    rfl
  case executed => exact completes (by rw [hc]; exact nofun) fun _ => hp
  case stable => rcases hc with hc | hc <;> exact completes (by rw [hc]; exact nofun) (by rw [hc]; exact nofun)

end Sys2Proof.Machine
end

