-- ==== Sys2Proof/Proofs/InterruptCheck.lean ====
section
/-!
PROOFS. Obligations O17 and O18: the check at the end of a step services one request at most, RESET over NMI over IRQ.
-/

namespace Sys2Proof.Machine

/-- Settles O17: each clause is one path through the check. -/
theorem checkServicesOneRequest : Obligations.CheckServicesOneRequest := by
  intro s
  refine ⟨fun hreset => ?reset, fun hreset hnmi => ?nmi, fun hreset hnmi hirq hi => ?irq,
    fun hreset hnmi hirq hi hpolicy => ?dropped, fun hreset hnmi hirq hi hpolicy => ?kept, fun hnone => ?nothing⟩
  case reset => exact if_pos hreset
  case nmi =>
    rw [interruptCheck, if_neg (ne_true_of_eq_false hreset), if_pos hnmi]
    rfl
  case nothing => rw [interruptCheck, hnone]; rfl
  all_goals
    rw [interruptCheck, if_neg (ne_true_of_eq_false hreset), if_neg (ne_true_of_eq_false hnmi), if_pos hirq, checkIrq]
  case irq =>
    rw [if_neg (ne_true_of_eq_false hi)]
    rfl
  case dropped =>
    rw [if_pos hi, hpolicy]
    rfl
  case kept => rw [if_pos hi, hpolicy]

/-- The pending set after the check: what was serviced or dropped is out of it. -/
theorem interruptCheck_pending {s t : State} (h : interruptCheck s = .ok t) :
    t.pending =
      if s.pending.reset then { reset := false, nmi := false, irq := false }
      else if s.pending.nmi then { s.pending with nmi := false }
      else if s.pending.irq && s.p.i && decide (s.params.irqMasked = .keep) then s.pending
      else { s.pending with irq := false } := by
  rcases interruptCheck_ok h with ⟨hreset, h⟩ | ⟨hreset, hnmi, h⟩ | ⟨hreset, hnmi, hirq, hi, h⟩ |
    ⟨hreset, hnmi, hirq, hi, hpolicy, rfl⟩ | ⟨hreset, hnmi, hkept, rfl⟩
  · rw [(resetMachine_sameButBus h).pending_eq, if_pos hreset]
    rfl
  · simp only [(trap_sameButBus h).pending_eq, hreset, hnmi, Bool.false_eq_true, if_false, if_true]
    rfl
  · simp only [(trap_sameButBus h).pending_eq, hreset, hnmi, hi, Bool.and_false, Bool.false_and, Bool.false_eq_true,
      if_false]
    rfl
  · simp [hreset, hnmi, hpolicy]
  · cases hirq : t.pending.irq
    · have unchanged : { t.pending with irq := false } = t.pending := by rw [← hirq]
      rw [if_neg (ne_true_of_eq_false hreset), if_neg (ne_true_of_eq_false hnmi), if_neg (by simp), unchanged]
    · simp [hreset, hnmi, hkept hirq]

/-- Settles O18: the fetch and the instruction leave the pending set, and the check takes out what it services. -/
theorem stepTakesAtMostOneRequest : Obligations.StepTakesAtMostOneRequest := by
  refine ⟨fun s t h => ?step, fun k s => ?twice, fun j k s => ?swap, fun _ => rfl, fun _ => rfl, fun _ => rfl⟩
  case step =>
    obtain ⟨-, f, u, hf, hu, ht⟩ := step_next h
    obtain ⟨⟨hparams, hpending, -⟩, -⟩ := exec_accounted hu
    have fetched := fetch_sameButBus hf
    have pending := interruptCheck_pending ht
    rw [hparams, hpending, fetched.params_eq, fetched.pending_eq] at pending
    exact ⟨f, u, hf, hu, pending⟩
  case twice => cases k <;> rfl
  case swap => cases j <;> cases k <;> rfl

end Sys2Proof.Machine
end

