-- ==== Sys2Proof/Proofs/CallsAndTraps.lean ====
section
/-!
PROOFS. Obligations O19, O20 and O21: what a trap entry and a call leave on the stack, and the returns that undo them. Where the
stack page is RAM the bytes pushed stand in their slots, and the pulls of the return read them there.
-/

namespace Sys2Proof.Machine

/-! ### Bytes on the stack -/

/-- The slots of pushes are apart as long as fewer than 256 are made. -/
theorem slot_ne (s : State) {m n : Byte} (h : m ≠ n) : s.slot m ≠ s.slot n :=
  fun e => h (sub_right_injective (wordOf_inj.1 e).2)

/-- A byte pushed to RAM stands in its slot. -/
theorem push_stored {s t : State} {v : Byte} (h : push s v = .ok t) (hw : s.busWf = true)
    (hk : s.kindAt s.stackAddr = some .ram) : diagRead t s.stackAddr = .ok v := by
  obtain ⟨u, hu, rfl⟩ := push_ok h
  obtain ⟨w, hwrite, -, hread⟩ := memWrite_ram v hw hk
  cases hu.symm.trans hwrite
  exact hread

/-- A push to RAM or ROM completes. -/
theorem push_answers {s : State} (v : Byte) (hp : s.PlainAt s.stackAddr) : ∃ t, push s v = .ok t := by
  obtain ⟨r, hr⟩ := plainAt_responsible hp
  obtain ⟨u, hu⟩ := memWrite_of_responsible (v := v) (by rw [hr]; rfl)
  exact ⟨_, bind_of_ok hu⟩

section
variable {s t : State} (hstack : s.StackInRam)
include hstack

theorem slot_not_io (n : Byte) : s.kindAt (s.slot n) ≠ some .io := by
  rw [State.slot, hstack]
  exact nofun

theorem FrameOutside.slot_plain {slots : List Addr} (f : FrameOutside slots s t) (n : Byte) : t.PlainAt (s.slot n) :=
  .inl ((f.2 _).1.trans (hstack _))

/-- A byte pushed to the slot stands there, and every other slot is as it was. -/
theorem push_slot_stored {u : State} {slots : List Addr} {v n : Byte} (f : FrameOutside slots s u) (hu : u.busWf = true)
    (h : push u v = .ok t) (hslot : u.stackAddr = s.slot n) :
    diagRead t (s.slot n) = .ok v ∧ ∀ m : Byte, m ≠ n → diagRead t (s.slot m) = diagRead u (s.slot m) := by
  have kind : u.kindAt u.stackAddr = some .ram := by rw [(f.2 _).1, hslot]; exact hstack _
  refine ⟨hslot ▸ push_stored h hu kind, fun m hm => ?_⟩
  have apart : s.slot m ∉ [u.stackAddr] := by rw [hslot]; exact List.mem_singleton.not.2 (slot_ne s hm)
  exact ((push_frame h (by rw [kind]; exact nofun)).plain apart (f.slot_plain hstack m)).2

theorem pushWord_answers (v : Addr) : ∃ t, pushWord s v = .ok t := by
  have first : s.stackAddr = s.slot 0 := stackAddr_eq_slot s
  obtain ⟨u, hu⟩ := push_answers (hi v) (.inl (hstack s.sp))
  have pushed : FrameOutside [s.slot 0] s u := first ▸ push_frame hu (first ▸ slot_not_io hstack 0)
  have second : u.stackAddr = s.slot 1 := (push_sameButBus hu).stackAddr_eq
  obtain ⟨t, ht⟩ := push_answers (lo v) (second ▸ pushed.slot_plain hstack 1)
  exact ⟨t, (bind_of_ok hu).trans ht⟩

theorem pushWord_stored {v : Addr} (hw : s.busWf = true) (h : pushWord s v = .ok t) :
    diagRead t (s.slot 0) = .ok (hi v) ∧ diagRead t (s.slot 1) = .ok (lo v) := by
  obtain ⟨u, hu, ht⟩ := pushWord_ok h
  have first : s.stackAddr = s.slot 0 := stackAddr_eq_slot s
  have second : u.stackAddr = s.slot 1 := (push_sameButBus hu).stackAddr_eq
  have unchanged : FrameOutside [] s s := .of_bus_eq rfl rfl
  obtain ⟨high, -⟩ := push_slot_stored hstack unchanged hw hu first
  have pushed : FrameOutside [s.slot 0] s u := first ▸ push_frame hu (first ▸ slot_not_io hstack 0)
  obtain ⟨low, kept⟩ := push_slot_stored hstack pushed (push_keeps busWf_invariant hu hw) ht second
  exact ⟨(kept 0 (by decide)).trans high, low⟩

/-- What a trap entry leaves on the stack: the return address, high byte first, and the flags byte (R310). -/
theorem trap_stored {kind : TrapKind} (hw : s.busWf = true) (h : trap kind s = .ok t) :
    diagRead t (s.slot 0) = .ok (hi (trapReturn s.pc kind)) ∧ diagRead t (s.slot 1) = .ok (lo (trapReturn s.pc kind)) ∧
      diagRead t (s.slot 2) = .ok (trapByte s.p kind) := by
  obtain ⟨u, w, v, hu, hpush, hv, rfl⟩ := trap_ok h
  have same := pushWord_sameButBus hu
  have third : u.stackAddr = s.slot 2 := same.stackAddr_eq
  have pushed := pushWord_frame hu (slot_not_io hstack 0) (slot_not_io hstack 1)
  obtain ⟨high, low⟩ := pushWord_stored hstack hw hu
  obtain ⟨flags, kept⟩ := push_slot_stored hstack pushed (pushWord_keeps busWf_invariant hu hw) hpush third
  rw [same.p_eq] at flags
  have entered : FrameOutside [s.slot 0, s.slot 1, s.slot 2] s w :=
    (pushed.mono (by simp)).push hpush (by simp [third]) (by rw [third]; exact slot_not_io hstack 2)
  have vectorRead (n : Byte) : diagRead v.state (s.slot n) = diagRead w (s.slot n) :=
    ((memReadWord_frame hv []).plain List.not_mem_nil (entered.slot_plain hstack n)).2
  exact ⟨(vectorRead 0).trans ((kept 0 (by decide)).trans high), (vectorRead 1).trans ((kept 1 (by decide)).trans low),
    (vectorRead 2).trans flags⟩

end

/-! ### Pulls of bytes that stand on the stack -/

theorem pull_plain {s : State} {a : Addr} {v : Byte} (ha : wordOf s.params.stackPage (s.sp + 1) = a) (hp : s.PlainAt a)
    (hd : diagRead s a = .ok v) : pull s = .ok { val := v, state := { s with sp := s.sp + 1 } } := by
  subst ha
  exact memRead_of_diagRead (s := { s with sp := s.sp + 1 }) hp hd

theorem pullWord_plain {s : State} {a b : Addr} {l h : Byte} (ha : wordOf s.params.stackPage (s.sp + 1) = a)
    (hb : wordOf s.params.stackPage (s.sp + 2) = b) (pa : s.PlainAt a) (pb : s.PlainAt b) (da : diagRead s a = .ok l)
    (db : diagRead s b = .ok h) : pullWord s = .ok { val := wordOf h l, state := { s with sp := s.sp + 2 } } := by
  have two : s.sp + 2 = s.sp + 1 + 1 := (BitVec.add_assoc s.sp 1 1).symm
  rw [two] at hb ⊢
  have second := pull_plain (s := { s with sp := s.sp + 1 }) hb pb db
  rw [pullWord, pull_plain ha pa da, ok_bind, second]
  rfl

/-- The address that a pull comes to, as a slot of the pushes before it. -/
theorem pulled_slot {s t : State} {k n : Byte} (hparams : t.params = s.params) (hsp : t.sp + k = s.sp - n) :
    wordOf t.params.stackPage (t.sp + k) = s.slot n := by
  rw [hparams, hsp, State.slot]

/-! ### The three obligations -/

theorem trapReturn_eq (pc : Addr) (kind : TrapKind) : trapReturn pc kind = if kind = .brk then pc + 1 else pc := by
  cases kind <;> rfl

theorem vector_eq (params : Config.Params) (kind : TrapKind) :
    vector params kind = if kind = .nmi then params.vecNmi else params.vecIrq := by
  cases kind <;> rfl

theorem trapByte_eq (p : Flags) (kind : TrapKind) :
    trapByte p kind = p.pack ||| 0x20 ||| (if kind = .brk then 0x10 else 0) := by
  cases kind
  case brk => exact (BitVec.or_assoc p.pack 0x20 0x10).symm
  all_goals exact (BitVec.or_zero (x := p.pack ||| 0x20)).symm

theorem add_trapLatency (n : BitVec 64) (kind : TrapKind) :
    n + BitVec.ofNat 64 (trapLatency kind) = if kind = .brk then n else n + 7 := by
  cases kind
  case brk => exact BitVec.add_zero n
  all_goals rfl

/-- Settles O19: the accesses are those of `trap_steps`, and where the stack page is RAM their bytes stand in three slots of
their own. -/
theorem trapEntrySavesPcAndFlags : Obligations.TrapEntrySavesPcAndFlags := by
  intro kind s hs
  obtain ⟨a, b, c, l, h, ha, hb, hc, hl, hh, ht, hcycles⟩ := trap_steps hs kind
  rw [hcycles, add_trapLatency] at ht
  rw [trapByte_eq] at hc
  rw [trapReturn_eq] at ha hb
  rw [vector_eq] at hl hh
  refine ⟨a, b, c, l, h, _, ha, hb, hc, hl, hh, rfl, ht, fun hw hstack => ?_⟩
  obtain ⟨high, low, flags⟩ := trap_stored hstack hw ht
  rw [trapReturn_eq] at high low
  rw [trapByte_eq] at flags
  have frame := trap_frame ht (slot_not_io hstack 0) (slot_not_io hstack 1) (slot_not_io hstack 2)
  refine ⟨high, low, flags, fun a h0 h1 h2 => frame.plain ?_, ?_⟩
  · exact List.not_mem_cons_of_ne_of_not_mem h0 (List.not_mem_cons_of_ne_of_not_mem h1 (List.mem_singleton.not.2 h2))
  · have same := trap_sameButBus ht
    rw [SameButBus, frame.1, ← (trap_sameButBus ht).cycles_eq] at same
    exact same

/-- `LoadP` of the byte that a trap entry pushes restores the flags, since it ignores bits 5 and 4 (R32, R316). -/
theorem ofByte_trapByte (p : Flags) (kind : TrapKind) : Flags.ofByte (trapByte p kind) = p := by
  cases kind
  case brk => exact ofByte_pack_or p 0x30 (by decide)
  all_goals exact ofByte_pack_or p 0x20 (by decide)

/-- Settles O20: the three pulls read the slots of the three pushes in the other order. -/
theorem returnAfterTrapRestores : Obligations.ReturnAfterTrapRestores := by
  intro kind s hw hs hstack
  obtain ⟨t, ht, -⟩ := trap_completes hs kind
  have same := trap_sameButBus ht
  obtain ⟨high, low, flags⟩ := trap_stored hstack hw ht
  have frame := trap_frame ht (slot_not_io hstack 0) (slot_not_io hstack 1) (slot_not_io hstack 2)
  have plain := frame.slot_plain hstack
  have hsp : t.sp = s.sp - 3 := same.sp_eq
  have slot2 : wordOf t.params.stackPage (t.sp + 1) = s.slot 2 := pulled_slot same.params_eq (by rw [hsp]; bv_omega)
  have slot1 : wordOf t.params.stackPage (t.sp + 1 + 1) = s.slot 1 := by
    rw [BitVec.add_assoc]; exact pulled_slot same.params_eq (by rw [hsp]; bv_omega)
  have slot0 : wordOf t.params.stackPage (t.sp + 1 + 2) = s.slot 0 := by
    rw [BitVec.add_assoc]; exact pulled_slot same.params_eq (by rw [hsp]; bv_omega)
  have first := pull_plain slot2 (plain 2) flags
  have rest := pullWord_plain (s := ({ t with sp := t.sp + 1 } : State).withFlags (Flags.ofByte (trapByte s.p kind)))
    slot1 slot0 (plain 1) (plain 0) low high
  refine ⟨t, _, ht, (bind_of_ok first).trans (bind_of_ok rest), ofByte_trapByte s.p kind, ?sp, ?pc, same.a_eq, same.x_eq,
    same.y_eq⟩
  case sp =>
    show t.sp + 1 + 2 = s.sp
    rw [hsp]
    bv_omega
  case pc => exact (wordOf_hi_lo _).trans (trapReturn_eq s.pc kind)

/-- Settles O21: the two pulls read the slots of the two pushes in the other order, and the 1 that `RTS` adds is the one that
`JSR` took away. -/
theorem returnAfterCallRestores : Obligations.ReturnAfterCallRestores := by
  intro w s hw hstack
  obtain ⟨u, hu⟩ := pushWord_answers (s := s.advance 3) hstack (s.pc + 2)
  have same := pushWord_sameButBus hu
  obtain ⟨high, low⟩ := pushWord_stored (s := s.advance 3) hstack hw hu
  have plain := (pushWord_frame hu (slot_not_io hstack 0) (slot_not_io hstack 1)).slot_plain hstack
  have hsp : u.sp = s.sp - 2 := same.sp_eq
  have slot1 : wordOf u.params.stackPage (u.sp + 1) = s.slot 1 := pulled_slot same.params_eq (by rw [hsp]; bv_omega)
  have slot0 : wordOf u.params.stackPage (u.sp + 2) = s.slot 0 := pulled_slot same.params_eq (by rw [hsp]; bv_omega)
  have called : exec (.jsrAbs w) s = .next (({ u with pc := w } : State).account 6) := runCall_of_ok hu
  have pulled := pullWord_plain (s := (({ u with pc := w } : State).account 6).advance 1) slot1 slot0 (plain 1) (plain 0)
    low high
  have returned : stRts ((({ u with pc := w } : State).account 6).advance 1) = .ok _ := bind_of_ok pulled
  refine ⟨_, _, called, rfl, runStack_of_ok returned, ?pc, ?sp⟩
  case pc =>
    show wordOf (hi (s.pc + 2)) (lo (s.pc + 2)) + 1 = s.pc + 3
    rw [wordOf_hi_lo, BitVec.add_assoc]
    rfl
  case sp =>
    show u.sp + 2 = s.sp
    rw [hsp]
    bv_omega

end Sys2Proof.Machine
end

