-- ==== Sys2Proof/Proofs/Reset.lean ====
section
/-!
PROOFS. Obligations O7 and O8: `reset()`, which reads its vector after the registers are set, and the boot that ends in it. A
bus-level read answers the same whatever the registers hold, so the vector is that of the state before.
-/

namespace Sys2Proof.Machine

/-! ### Reads of one bus from two register files -/

/-- A bus-level read from other registers answers the same byte, and changes the regions alike. -/
theorem memRead_congr {s t : State} {a : Addr} {r : BusRead} (hr : t.regions = s.regions) (hm : t.mapOrder = s.mapOrder)
    (h : memRead s a = .ok r) : memRead t a = .ok { val := r.val, state := { t with regions := r.state.regions } } := by
  obtain ⟨g, hg, hcases⟩ := memRead_ok h
  rw [← responsible_congr hr hm] at hg
  obtain ⟨hk, hs, hd⟩ | ⟨hist, hb, hv, hs⟩ := hcases
  · rw [hs, ← hr]
    exact memRead_of_diagRead ((plainAt_kind hg).2 hk) ((diagRead_congr hr hm a).trans hd)
  · rw [hs, hv, State.setBacking_regions, ← hr]
    exact memRead_io hg hb

theorem memReadWord_congr {s t : State} {a : Addr} {r : WordRead} (hr : t.regions = s.regions)
    (hm : t.mapOrder = s.mapOrder) (h : memReadWord s a = .ok r) :
    memReadWord t a = .ok { val := r.val, state := { t with regions := r.state.regions } } := by
  obtain ⟨l, g, hl, hg, rfl⟩ := memReadWord_ok h
  have order : t.mapOrder = l.state.mapOrder := hm.trans (memRead_frame hl []).1.symm
  have second := memRead_congr (s := l.state) (t := { t with regions := l.state.regions }) rfl order hg
  exact (bind_of_ok (memRead_congr hr hm hl)).trans (bind_of_ok second)

/-! ### The reset -/

/-- A reset sets the registers and loads the vector that the state before it reads (R340). -/
theorem resetMachine_of_vector {s : State} {r : WordRead} (h : memReadWord s s.params.vecReset = .ok r) :
    resetMachine s = .ok { s.resetRegisters with pc := r.val, regions := r.state.regions } :=
  bind_of_ok (memReadWord_congr (s := s) (t := s.resetRegisters) rfl rfl h)

/-- A bus-level read takes no address away and gives none. -/
theorem memRead_responsible_none {s : State} {a b : Addr} {r : BusRead} (h : memRead s a = .ok r)
    (hb : s.responsible b = none) : r.state.responsible b = none := by
  have kind : r.state.kindAt b = s.kindAt b := ((memRead_frame h []).2 b).1
  unfold State.kindAt at kind
  rwa [hb, Option.map_none, Option.map_eq_none_iff] at kind

/-- Settles O7: the vector is read from the regions of the state before, and reads change no byte of RAM and ROM. -/
theorem resetLoadsRegistersAndVector : Obligations.ResetLoadsRegistersAndVector := by
  refine ⟨fun s hs => ?answers, fun s hlow => ?low, fun s hlow hhigh => ?high⟩
  case answers =>
    obtain ⟨r, hr, -⟩ := memReadWord_completes hs s.params.vecReset
    have frame := memReadWord_frame hr []
    have reset := resetMachine_of_vector hr
    obtain ⟨l, h, hl, hh, rfl⟩ := memReadWord_ok hr
    have vectorRead := frame.trans (.of_bus_eq (t := { s.resetRegisters with regions := h.state.regions }) rfl frame.1.symm)
    exact ⟨l, h, _, hl, hh, rfl, reset, fun a => vectorRead.plain List.not_mem_nil⟩
  case low => exact bind_of_error (bind_of_error (memRead_unmapped (s := s.resetRegisters) hlow))
  case high =>
    obtain ⟨l, hl⟩ := memRead_of_responsible (s := s.resetRegisters) hlow
    have second := memRead_unmapped (memRead_responsible_none hl hhigh)
    exact bind_of_error ((bind_of_ok hl).trans (bind_of_error second))

/-! ### The boot over one RAM region -/

theorem memWriteWord_sameButBus {s t : State} {a v : Addr} (h : memWriteWord s a v = .ok t) : SameButBus s t := by
  obtain ⟨u, hu, ht⟩ := bind_ok h
  exact (memWrite_sameButBus hu).trans (memWrite_sameButBus ht)

/-- The machine as constructed, with RAM mapped over all addresses. -/
def State.constructedRam (q : Config.Params) : State := (State.constructed q).mapRegion ramEverywhere

theorem constructedRam_eq (q : Config.Params) :
    State.constructedRam q = { State.constructed q with regions := [ramEverywhere], mapOrder := [0] } :=
  mapRegion_of_new rfl (by decide)

theorem constructedRam_kindAt (q : Config.Params) (a : Addr) : (State.constructedRam q).kindAt a = some .ram := by
  rw [constructedRam_eq]
  exact kindAt_of_responsible (reset_responsible a)

theorem constructedRam_busWf (q : Config.Params) : (State.constructedRam q).busWf = true := by
  rw [constructedRam_eq]
  exact busWf_invariant.frame (s := State.reset) rfl rfl reset_busWf

/-- The boot over RAM alone ends with `PC` at the entry address: the reset reads back the vector just written. -/
theorem boot_ram (q : Config.Params) (entry : Addr) :
    ∃ s, boot q [ramEverywhere] [] entry = .next s ∧ s.pc = entry := by
  have kind := constructedRam_kindAt q
  obtain ⟨u, hu, -, -, hread⟩ :=
    wordAccessIsLittleEndian.2 (State.constructedRam q) q.vecReset entry (constructedRam_busWf q) (kind _) (kind _)
  have params : u.params = q := (memWriteWord_sameButBus hu).params_eq.trans (mapRegion_params _ _)
  rw [← params] at hread
  have entered : enterAt entry (State.constructedRam q) = .next { u.resetRegisters with pc := entry } := by
    have vec : (State.constructedRam q).params.vecReset = q.vecReset := congrArg Config.Params.vecReset (mapRegion_params _ _)
    rw [enterAt, vec, hu]
    exact congrArg finish (resetMachine_of_vector hread)
  exact ⟨_, entered, rfl⟩

/-- Settles O8: only a reset or the host's writes define the registers, and every boot ends in a reset. -/
theorem stepNeedsDefinedRegisters : Obligations.StepNeedsDefinedRegisters := by
  refine ⟨fun s hd => ?undefined, fun s t h => (step_defined h).2, fun s t h => (resetMachine_sameButBus h).defined_eq,
    fun _ => rfl, fun _ _ _ _ _ _ _ _ => rfl, fun q regions loads entry s h => ?booted, boot_ram, rfl⟩
  case undefined => rw [step, stepFetch, if_neg hd]
  case booted =>
    obtain ⟨u, hu, hr⟩ := boot_next h
    have same := resetMachine_sameButBus hr
    exact ⟨same.defined_eq, same.pending_eq, same.params_eq.trans hu⟩

end Sys2Proof.Machine
end

