-- ==== Sys2Proof/Proofs/RunEnds.lean ====
section
/-!
PROOFS. Obligation O55: the two ends of a run. An instruction that jumps to itself changes the account alone, whatever the
account holds, so steps repeat it.
-/

namespace Sys2Proof.Machine

/-! ### Which instructions jump to themselves -/

/-- A one-byte operand and the opcode are the whole instruction (R94). -/
theorem eq_instrOf_of_byte {i : Instr} {b : Byte} (ho : i.operand = .byte b) : i = instrOf i.opcode b 0 := by
  refine (instrOf_of_operand ?_).symm
  rw [ho]
  rfl

theorem operand_of_offset {i : Instr} {b : Byte} (h : i.offset = some b) : i.operand = .byte b := by
  unfold Instr.offset at h
  split at h
  · rename_i hop
    cases h
    exact hop
  · cases h

/-- A branch is the one instruction of its opcode with its offset. -/
theorem eq_branch {i : Instr} {m : Mnemonic} {op b : Byte} (rows : ∀ o : Byte, (rowOf o).mnemonic = m → o = op)
    (hm : i.mnemonic = m) (ho : i.offset = some b) : i = instrOf op b 0 := by
  rw [← rows i.opcode hm]
  exact eq_instrOf_of_byte (operand_of_offset ho)

/-- The branches with offset `0xFE` that the flags take. -/
def BranchesToItself (i : Instr) (p : Flags) : Prop :=
  (i = .bpl 0xFE ∧ p.n = false) ∨ (i = .bmi 0xFE ∧ p.n = true) ∨ (i = .bvc 0xFE ∧ p.v = false) ∨
    (i = .bvs 0xFE ∧ p.v = true) ∨ (i = .bcc 0xFE ∧ p.c = false) ∨ (i = .bcs 0xFE ∧ p.c = true) ∨
    (i = .bne 0xFE ∧ p.z = false) ∨ (i = .beq 0xFE ∧ p.z = true)

theorem branchesToItself_iff {i : Instr} {p : Flags} :
    BranchesToItself i p ↔ i.offset = some 0xFE ∧ branchTaken p i.mnemonic = true := by
  constructor
  · rintro (⟨rfl, h⟩ | ⟨rfl, h⟩ | ⟨rfl, h⟩ | ⟨rfl, h⟩ | ⟨rfl, h⟩ | ⟨rfl, h⟩ | ⟨rfl, h⟩ | ⟨rfl, h⟩)
    · exact ⟨rfl, congrArg not h⟩
    · exact ⟨rfl, h⟩
    · exact ⟨rfl, congrArg not h⟩
    · exact ⟨rfl, h⟩
    · exact ⟨rfl, congrArg not h⟩
    · exact ⟨rfl, h⟩
    · exact ⟨rfl, congrArg not h⟩
    · exact ⟨rfl, h⟩
  · rintro ⟨ho, ht⟩
    unfold branchTaken at ht
    unfold BranchesToItself
    split at ht
    case h_1 hm =>
      obtain rfl : i = .bpl 0xFE := eq_branch (op := 0x10) (by decide) hm ho
      simpa using ht
    case h_2 hm =>
      obtain rfl : i = .bmi 0xFE := eq_branch (op := 0x30) (by decide) hm ho
      simpa using ht
    case h_3 hm =>
      obtain rfl : i = .bvc 0xFE := eq_branch (op := 0x50) (by decide) hm ho
      simpa using ht
    case h_4 hm =>
      obtain rfl : i = .bvs 0xFE := eq_branch (op := 0x70) (by decide) hm ho
      simpa using ht
    case h_5 hm =>
      obtain rfl : i = .bcc 0xFE := eq_branch (op := 0x90) (by decide) hm ho
      simpa using ht
    case h_6 hm =>
      obtain rfl : i = .bcs 0xFE := eq_branch (op := 0xB0) (by decide) hm ho
      simpa using ht
    case h_7 hm =>
      obtain rfl : i = .bne 0xFE := eq_branch (op := 0xD0) (by decide) hm ho
      simpa using ht
    case h_8 hm =>
      obtain rfl : i = .beq 0xFE := eq_branch (op := 0xF0) (by decide) hm ho
      simpa using ht
    case h_9 => cases ht

/-- The pointer at this address is in RAM or ROM and holds the address of the instruction, with the defect of R120. -/
def State.PointerToPc (s : State) (w : Addr) : Prop :=
  let next : Addr := BitVec.ofNat 16 (w.toNat / 256 * 256 + (w.toNat + 1) % 256)
  s.PlainAt w ∧ s.PlainAt next ∧ diagRead s w = .ok (lo s.pc) ∧ diagRead s next = .ok (hi s.pc)

theorem pointsToItself_eq {w : Addr} {s : State} : pointsToItself w s = true ↔ s.PointerToPc w := by
  rw [pointsToItself_iff, wordOf_hi_lo_add_one]
  rfl

/-- A jump to itself is one of the two forms of `JMP`, or a branch (R351). -/
theorem jumpsToItself_iff {i : Instr} {s : State} :
    jumpsToItself i s = true ↔
      i = .jmpAbs s.pc ∨ (∃ w, i = .jmpInd w ∧ s.PointerToPc w) ∨ BranchesToItself i s.p := by
  unfold jumpsToItself
  split
  case h_1 w => simp [BranchesToItself]
  case h_2 w => simp [BranchesToItself, pointsToItself_eq]
  case h_3 habs hind =>
    have notAbs : i ≠ .jmpAbs s.pc := habs s.pc
    have notInd : ¬ ∃ w, i = .jmpInd w ∧ s.PointerToPc w := fun ⟨w, hi, _⟩ => hind w hi
    rw [Bool.and_eq_true, decide_eq_true_iff, branchesToItself_iff]
    simp only [notAbs, notInd, false_or]

/-- The jumps to themselves are documented opcodes, which no policy refuses (R95, R283). -/
theorem jumpsToItself_documented {i : Instr} {s : State} (h : jumpsToItself i s = true) : i.row.cls = .doc := by
  rcases jumpsToItself_iff.1 h with rfl | ⟨w, rfl, -⟩ | hb
  · rfl
  · rfl
  · rcases hb with ⟨rfl, -⟩ | ⟨rfl, -⟩ | ⟨rfl, -⟩ | ⟨rfl, -⟩ | ⟨rfl, -⟩ | ⟨rfl, -⟩ | ⟨rfl, -⟩ | ⟨rfl, -⟩ <;> rfl

/-- Whether the next step loops is read off the code in RAM or ROM at `PC`. -/
theorem loopsInPlace_of_code {s : State} {bytes : List Byte} {i : Instr} (hd : decode bytes = .ok (i, []))
    (hc : s.CodeAt bytes) : s.loopsInPlace = jumpsToItself i s := by
  have he := encode_of_decode hd
  subst he
  obtain ⟨f, hf, hfs, hi⟩ := fetch_code hd hc
  have same : jumpsToItself f.instr s = jumpsToItself i s := by
    rcases hi with hi | ⟨hu, -, hi⟩
    · rw [hi]
    · have unstable {j : Instr} (hj : j.row.cls = .unst) : jumpsToItself j s = false :=
        eq_false_of_ne_true fun h => by cases hj.symm.trans (jumpsToItself_documented h)
      rw [unstable (j := i) hu, unstable (by rwa [hi, instrOf_row])]
  rw [State.loopsInPlace, hf]
  simp only [hfs, decide_true, Bool.true_and, same]

/-! ### Steps from a looping state -/

/-- The state with another account: what a looping state repeats but for. -/
def State.withAccount (s : State) (cycles : BitVec 64) (consumed : Nat) : State :=
  { s with cycles := cycles, consumed := consumed }

theorem branchesToItself_exec {i : Instr} {s : State} (h : BranchesToItself i s.p) :
    exec i s = .next (s.account (branchCost true (s.pc + 2) 0xFE)) := by
  rcases h with ⟨rfl, h⟩ | ⟨rfl, h⟩ | ⟨rfl, h⟩ | ⟨rfl, h⟩ | ⟨rfl, h⟩ | ⟨rfl, h⟩ | ⟨rfl, h⟩ | ⟨rfl, h⟩
  · exact runBranch_self (cond := fun p => !p.n) (congrArg not h)
  · exact runBranch_self (cond := fun p => p.n) h
  · exact runBranch_self (cond := fun p => !p.v) (congrArg not h)
  · exact runBranch_self (cond := fun p => p.v) h
  · exact runBranch_self (cond := fun p => !p.c) (congrArg not h)
  · exact runBranch_self (cond := fun p => p.c) h
  · exact runBranch_self (cond := fun p => !p.z) (congrArg not h)
  · exact runBranch_self (cond := fun p => p.z) h

theorem jmpInd_exec {w : Addr} {s : State} (h : s.PointerToPc w) : exec (.jmpInd w) s = .next (s.account 5) := by
  obtain ⟨pl, ph, dl, dh⟩ := h
  rw [← wordOf_hi_lo_add_one] at ph dh
  have low := memRead_of_diagRead (s := s.advance 3) pl dl
  have high := memRead_of_diagRead (s := s.advance 3) ph dh
  have target : indirectTarget (s.advance 3) w = .ok { val := s.pc, state := s.advance 3 } := by
    rw [indirectTarget, low, ok_bind, high, ok_bind, wordOf_hi_lo]
    rfl
  exact runJumpIndirect_of_ok target

/-- A jump to itself changes the account alone, by a cost that does not depend on it. -/
theorem jumpsToItself_exec {i : Instr} {s : State} (h : jumpsToItself i s = true) :
    ∃ c : Nat, (c = 3 ∨ c = 4 ∨ c = 5) ∧
      ∀ cycles consumed, exec i (s.withAccount cycles consumed) = .next ((s.withAccount cycles consumed).account c) := by
  rcases jumpsToItself_iff.1 h with rfl | ⟨w, rfl, hw⟩ | hb
  · exact ⟨3, .inl rfl, fun cycles consumed => runJump_eq (s := s.withAccount cycles consumed) s.pc 3⟩
  · exact ⟨5, .inr (.inr rfl), fun cycles consumed => jmpInd_exec (s := s.withAccount cycles consumed) hw⟩
  · refine ⟨branchCost true (s.pc + 2) 0xFE, ?_,
      fun cycles consumed => branchesToItself_exec (s := s.withAccount cycles consumed) hb⟩
    rcases branchCost_taken (s.pc + 2) 0xFE with hc | hc
    · exact .inl hc
    · exact .inr (.inl hc)

/-- Steps that each change the account alone, by one cost. -/
theorem runSteps_of_loop {s : State} {c : Nat}
    (h : ∀ cycles consumed, step (s.withAccount cycles consumed) = .next ((s.withAccount cycles consumed).account c))
    (n : Nat) (cycles : BitVec 64) (consumed : Nat) :
    runSteps n (s.withAccount cycles consumed) =
      .next (s.withAccount (cycles + BitVec.ofNat 64 (n * c)) (if n = 0 then consumed else c)) := by
  induction n generalizing cycles consumed with
  | zero => simp [runSteps]
  | succ n ih =>
    have cost : cycles + BitVec.ofNat 64 c + BitVec.ofNat 64 (n * c) = cycles + BitVec.ofNat 64 ((n + 1) * c) := by
      rw [BitVec.add_assoc, ← BitVec.ofNat_add, Nat.succ_mul, Nat.add_comm]
    have last : (if n = 0 then c else c) = if n + 1 = 0 then consumed else c := by simp
    rw [runSteps, h]
    exact (ih (cycles + BitVec.ofNat 64 c) c).trans (by rw [cost, last])

theorem loop_runs {s : State} {bytes : List Byte} {i : Instr} (hd : decode bytes = .ok (i, [])) (hc : s.CodeAt bytes)
    (hi : jumpsToItself i s = true) (hdef : s.defined = .all)
    (hp : s.pending = { reset := false, nmi := false, irq := false }) :
    ∃ c : Nat, (c = 3 ∨ c = 4 ∨ c = 5) ∧ ∀ n : Nat,
      runSteps n s = .next (s.withAccount (s.cycles + BitVec.ofNat 64 (n * c)) (if n = 0 then s.consumed else c)) := by
  obtain ⟨c, hcost, hexec⟩ := jumpsToItself_exec hi
  refine ⟨c, hcost, fun n => runSteps_of_loop (fun cycles consumed => ?_) n s.cycles s.consumed⟩
  rw [step_of_code (s := s.withAccount cycles consumed) hd hc hdef, hexec]
  obtain ⟨-, -, -, -, -, idle⟩ := checkServicesOneRequest ((s.withAccount cycles consumed).account c)
  exact congrArg finish (idle hp)

/-! ### Runs to an address -/

theorem runTo_ended {stop : Addr} {s : State} (h : s.ended stop = true) (n : Nat) : runTo stop n s = .next s := by
  cases n with
  | zero => rfl
  | succ n => rw [runTo, if_pos h]

/-- What a run to an address answers is reached by steps, all of the count or to an end. -/
theorem runTo_next {stop : Addr} {n : Nat} {s t : State} (h : runTo stop n s = .next t) :
    ∃ k ≤ n, runSteps k s = .next t ∧ (k = n ∨ t.ended stop = true) := by
  induction n generalizing s with
  | zero => exact ⟨0, Nat.le_refl 0, h, .inl rfl⟩
  | succ n ih =>
    by_cases hend : s.ended stop = true
    · rw [runTo_ended hend] at h
      cases h
      exact ⟨0, Nat.zero_le _, rfl, .inr hend⟩
    · rw [runTo, if_neg hend] at h
      split at h
      case h_1 u hu =>
        obtain ⟨k, hk, hrun, hlast⟩ := ih h
        refine ⟨k + 1, Nat.succ_le_succ hk, ?_, hlast.imp_left (congrArg Nat.succ)⟩
        rw [runSteps, hu]
        exact hrun
      all_goals cases h

/-- Settles O55: a jump to itself is one of ten instructions under its condition; a loop is that jump in RAM or ROM, and its
steps repeat; a run is steps until an end. -/
theorem runEndsInPlaceOrAtAStop : Obligations.RunEndsInPlaceOrAtAStop :=
  ⟨fun _ _ => jumpsToItself_iff, fun _ _ _ hd hc => ⟨loopsInPlace_of_code hd hc, loop_runs hd hc⟩,
    fun _ n _ h => runTo_ended h n, fun _ _ _ _ h => runTo_next h⟩

end Sys2Proof.Machine
end
